-- ==== Sys2Proof/Word.lean ====
section
/-! DEFINITION. The widths the source fixes (`00_scope.md` rule R4, last paragraph): a byte is 8 bits, a
general address 24 bits, an internal address 16 bits, a word 32 bits, a size 16 or 24 bits. -/

namespace Sys2Proof

/-- A byte: an unsigned 8-bit value (R5). -/
abbrev Byte := BitVec 8

/-- A decoded address as the working register `addr` holds it: 24 bits (R14, R52). -/
abbrev Addr := BitVec 24

/-- A 2-byte internal address as a command carries it (R30, R52). -/
abbrev InternalAddr := BitVec 16

/-- A 32-bit word (R34). -/
abbrev Word := BitVec 32

/-- `zeros(n)`: the list of `n` bytes 0x00 (R5). -/
abbrev zeros (n : Nat) : List Byte := List.replicate n 0

end Sys2Proof
end

