-- ==== Sys2Proof/Config.lean ====
section
/-! DEFINITION. The implementation parameters of `00_scope.md` rule R3, each a field of `Config`. The model
takes them as an argument: State carries one `Config`, no step changes it, and every claim is about every
value of it. Which configurations are admissible (R4) is `Config.Admissible` in Machine/Memory.lean; the
reference values are in Machine/Reference.lean. -/

namespace Sys2Proof

/-- The five regions of the Memory Map (`20_memory.md` rule R31). -/
inductive Region where
  | low      -- priority 0: "small low-address region", "clockless registers"
  | periph   -- priority 1
  | spictl   -- priority 2
  | bootrom  -- priority 3
  | general  -- priority 4: the catch-all
  deriving DecidableEq, Repr

/-- Base address and length of a region, natural numbers (R30, R31). -/
structure Span where
  base : Nat
  length : Nat
  deriving DecidableEq, Repr

/-- `REGIONS`: one span for each region; five entries by type (R4 (c)). -/
structure RegionTable where
  low : Span
  periph : Span
  spictl : Span
  bootrom : Span
  general : Span
  deriving DecidableEq, Repr

/-- The parameters of R3. All are fixed before startup and constant for the session. -/
structure Config where
  /-- `CRC_TABLE`: 256 entries of 8 bits. -/
  crcTable : Vector Byte 256
  /-- `CRC_SEED`. -/
  crcSeed : Byte
  /-- `STATUS_ERR`, different from 0x00 (R4 (a)). -/
  statusErr : Byte
  /-- `MAX_CHUNK`, at least 1 (R4 (b)). -/
  maxChunk : Nat
  /-- `UNKNOWN_DRAIN`, may be 0. -/
  unknownDrain : Nat
  /-- `IDLE_ZERO_SKIP` (R61). -/
  idleZeroSkip : Bool
  /-- `REGIONS` (R31). -/
  regions : RegionTable
  /-- `INIT_IMAGE`: (address, bytes) entries stored at startup (R24). -/
  initImage : List (Nat × List Byte)
  /-- `SUBSCRIBED`: a finite set of addresses, as a list without repeats. -/
  subscribed : List Nat
  /-- `CALLBACK_CAP`. -/
  callbackCap : Nat
  /-- `NOTIFY_CAP`, at least 1. -/
  notifyCap : Nat
  deriving DecidableEq, Repr

/-- Base and length of region `r`: `REGIONS[r]`. -/
def Config.span (cfg : Config) : Region → Span
  | .low => cfg.regions.low
  | .periph => cfg.regions.periph
  | .spictl => cfg.regions.spictl
  | .bootrom => cfg.regions.bootrom
  | .general => cfg.regions.general

end Sys2Proof
end

