-- ==== Sys2Proof/Syntax.lean ====
section
/-! DEFINITION. The commands (`30_encoding.md` rules R51, R56, R63): one constructor for each row of
spec/opcode_table.json. The operands are the fields of the command frame, in the order in which the frame
carries them. `crc` is the checksum byte the block received as the frame's last byte: `some` exactly when the
frame has one, that is when `crc_enabled` was 1 at the opcode (R55). The dummy bytes of a format-U frame are no
operands (R60: "dummy bytes are wholly ignored"), and the payload of a DMA write is no part of the command
frame (R50). -/

namespace Sys2Proof

/-- A command as the Command Processor decodes it. -/
inductive Instr where
  /-- 0xC1 DmaWrite (R122). -/
  | dmaWrite (addr : Addr) (size : BitVec 16) (crc : Option Byte)
  /-- 0xC2 DmaRead (R120). -/
  | dmaRead (addr : Addr) (size : BitVec 16) (crc : Option Byte)
  /-- 0xC3 InternalWrite (R103). -/
  | internalWrite (addr : InternalAddr) (value : Word) (crc : Option Byte)
  /-- 0xC4 InternalRead (R101). -/
  | internalRead (addr : InternalAddr) (crc : Option Byte)
  /-- 0xC5 Terminate (R141). -/
  | terminate
  /-- 0xC6 Repeat (R142). -/
  | repeatCmd
  /-- 0xC7 DmaExtWrite (R123). -/
  | dmaExtWrite (addr : Addr) (size : BitVec 24) (crc : Option Byte)
  /-- 0xC8 DmaExtRead (R121). -/
  | dmaExtRead (addr : Addr) (size : BitVec 24) (crc : Option Byte)
  /-- 0xC9 SingleWrite (R102). -/
  | singleWrite (addr : Addr) (value : Word) (crc : Option Byte)
  /-- 0xCA SingleRead (R100). -/
  | singleRead (addr : Addr) (crc : Option Byte)
  /-- 0xCF Reset (R140). -/
  | reset
  /-- 0x00 received in AwaitOpcode when `IDLE_ZERO_SKIP` holds: idle filler, not a command (R61). -/
  | idleSkip
  /-- Every other opcode byte (R143). -/
  | unknown (op : Byte)
  deriving DecidableEq, Repr

/-- What fixes the layout of a frame beside the opcode byte (R62): the checksum flag when the opcode
arrived, and the two parameters that say how `UNKNOWN_DRAIN` and the idle byte are handled. -/
structure FrameContext where
  /-- `C`: `crc_enabled` sampled when the opcode byte was received (R7). -/
  crc : Bool
  /-- `UNKNOWN_DRAIN`. -/
  drain : Nat
  /-- `IDLE_ZERO_SKIP`. -/
  skip : Bool
  deriving DecidableEq, Repr

end Sys2Proof
end

