-- ==== Sys2Proof/WellFormed.lean ====
section
/-! DEFINITION. Which commands can arrive under a frame context: the checksum byte is there exactly when `C`
is 1 (R51, R55), `Unknown` carries an opcode that no row of R56 names, and the idle byte exists only where
`IDLE_ZERO_SKIP` holds (R61). -/

namespace Sys2Proof

/-- The opcode values R56 names. -/
def namedOpcodes : List Byte :=
  [0xC1, 0xC2, 0xC3, 0xC4, 0xC5, 0xC6, 0xC7, 0xC8, 0xC9, 0xCA, 0xCF]

/-- The received checksum byte of a read/write command; `none` for the formats that never have one (Z, U). -/
def Instr.crc : Instr → Option Byte
  | .dmaWrite _ _ crc => crc
  | .dmaRead _ _ crc => crc
  | .internalWrite _ _ crc => crc
  | .internalRead _ crc => crc
  | .terminate => none
  | .repeatCmd => none
  | .dmaExtWrite _ _ crc => crc
  | .dmaExtRead _ _ crc => crc
  | .singleWrite _ _ crc => crc
  | .singleRead _ crc => crc
  | .reset => none
  | .idleSkip => none
  | .unknown _ => none

/-- Whether the command is a read/write command, the A formats of R51, whose frames carry a checksum. -/
def Instr.isReadWrite : Instr → Bool
  | .dmaWrite _ _ _ => true
  | .dmaRead _ _ _ => true
  | .internalWrite _ _ _ => true
  | .internalRead _ _ => true
  | .terminate => false
  | .repeatCmd => false
  | .dmaExtWrite _ _ _ => true
  | .dmaExtRead _ _ _ => true
  | .singleWrite _ _ _ => true
  | .singleRead _ _ => true
  | .reset => false
  | .idleSkip => false
  | .unknown _ => false

/-- `op` is an opcode byte the Unknown row takes under `ctx` (R56, R61). -/
def unknownOpcode (ctx : FrameContext) (op : Byte) : Bool :=
  !namedOpcodes.contains op && !(ctx.skip && op == 0)

/-- The command can arrive under `ctx`. -/
def WellFormed (ctx : FrameContext) : Instr → Bool
  | .unknown op => unknownOpcode ctx op
  | .idleSkip => ctx.skip
  | i => if i.isReadWrite then i.crc.isSome == ctx.crc else true

end Sys2Proof
end

