-- ==== Sys2Proof/Decode.lean ====
section
/-! DEFINITION. Decoding of command frames, total on every byte list, and after it the encoder
(`30_encoding.md` rules R51 to R56, `40_protocol_fsm.md` rules R72 and R78). Every opcode byte has a handling
(R60), so the only frames refused are those that hold too few bytes, and they are refused by name. -/

namespace Sys2Proof

/-! ### Byte order (R5, R52, R53, R54) -/

/-- `be(b0, b1)`: first byte most significant (R5). -/
def be2 (b0 b1 : Byte) : BitVec 16 := BitVec.ofNat 16 (b0.toNat * 256 + b1.toNat)

/-- `be(b0, b1, b2)` (R5). -/
def be3 (b0 b1 b2 : Byte) : BitVec 24 :=
  BitVec.ofNat 24 (b0.toNat * 65536 + b1.toNat * 256 + b2.toNat)

/-- `le32(b0, b1, b2, b3)`: first byte least significant (R5, R34). -/
def le32 (b0 b1 b2 b3 : Byte) : Word :=
  BitVec.ofNat 32 (b0.toNat + b1.toNat * 256 + b2.toNat * 65536 + b3.toNat * 16777216)

/-- The bytes of a 2-byte field in wire order, most significant first (R52, R53). -/
def bytesBe2 (v : BitVec 16) : List Byte :=
  [BitVec.ofNat 8 (v.toNat / 256), BitVec.ofNat 8 v.toNat]

/-- The bytes of a 3-byte field in wire order, most significant first (R52, R53). -/
def bytesBe3 (v : BitVec 24) : List Byte :=
  [BitVec.ofNat 8 (v.toNat / 65536), BitVec.ofNat 8 (v.toNat / 256), BitVec.ofNat 8 v.toNat]

/-- `bytes_le32(w)`: the bytes of a word in memory order (R5, R34). -/
def bytesLe32 (w : Word) : List Byte :=
  [BitVec.ofNat 8 w.toNat, BitVec.ofNat 8 (w.toNat / 256), BitVec.ofNat 8 (w.toNat / 65536),
    BitVec.ofNat 8 (w.toNat / 16777216)]

/-- `zext_24` of an internal address (R30, R52). -/
def zext24 (a : InternalAddr) : Addr := BitVec.ofNat 24 a.toNat

/-- `zext_24` of a 16-bit size (R14). -/
def sizeOf16 (n : BitVec 16) : BitVec 24 := BitVec.ofNat 24 n.toNat

/-! ### The opcode map -/

/-- The command kinds `Decode` distinguishes (R78). -/
inductive Opcode where
  | dmaWrite | dmaRead | internalWrite | internalRead | terminate | repeatCmd
  | dmaExtWrite | dmaExtRead | singleWrite | singleRead | reset | unknown
  deriving DecidableEq, Repr

/-- `Decode(op)` of R78: total on the 256 values, comparing all 8 bits, reading no state. -/
def decodeOp (op : Byte) : Opcode :=
  if op = 0xC1 then .dmaWrite
  else if op = 0xC2 then .dmaRead
  else if op = 0xC3 then .internalWrite
  else if op = 0xC4 then .internalRead
  else if op = 0xC5 then .terminate
  else if op = 0xC6 then .repeatCmd
  else if op = 0xC7 then .dmaExtWrite
  else if op = 0xC8 then .dmaExtRead
  else if op = 0xC9 then .singleWrite
  else if op = 0xCA then .singleRead
  else if op = 0xCF then .reset
  else .unknown

/-- The frame formats of R51. -/
inductive FrameFormat where
  | A3 | A2 | A3D | A2D | A3S2 | A3S3 | Z | U
  deriving DecidableEq, Repr

/-- The frame format of a command kind (R56). -/
def Opcode.format : Opcode → FrameFormat
  | .dmaWrite => .A3S2
  | .dmaRead => .A3S2
  | .internalWrite => .A2D
  | .internalRead => .A2
  | .terminate => .U
  | .repeatCmd => .U
  | .dmaExtWrite => .A3S3
  | .dmaExtRead => .A3S3
  | .singleWrite => .A3D
  | .singleRead => .A3
  | .reset => .Z
  | .unknown => .U

/-- The commands whose response streams chunks (R57). -/
def Opcode.isStreamRead : Opcode → Bool
  | .dmaRead => true
  | .dmaExtRead => true
  | _ => false

/-- The commands that are followed by a payload (R50). -/
def Opcode.isStreamWrite : Opcode → Bool
  | .dmaWrite => true
  | .dmaExtWrite => true
  | _ => false

/-- The "total length" column of R51. -/
def FrameFormat.length (ctx : FrameContext) : FrameFormat → Nat
  | .A3 => 4 + ctx.crc.toNat
  | .A2 => 3 + ctx.crc.toNat
  | .A3D => 8 + ctx.crc.toNat
  | .A2D => 7 + ctx.crc.toNat
  | .A3S2 => 6 + ctx.crc.toNat
  | .A3S3 => 7 + ctx.crc.toNat
  | .Z => 1
  | .U => 1 + ctx.drain

/-- The byte is idle filler in `AwaitOpcode` (R61). -/
def isIdleFiller (ctx : FrameContext) (op : Byte) : Bool := ctx.skip && op == 0

/-- The length of the frame that starts with `op`, fixed before its second byte arrives (R62, R72). -/
def frameLength (ctx : FrameContext) (op : Byte) : Nat :=
  if isIdleFiller ctx op then 1 else (decodeOp op).format.length ctx

/-! ### Decoding -/

/-- Why a byte list is not a command frame. -/
inductive DecodeError where
  /-- There is no opcode byte. -/
  | noOpcode
  /-- The frame of this opcode has more bytes than the list. -/
  | truncatedFrame (op : Byte)
  deriving DecidableEq, Repr

/-- Takes the checksum byte, where the frame has one (R55), and finishes the command with it. -/
def takeCrc (ctx : FrameContext) (op : Byte) (make : Option Byte → Instr) (bs : List Byte) :
    Except DecodeError (Instr × List Byte) :=
  if ctx.crc then
    match bs with
    | crc :: rest => .ok (make (some crc), rest)
    | [] => .error (.truncatedFrame op)
  else .ok (make none, bs)

/-- Drains the dummy bytes of a format-U frame (R51, R143). -/
def takeDummies (ctx : FrameContext) (op : Byte) (i : Instr) (bs : List Byte) :
    Except DecodeError (Instr × List Byte) :=
  if ctx.drain ≤ bs.length then .ok (i, bs.drop ctx.drain) else .error (.truncatedFrame op)

/-- Reads one command frame off the front of a byte list: the command and the bytes after its frame. -/
def decode (ctx : FrameContext) : List Byte → Except DecodeError (Instr × List Byte)
  | [] => .error .noOpcode
  | op :: bs =>
    if isIdleFiller ctx op then .ok (.idleSkip, bs)
    else
      match decodeOp op with
      | .dmaWrite =>
        match bs with
        | a2 :: a1 :: a0 :: s1 :: s0 :: r => takeCrc ctx op (.dmaWrite (be3 a2 a1 a0) (be2 s1 s0)) r
        | _ => .error (.truncatedFrame op)
      | .dmaRead =>
        match bs with
        | a2 :: a1 :: a0 :: s1 :: s0 :: r => takeCrc ctx op (.dmaRead (be3 a2 a1 a0) (be2 s1 s0)) r
        | _ => .error (.truncatedFrame op)
      | .internalWrite =>
        match bs with
        | a1 :: a0 :: d0 :: d1 :: d2 :: d3 :: r =>
          takeCrc ctx op (.internalWrite (be2 a1 a0) (le32 d0 d1 d2 d3)) r
        | _ => .error (.truncatedFrame op)
      | .internalRead =>
        match bs with
        | a1 :: a0 :: r => takeCrc ctx op (.internalRead (be2 a1 a0)) r
        | _ => .error (.truncatedFrame op)
      | .terminate => takeDummies ctx op .terminate bs
      | .repeatCmd => takeDummies ctx op .repeatCmd bs
      | .dmaExtWrite =>
        match bs with
        | a2 :: a1 :: a0 :: s2 :: s1 :: s0 :: r =>
          takeCrc ctx op (.dmaExtWrite (be3 a2 a1 a0) (be3 s2 s1 s0)) r
        | _ => .error (.truncatedFrame op)
      | .dmaExtRead =>
        match bs with
        | a2 :: a1 :: a0 :: s2 :: s1 :: s0 :: r =>
          takeCrc ctx op (.dmaExtRead (be3 a2 a1 a0) (be3 s2 s1 s0)) r
        | _ => .error (.truncatedFrame op)
      | .singleWrite =>
        match bs with
        | a2 :: a1 :: a0 :: d0 :: d1 :: d2 :: d3 :: r =>
          takeCrc ctx op (.singleWrite (be3 a2 a1 a0) (le32 d0 d1 d2 d3)) r
        | _ => .error (.truncatedFrame op)
      | .singleRead =>
        match bs with
        | a2 :: a1 :: a0 :: r => takeCrc ctx op (.singleRead (be3 a2 a1 a0)) r
        | _ => .error (.truncatedFrame op)
      | .reset => .ok (.reset, bs)
      | .unknown => takeDummies ctx op (.unknown op) bs

/-! ### Encoding -/

/-- The opcode byte of a command (R56). -/
def Instr.opcode : Instr → Byte
  | .dmaWrite _ _ _ => 0xC1
  | .dmaRead _ _ _ => 0xC2
  | .internalWrite _ _ _ => 0xC3
  | .internalRead _ _ => 0xC4
  | .terminate => 0xC5
  | .repeatCmd => 0xC6
  | .dmaExtWrite _ _ _ => 0xC7
  | .dmaExtRead _ _ _ => 0xC8
  | .singleWrite _ _ _ => 0xC9
  | .singleRead _ _ => 0xCA
  | .reset => 0xCF
  | .idleSkip => 0x00
  | .unknown op => op

/-- The bytes of a frame a checksum covers: the opcode and the parameter bytes, in wire order (R89). For the
formats Z and U this is the opcode alone. -/
def Instr.body : Instr → List Byte
  | .dmaWrite a n _ => 0xC1 :: (bytesBe3 a ++ bytesBe2 n)
  | .dmaRead a n _ => 0xC2 :: (bytesBe3 a ++ bytesBe2 n)
  | .internalWrite a v _ => 0xC3 :: (bytesBe2 a ++ bytesLe32 v)
  | .internalRead a _ => 0xC4 :: bytesBe2 a
  | .terminate => [0xC5]
  | .repeatCmd => [0xC6]
  | .dmaExtWrite a n _ => 0xC7 :: (bytesBe3 a ++ bytesBe3 n)
  | .dmaExtRead a n _ => 0xC8 :: (bytesBe3 a ++ bytesBe3 n)
  | .singleWrite a v _ => 0xC9 :: (bytesBe3 a ++ bytesLe32 v)
  | .singleRead a _ => 0xCA :: bytesBe3 a
  | .reset => [0xCF]
  | .idleSkip => [0x00]
  | .unknown op => [op]

/-- The bytes the block keeps in `cmd_bytes`: opcode, parameters and received checksum, without the dummy
bytes of format U (R72). -/
def Instr.cmdBytes (i : Instr) : List Byte := i.body ++ i.crc.toList

/-- How many dummy bytes follow the kept bytes of the frame: `UNKNOWN_DRAIN` for format U, else none (R51). -/
def Instr.dummies (ctx : FrameContext) : Instr → Nat
  | .terminate => ctx.drain
  | .repeatCmd => ctx.drain
  | .unknown _ => ctx.drain
  | .dmaWrite _ _ _ => 0
  | .dmaRead _ _ _ => 0
  | .internalWrite _ _ _ => 0
  | .internalRead _ _ => 0
  | .dmaExtWrite _ _ _ => 0
  | .dmaExtRead _ _ _ => 0
  | .singleWrite _ _ _ => 0
  | .singleRead _ _ => 0
  | .reset => 0
  | .idleSkip => 0

/-- The command frame of an instruction as the master sends it (R51), dummy bytes written as 0x00. -/
def encode (ctx : FrameContext) (i : Instr) : List Byte := i.cmdBytes ++ zeros (i.dummies ctx)

/-! ### Words numbered as spec/opcode_table.json numbers them -/

/-- The `k` bytes of `w` from bit 0 up, in wire order: byte 0 of the frame is bits 7..0. -/
def tableBytes : Nat → Nat → List Byte
  | 0, _ => []
  | k + 1, w => BitVec.ofNat 8 w :: tableBytes k (w / 256)

/-- The frame that starts with the first `nbits / 8` bytes of `w` and goes on with zeros to its full length. -/
def tableFrame (ctx : FrameContext) (nbits w : Nat) : List Byte :=
  let n := frameLength ctx (BitVec.ofNat 8 w)
  let given := (tableBytes (nbits / 8) w).take n
  given ++ zeros (n - given.length)

/-- The context under which every row of spec/opcode_table.json has its word: checksums on (as at startup),
the reference drain count, and the idle row's own condition, `IDLE_ZERO_SKIP = true` (log 14). -/
def tableContext : FrameContext := { crc := true, drain := 4, skip := true }

/-- The command the decoder reads from a frame whose bits are `w`, numbered as spec/opcode_table.json numbers
them, every bit above `nbits` zero. -/
def decodeTableWord (nbits w : Nat) : Option Instr :=
  match decode tableContext (tableFrame tableContext nbits w) with
  | .ok (i, _) => some i
  | .error _ => none

end Sys2Proof
end

