-- ==== Sys2Proof/Machine/Flags.lean ====
section
/-! DEFINITION. The CRC Validator (`41_crc_validator.md`) and every flag computation of the block: the checksum
of a byte list, the check of a received frame (`cmd_crc_ok`, the goodness of a chunk), and the test that clears
`crc_enabled`. All of them are pure functions (R85, R87, R94). -/

namespace Sys2Proof.Machine

/-- One table look-up of R85: `CRC_TABLE[c xor b]`. -/
def crcUpdate (table : Vector Byte 256) (c b : Byte) : Byte :=
  table[(c ^^^ b).toNat]'((c ^^^ b).isLt)

/-- `Compute(seed, bytes)` (R85). -/
def compute (table : Vector Byte 256) (seed : Byte) (bytes : List Byte) : Byte :=
  bytes.foldl (crcUpdate table) seed

/-- The checksum as the block always calls it, with `CRC_TABLE` and `CRC_SEED` (R85). -/
def checksum (cfg : Config) (bytes : List Byte) : Byte := compute cfg.crcTable cfg.crcSeed bytes

/-- `Verify(frame)` (R87): the last byte is the checksum of the bytes before it. An empty list, for which R87
does not define it, has no checksum byte and does not verify. -/
def verify (cfg : Config) (frame : List Byte) : Bool :=
  match frame.getLast? with
  | some rx => checksum cfg frame.dropLast == rx
  | none => false

/-- `cmd_crc_ok` (R72, R89, R91): while checksums are off every command is good; the formats Z and U are never
verified; the `cmd_bytes` of a read/write command end with the received checksum byte. -/
def commandCrcOk (cfg : Config) (crcEnabled : Bool) (i : Instr) : Bool :=
  if crcEnabled && i.isReadWrite then verify cfg i.cmdBytes else true

/-- Whether a payload chunk is good: its data followed by its checksum byte verifies, or checksums are off
(R90 (c), R91, R125). -/
def chunkGood (cfg : Config) (crcEnabled : Bool) (dataAndChecksum : List Byte) : Bool :=
  if crcEnabled then verify cfg dataAndChecksum else true

/-- The checksum byte that follows a block of data the block sends, where there is one (R90, R91). -/
def dataChecksum (cfg : Config) (crcEnabled : Bool) (bytes : List Byte) : List Byte :=
  if crcEnabled then [checksum cfg bytes] else []

/-- `value[3:2] = 0`: the pattern that clears `crc_enabled` when written to the protocol-config register
(R19, R92). -/
def clearsCrcEnable (value : Word) : Bool := value.extractLsb' 2 2 == 0

end Sys2Proof.Machine
end

