-- ==== Sys2Proof/Machine/Memory.lean ====
section
/-! DEFINITION. The Memory Map as the block sees it (`20_memory.md`): five byte buffers, one for each region,
and the three primitives `Resolve`, `MemRead`, `MemWrite`. Addresses, offsets and sizes are natural numbers and
their sums are exact (R39). -/

namespace Sys2Proof.Machine

/-- The bytes of one region's buffer that are not 0x00, as (offset, byte) pairs, offsets strictly rising. An
offset that is not listed holds 0x00, the value startup gives every byte (R24, R46). -/
abbrev Buffer := List Host.Cell

/-- The canonical form: offsets strictly rising and no listed 0x00, so that equal buffers are equal lists. -/
abbrev Buffer.wf (b : Buffer) : Prop :=
  b.Pairwise (fun x y => x.1 < y.1) ∧ ∀ c ∈ b, c.2 ≠ 0

/-- The byte at an offset. -/
def Buffer.get : Buffer → Nat → Byte
  | [], _ => 0
  | (k, v) :: b, o => if k = o then v else Buffer.get b o

/-- Puts a byte at an offset, keeping the canonical form. -/
def Buffer.set : Buffer → Nat → Byte → Buffer
  | [], o, v => if v = 0 then [] else [(o, v)]
  | (k, w) :: b, o, v =>
    if o < k then (if v = 0 then (k, w) :: b else (o, v) :: (k, w) :: b)
    else if o = k then (if v = 0 then b else (o, v) :: b)
    else (k, w) :: Buffer.set b o v

/-- The `n` bytes from offset `o` up, lowest offset first. -/
def Buffer.slice (b : Buffer) (o : Nat) : Nat → List Byte
  | 0 => []
  | n + 1 => b.get o :: Buffer.slice b (o + 1) n

/-- Stores a byte list from offset `o` up, first byte lowest. -/
def Buffer.store (b : Buffer) (o : Nat) : List Byte → Buffer
  | [] => b
  | v :: vs => Buffer.store (b.set o v) (o + 1) vs

/-- The buffers of the five regions: distinct storage, also where the regions overlap (R31). -/
structure Memory where
  low : Buffer
  periph : Buffer
  spictl : Buffer
  bootrom : Buffer
  general : Buffer
  deriving DecidableEq, Repr

/-- Every byte of every buffer is 0x00: the Memory Map before `INIT_IMAGE` is applied (R24). -/
def Memory.zeroed : Memory := { low := [], periph := [], spictl := [], bootrom := [], general := [] }

/-- The buffer of a region. -/
def Memory.buffer (m : Memory) : Region → Buffer
  | .low => m.low
  | .periph => m.periph
  | .spictl => m.spictl
  | .bootrom => m.bootrom
  | .general => m.general

/-- Replaces the buffer of a region. -/
def Memory.setBuffer (m : Memory) (b : Buffer) : Region → Memory
  | .low => { m with low := b }
  | .periph => { m with periph := b }
  | .spictl => { m with spictl := b }
  | .bootrom => { m with bootrom := b }
  | .general => { m with general := b }

/-- All buffers are in canonical form. -/
abbrev Memory.wf (m : Memory) : Prop :=
  m.low.wf ∧ m.periph.wf ∧ m.spictl.wf ∧ m.bootrom.wf ∧ m.general.wf

/-- Every listed byte lies inside its buffer, which "has exactly `length` bytes" (R31). -/
abbrev Memory.fits (cfg : Config) (m : Memory) : Prop :=
  (∀ c ∈ m.low, c.1 < (cfg.span .low).length) ∧ (∀ c ∈ m.periph, c.1 < (cfg.span .periph).length) ∧
  (∀ c ∈ m.spictl, c.1 < (cfg.span .spictl).length) ∧
  (∀ c ∈ m.bootrom, c.1 < (cfg.span .bootrom).length) ∧
  (∀ c ∈ m.general, c.1 < (cfg.span .general).length)

/-! ### Resolution (R31, R32) -/

/-- The fixed priority order of the regions (R31). -/
def regionPriority : List Region := [.low, .periph, .spictl, .bootrom, .general]

/-- The result of `Resolve` (R32). -/
inductive Resolution where
  /-- Bytes `o` to `o + n - 1` of region `r`'s buffer. -/
  | range (r : Region) (o n : Nat)
  | outOfRange
  deriving DecidableEq, Repr

/-- The search of R32 over the regions not yet tried. -/
def resolveAmong (cfg : Config) (a n : Nat) : List Region → Resolution
  | [] => .outOfRange
  | r :: rs =>
    if (cfg.span r).base ≤ a ∧ a < (cfg.span r).base + (cfg.span r).length then
      if a + n ≤ (cfg.span r).base + (cfg.span r).length then .range r (a - (cfg.span r).base) n
      else .outOfRange
    else resolveAmong cfg a n rs

/-- `Resolve(a, n)` (R32): the first region that contains the start address must hold the whole range; there is
no fall-through to a later region. -/
def resolve (cfg : Config) (a n : Nat) : Resolution := resolveAmong cfg a n regionPriority

/-! ### Reading and writing (R33) -/

/-- `MemRead(a, n)` on the buffers: the bytes, or `none` for OutOfRange. -/
def Memory.read (cfg : Config) (m : Memory) (a n : Nat) : Option (List Byte) :=
  match resolve cfg a n with
  | .range r o n => some ((m.buffer r).slice o n)
  | .outOfRange => none

/-- `MemWrite(a, n, bytes)` on the buffers, `n` being the number of bytes: all of them are stored, or none and
the answer is `none` for OutOfRange. -/
def Memory.write (cfg : Config) (m : Memory) (a : Nat) (bytes : List Byte) : Option Memory :=
  match resolve cfg a bytes.length with
  | .range r o _ => some (m.setBuffer ((m.buffer r).store o bytes) r)
  | .outOfRange => none

/-- The byte an access of one byte at address `a` reads. -/
def Memory.byteAt (cfg : Config) (m : Memory) (a : Nat) : Option Byte :=
  (m.read cfg a 1).bind List.head?

/-- Startup's second act: each entry of `INIT_IMAGE` is stored (R24, R175). Entries of an admissible
configuration all resolve (R4 (d)). -/
def Memory.applyImage (cfg : Config) : List (Nat × List Byte) → Memory → Memory
  | [], m => m
  | (a, bytes) :: rest, m => Memory.applyImage cfg rest ((m.write cfg a bytes).getD m)

/-! ### Admissible configurations (R4) -/

/-- The six documented register addresses (R16, R4 (c)). -/
def documentedRegisters : List Nat := [0x000000, 0x00106C, 0x001070, 0x001084, 0x00108C, 0x00E824]

end Sys2Proof.Machine

namespace Sys2Proof

open Machine

/-- The configuration is admissible (R4, with the constraints of R3's table). -/
abbrev Config.Admissible (cfg : Config) : Prop :=
  cfg.statusErr ≠ 0 ∧
  1 ≤ cfg.maxChunk ∧
  (∀ r ∈ regionPriority, 1 ≤ (cfg.span r).length) ∧
  (∀ a ∈ documentedRegisters, resolve cfg a 4 ≠ .outOfRange) ∧
  (∀ e ∈ cfg.initImage, resolve cfg e.1 e.2.length ≠ .outOfRange) ∧
  cfg.subscribed.length ≤ cfg.callbackCap ∧
  cfg.subscribed.Nodup ∧
  1 ≤ cfg.notifyCap

end Sys2Proof
end

