-- ==== Sys2Proof/Machine/Reference.lean ====
section
/-! DEFINITION. The reference values of the parameters (`00_scope.md` rule R3, `41_crc_validator.md` rule R86,
`20_memory.md` rule R38). They are the spec's own choice, used by its vectors, and no claim about the
repository; the meanings never look at them, only at the configuration State carries. -/

namespace Sys2Proof.Machine

/-- One of the eight steps of R86's recipe for a table entry. -/
def crcTableStep (c : Byte) : Byte := if c.getLsbD 7 then (c <<< 1) ^^^ 0x12 else c <<< 1

/-- `CRC_TABLE[i]` of R86. -/
def crcTableEntry (i : Byte) : Byte :=
  crcTableStep (crcTableStep (crcTableStep (crcTableStep
    (crcTableStep (crcTableStep (crcTableStep (crcTableStep i)))))))

/-- The 256 entries of R86 in index order. -/
def referenceTable : Vector Byte 256 :=
  ⟨⟨(List.range 256).map fun i => crcTableEntry (BitVec.ofNat 8 i)⟩, by simp⟩

/-- The reference map of R38. -/
def referenceRegions : RegionTable where
  low := { base := 0x000000, length := 0x000100 }
  periph := { base := 0x001000, length := 0x001000 }
  spictl := { base := 0x00E800, length := 0x000100 }
  bootrom := { base := 0x0C0000, length := 0x001000 }
  general := { base := 0x000000, length := 0x100000 }

/-- The reference configuration of R3, with the `MAX_CHUNK` of Scenario D (log 1). -/
def referenceConfig : Config where
  crcTable := referenceTable
  crcSeed := 0xFE
  statusErr := 0xFF
  maxChunk := 4096
  unknownDrain := 4
  idleZeroSkip := false
  regions := referenceRegions
  initImage := []
  subscribed := [0x00106C]
  callbackCap := 8
  notifyCap := 16

end Sys2Proof.Machine
end

