-- ==== Sys2Proof/Machine/State.lean ====
section
/-! DEFINITION. The state of the block and of what it reads and writes at its edge (`10_state.md`), as plain
data; the reasons a step can stop; the state after startup. -/

namespace Sys2Proof.Machine

/-- The sequencing state (R11, R70). -/
inductive Phase where
  | awaitOpcode | readParams | execute | writeResponse
  deriving DecidableEq, Repr

/-- The error kinds of R150 as `Diag` reports them, with what R33, R143 and R154 say goes with each. -/
inductive ErrorKind where
  | outOfRange (addr len : Nat)
  | crcMismatch
  | unknownOpcode (op : Byte)
  | queueOverflow (addr : Addr)
  deriving DecidableEq, Repr

/-- The port events of R9. The number of bytes of a memory event is the length of its byte list. -/
inductive Event where
  /-- A `BusRead` that returned `b`; the response line is not driven in this byte time (R8). -/
  | rx (b : Byte)
  /-- A `BusWrite(b)`; the response line is driven with `b` in this byte time (R8). -/
  | tx (b : Byte)
  | memRd (addr : Nat) (bytes : List Byte)
  | memWr (addr : Nat) (bytes : List Byte)
  | notify (addr : Addr)
  | drop (addr : Addr)
  | diag (kind : ErrorKind)
  deriving DecidableEq, Repr

/-- One step of the environment agent, the main loop (R42). -/
inductive EnvStep where
  /-- Read bytes of the Memory Map. -/
  | read (addr len : Nat)
  /-- Write bytes of the Memory Map, one store. -/
  | write (addr : Nat) (bytes : List Byte)
  /-- Remove the head of `Q`. -/
  | popQueue
  deriving DecidableEq, Repr

/-- What the outside world does next. The list of these in State is the schedule of a run (log 2, log 3). -/
inductive Stimulus where
  /-- The master clocks one whole byte time and sends `b` in it (R8). -/
  | clock (b : Byte)
  /-- The environment agent steps (R42). -/
  | env (e : EnvStep)
  /-- Neither of them does anything: the block performs the internal work it has pending, if any. -/
  | turn
  deriving DecidableEq, Repr

/-- The working registers of R14, which exist inside a transaction only, and beside them the progress of the
transaction that R143, R104, R105, R124 and R125 keep in local values and loop counters (the last three
fields, the model's own). -/
structure Command where
  /-- `op`, the opcode byte. -/
  op : Byte
  /-- `addr`. -/
  addr : Addr
  /-- `size`. -/
  size : BitVec 24
  /-- `wdata`, as the word whose `bytesLe32` are the four data bytes in wire order (R54). -/
  wdata : Word
  /-- `cmd_bytes`. -/
  cmdBytes : List Byte
  /-- `cmd_crc_ok`. -/
  cmdCrcOk : Bool
  /-- `status`. -/
  status : Byte
  /-- `offset`. -/
  offset : Nat
  /-- `err_seen`. -/
  errSeen : Bool
  /-- How many dummy bytes of a format-U frame have been discarded (R143). -/
  drained : Nat
  /-- The bytes of the current payload chunk frame received so far (R125: `m`, `d`, `rx`). -/
  intake : List Byte
  /-- The response bytes composed and not yet sent. -/
  txQueue : List Byte
  deriving DecidableEq, Repr

/-- `remaining`, "always `size - offset`" (R14). -/
def Command.remaining (c : Command) : Nat := c.size.toNat - c.offset

/-- The registers just after `op <- b ; cmd_bytes <- {b}` (R70). What has not been written yet holds a
placeholder that no rule reads before it writes it (log 5). -/
def Command.start (b : Byte) : Command where
  op := b
  addr := 0
  size := 0
  wdata := 0
  cmdBytes := [b]
  cmdCrcOk := false
  status := 0
  offset := 0
  errSeen := false
  drained := 0
  intake := []
  txQueue := []

/-- The whole machine. `cfg` is the configuration (R3), `inbox` the outside world's schedule, `trace` the
observable trace so far, oldest first (R9); the rest is the state of R10. -/
structure State where
  cfg : Config
  phase : Phase
  crcEnabled : Bool
  resetPending : Bool
  cmd : Option Command
  respOe : Bool
  mem : Memory
  queue : List Addr
  inbox : List Stimulus
  trace : List Event
  deriving DecidableEq, Repr

/-- Why a step stops with a fault. None of these is reached from a state that a run reaches: they stand for the
fault that R14 and U13 ask of a model that would read a working register that holds no value. All are safe. -/
inductive Fault where
  /-- Raised by `step` alone: `phase` says a transaction is under way and the working registers hold no value
  (R14, U13). Safe: the machine stops. -/
  | noCommand
  /-- Raised by `step` alone: the working registers still hold a command while `phase` is `AwaitOpcode`, where
  they hold no value (R14). Safe. -/
  | staleCommand
  /-- Raised by `step` alone: the received bytes that the working registers hold are no frame of a command.
  Safe. -/
  | unreadableFrame (e : DecodeError)
  deriving DecidableEq, Repr

/-- Why a step gives no meaning. -/
inductive Refusal where
  /-- Raised by an arm of `exec` whose instruction has no meaning yet. Safe. -/
  | notModelled (mnemonic : String)
  /-- Raised by `step` alone: "A model refuses (gives no meaning to) an inadmissible configuration" (R4).
  Safe. -/
  | inadmissibleConfig
  deriving DecidableEq, Repr

/-- What a step or a meaning answers. -/
abbrev Answer := Host.Outcome State Fault Refusal

/-- The state at startup under a configuration (R24, R175). -/
def State.startup (cfg : Config) : State where
  cfg := cfg
  phase := .awaitOpcode
  crcEnabled := true
  resetPending := false
  cmd := none
  respOe := false
  mem := Memory.applyImage cfg cfg.initImage Memory.zeroed
  queue := []
  inbox := []
  trace := []

/-- The machine right after startup under the reference configuration (R3, R24). -/
def State.reset : State := State.startup referenceConfig

/-- What fixes the layout of the next frame (R62). -/
def State.frameContext (s : State) : FrameContext where
  crc := s.crcEnabled
  drain := s.cfg.unknownDrain
  skip := s.cfg.idleZeroSkip

end Sys2Proof.Machine
end

