-- ==== Sys2Proof/Machine/Operands.lean ====
section
/-! DEFINITION. The operands of a command as the working registers take them (`30_encoding.md` rules R52 to
R54, `40_protocol_fsm.md` rule R72), and how a transfer is cut into chunks (R59). -/

namespace Sys2Proof.Machine

/-- `addr` of a command: 24 bits, a 16-bit internal address zero-extended (R52). Commands without an address
leave the register unwritten. -/
def operandAddr : Instr → Addr
  | .dmaWrite a _ _ => a
  | .dmaRead a _ _ => a
  | .internalWrite a _ _ => zext24 a
  | .internalRead a _ => zext24 a
  | .terminate => 0
  | .repeatCmd => 0
  | .dmaExtWrite a _ _ => a
  | .dmaExtRead a _ _ => a
  | .singleWrite a _ _ => a
  | .singleRead a _ => a
  | .reset => 0
  | .idleSkip => 0
  | .unknown _ => 0

/-- `size` of a DMA command: a 16-bit size zero-extended to 24 bits (R53). -/
def operandSize : Instr → BitVec 24
  | .dmaWrite _ n _ => sizeOf16 n
  | .dmaRead _ n _ => sizeOf16 n
  | .internalWrite _ _ _ => 0
  | .internalRead _ _ => 0
  | .terminate => 0
  | .repeatCmd => 0
  | .dmaExtWrite _ n _ => n
  | .dmaExtRead _ n _ => n
  | .singleWrite _ _ _ => 0
  | .singleRead _ _ => 0
  | .reset => 0
  | .idleSkip => 0
  | .unknown _ => 0

/-- `wdata` of a word write (R54). -/
def operandData : Instr → Word
  | .dmaWrite _ _ _ => 0
  | .dmaRead _ _ _ => 0
  | .internalWrite _ v _ => v
  | .internalRead _ _ => 0
  | .terminate => 0
  | .repeatCmd => 0
  | .dmaExtWrite _ _ _ => 0
  | .dmaExtRead _ _ _ => 0
  | .singleWrite _ v _ => v
  | .singleRead _ _ => 0
  | .reset => 0
  | .idleSkip => 0
  | .unknown _ => 0

/-- The working registers at the end of ReadParams (R72): every register of the command is written here, so
nothing of an earlier transaction is left (R14). -/
def State.load (s : State) (i : Instr) : Command :=
  { Command.start i.opcode with
    addr := operandAddr i
    size := operandSize i
    wdata := operandData i
    cmdBytes := i.cmdBytes
    cmdCrcOk := commandCrcOk s.cfg s.crcEnabled i
    drained := i.dummies s.frameContext }

/-! ### Chunks (R59) -/

/-- `k = ceil(size / MAX_CHUNK)`. -/
def chunkCount (maxChunk size : Nat) : Nat := (size + maxChunk - 1) / maxChunk

/-- `n_i`: `MAX_CHUNK` for every chunk but the last, which has what is left. -/
def chunkLength (maxChunk size i : Nat) : Nat := min maxChunk (size - i * maxChunk)

/-- `marker(i, k)`: "last" wins over "first" (R59). -/
def chunkMarker (i k : Nat) : Byte :=
  if i + 1 = k then 0xF3 else if i = 0 then 0xF1 else 0xF2

/-- The index of the chunk that starts at the command's `offset`. -/
def Command.chunkIndex (cfg : Config) (c : Command) : Nat := c.offset / cfg.maxChunk

/-- The length of the chunk that starts at the command's `offset`: at most `MAX_CHUNK` of what remains. At the
start of chunk `i` this is the `n_i` of R59. -/
def Command.chunkLength (cfg : Config) (c : Command) : Nat := min cfg.maxChunk c.remaining

/-- The length of the payload chunk frame in progress: marker, data, checksum if `C = 1` (R65). -/
def Command.chunkFrameLength (cfg : Config) (crcEnabled : Bool) (c : Command) : Nat :=
  1 + c.chunkLength cfg + crcEnabled.toNat

/-- Chunks of a streaming read are still to be sent. -/
def Command.moreChunks (c : Command) : Bool :=
  (decodeOp c.op).isStreamRead && decide (c.offset < c.size.toNat)

end Sys2Proof.Machine
end

