-- ==== Sys2Proof/Machine/Ops.lean ====
section
/-! DEFINITION. The named operations the meanings share: the bus primitives (R8), the memory primitives (R33),
`raise` (R150, R157), the return to AwaitOpcode (R158), `Notify` (R160), the environment agent's step (R42), and
how a response is composed (R57). -/

namespace Sys2Proof.Machine

/-- `STATUS_OK` (R58). -/
def statusOk : Byte := 0x00

/-- The framing byte of a WORD response (R58). -/
def wordFraming : Byte := 0xF3

/-- The identity register (R17). -/
def identityAddr : Addr := 0x000000

/-- The state register (R18). -/
def stateAddr : Addr := 0x00108C

/-- The protocol-config register (R19). -/
def protocolConfigAddr : Addr := 0x00E824

/-- The chip-reset signature word (R18). -/
def resetSignature : Word := 0x02532636

/-! ### Port events -/

/-- Adds a port event to the observable trace (R9). -/
def State.emit (e : Event) (s : State) : State := { s with trace := s.trace ++ [e] }

/-- Sets the drive enable of the response line (R22). -/
def State.drive (on : Bool) (s : State) : State := { s with respOe := on }

/-- `BusRead()` in the byte time in which the master sends `b`: the line is not driven (R8). -/
def State.busRead (b : Byte) (s : State) : State := (s.drive false).emit (.rx b)

/-- `BusWrite(b)`: the line is driven for that byte and released after it (R8, R22). -/
def State.busWrite (b : Byte) (s : State) : State := ((s.drive true).emit (.tx b)).drive false

/-- `MemRead(a, n)` by the block (R33): the bytes and the state with the event, or `none` for OutOfRange. -/
def State.memRead (a n : Nat) (s : State) : Option (List Byte × State) :=
  (s.mem.read s.cfg a n).map fun d => (d, s.emit (.memRd a d))

/-- `MemWrite(a, n, bytes)` by the block (R33): all bytes stored, or `none` for OutOfRange. -/
def State.memWrite (a : Nat) (bytes : List Byte) (s : State) : Option State :=
  (s.mem.write s.cfg a bytes).map fun m => { s with mem := m }.emit (.memWr a bytes)

/-! ### Errors and the return from them -/

/-- `raise K`: there is no trap entry (R157), nothing is saved or masked and no control is transferred. The
error is recorded as `Diag(K)` (R150) and the rule that raised it goes on with its recovery branch. -/
def State.raise (k : ErrorKind) (s : State) : State := s.emit (.diag k)

/-- The end of every transaction and the return from every recovery branch (R75, R158): back to AwaitOpcode,
where the working registers hold no value (R14). -/
def State.finish (s : State) : State := { s with phase := .awaitOpcode, cmd := none }

/-! ### The two other agents -/

/-- `Notify(a)` (R160): queued at the tail, or dropped when `Q` is full (R154, drop-newest). -/
def State.notify (a : Addr) (s : State) : State :=
  if s.queue.length < s.cfg.notifyCap then { s with queue := s.queue ++ [a] }.emit (.notify a)
  else (s.emit (.drop a)).raise (.queueOverflow a)

/-- `Notify(a)` if `a` is a member of `SUBSCRIBED` (R160). -/
def State.notifyIfSubscribed (a : Addr) (s : State) : State :=
  if a.toNat ∈ s.cfg.subscribed then s.notify a else s

/-- One step of the environment agent (R42): it reaches the Memory Map and `Q` and nothing else. A store that
does not resolve changes nothing (R33). -/
def State.environment (s : State) : EnvStep → State
  | .read _ _ => s
  | .write a bytes => { s with mem := (s.mem.write s.cfg a bytes).getD s.mem }
  | .popQueue => { s with queue := s.queue.tail }

/-! ### Responses (R57) -/

/-- Composes a response that begins with the echoed opcode and the status byte, and goes to WriteResponse. -/
def State.respond (c : Command) (status : Byte) (rest : List Byte) (s : State) : State :=
  { s with
    phase := .writeResponse
    cmd := some { c with status := status, txQueue := c.op :: status :: rest } }

/-- Composes the all-zero response of `n` bytes that answers a read command with a bad checksum (R64, R152). -/
def State.respondZero (c : Command) (n : Nat) (s : State) : State :=
  { s with phase := .writeResponse, cmd := some { c with txQueue := zeros n } }

end Sys2Proof.Machine
end

