-- ==== Sys2Proof/Machine/Stream.lean ====
section
/-! DEFINITION. What a streaming transfer does for one chunk (`43_dma.md` rules R124, R125): a chunk of a DMA
read is read from memory just before its marker is sent, a chunk of a DMA write is stored just after its last
byte has been received (R41). -/

namespace Sys2Proof.Machine

/-- The data of the read chunk at `offset`, one atomic read, or zeros when the whole range did not resolve
(R124). "The range is resolved once, as a whole", and "every chunk lies in the same region": the chunk comes from
the region in which the whole range resolved (DEDUCED, log 15). -/
def State.readChunk (c : Command) (s : State) : List Byte × State :=
  match resolve s.cfg c.addr.toNat c.size.toNat with
  | .range r o _ =>
    let d := (s.mem.buffer r).slice (o + c.offset) (c.chunkLength s.cfg)
    (d, s.emit (.memRd (c.addr.toNat + c.offset) d))
  | .outOfRange => (zeros (c.chunkLength s.cfg), s)

/-- Composes the next chunk frame of a STREAM response: marker, data, checksum if `C = 1` (R57, R124). -/
def State.sendChunk (c : Command) (s : State) : State :=
  let (d, s') := s.readChunk c
  { s' with
    cmd := some { c with
      offset := c.offset + c.chunkLength s.cfg
      txQueue :=
        chunkMarker (c.chunkIndex s.cfg) (chunkCount s.cfg.maxChunk c.size.toNat) ::
          (d ++ dataChecksum s.cfg s.crcEnabled d) } }

/-- Stores or discards a received chunk, in R125's order of tests: a bad command checksum, then a bad chunk
checksum, then the range. The Boolean is the new `err_seen`. -/
def State.storeChunk (c : Command) (d : List Byte) (good : Bool) (s : State) : Bool × State :=
  if c.cmdCrcOk then
    if good then
      match s.memWrite (c.addr.toNat + c.offset) d with
      | some s' => (c.errSeen, s')
      | none => (true, s.raise (.outOfRange (c.addr.toNat + c.offset) d.length))
    else (c.errSeen, s.raise .crcMismatch)
  else (c.errSeen, s)

/-- The end of a payload chunk frame: the chunk is stored or discarded, and after the last chunk the ACK is
composed (R125). The marker, the first byte of the frame, is ignored (R65). -/
def State.takeChunk (c : Command) (s : State) : State :=
  let n := c.chunkLength s.cfg
  let dataAndChecksum := c.intake.drop 1
  let (err, s') := s.storeChunk c (dataAndChecksum.take n) (chunkGood s.cfg s.crcEnabled dataAndChecksum)
  let c' := { c with offset := c.offset + n, errSeen := err, intake := [] }
  if c'.offset < c.size.toNat then { s' with cmd := some c' }
  else s'.respond c' (if err then s.cfg.statusErr else statusOk) []

end Sys2Proof.Machine
end

