-- ==== Sys2Proof/Machine/Transaction.lean ====
section
/-! DEFINITION. How a transaction goes on after its command has been received: the work the block does between
two byte times, what one byte time does, and the run of a transaction against the schedule in the inbox
(`40_protocol_fsm.md` rules R70, R73, R74, R76, R77). -/

namespace Sys2Proof.Machine

/-- The internal work pending between two byte times (R77), if any: the end of a received payload chunk, or the
next chunk of a STREAM response. -/
def State.work (s : State) : State :=
  match s.cmd with
  | none => s
  | some c =>
    match s.phase with
    | .awaitOpcode => s
    | .readParams => s
    | .execute => if c.intake.length = c.chunkFrameLength s.cfg s.crcEnabled then s.takeChunk c else s
    | .writeResponse => if c.txQueue.isEmpty && c.moreChunks then s.sendChunk c else s

/-- One byte time in which the master sends `b`, after the command frame: a payload byte is read (R125), or a
response byte is sent and `b` discarded (R8, R74). After the last response byte the transaction is over. -/
def State.byteTime (b : Byte) (s : State) : State :=
  match s.cmd with
  | none => s
  | some c =>
    match s.phase with
    | .awaitOpcode => s
    | .readParams => s
    | .execute => { s.busRead b with cmd := some { c with intake := c.intake ++ [b] } }
    | .writeResponse =>
      match c.txQueue with
      | [] => s
      | r :: q =>
        if q.isEmpty && !c.moreChunks then (s.busWrite r).finish
        else { s.busWrite r with cmd := some { c with txQueue := q } }

/-- What the transaction in progress makes of one entry of the schedule. The work that is pending when a byte
time comes is done before it: the block is ready in its bus primitive (R8, R189). -/
def State.respondTo (s : State) : Stimulus → State
  | .clock b => s.work.byteTime b
  | .env e => s.environment e
  | .turn => s.work

/-- Runs the transaction in progress against the schedule, to its end or as far as the schedule reaches; in the
second case the block does its pending work and waits in a bus primitive (R76). The entries after the end of the
transaction stay in the inbox. -/
def converse : List Stimulus → State → State
  | [], s => { s.work with inbox := [] }
  | st :: rest, s =>
    if s.phase = .awaitOpcode then { s with inbox := st :: rest } else converse rest (s.respondTo st)

/-- A command from its Execute phase on: the registers hold its operands, its Execute part is performed, and the
rest of the transaction runs against the inbox. -/
def transact (i : Instr) (executePart : Command → State → State) (s : State) : Answer :=
  .next (converse s.inbox
    (executePart (s.load i) { s with phase := .execute, cmd := some (s.load i) }))

end Sys2Proof.Machine
end

