-- ==== Sys2Proof/Machine/Control.lean ====
section
/-! DEFINITION. The control commands, the idle byte and every opcode the block does not know
(`44_control.md`, `30_encoding.md` rule R61). -/

namespace Sys2Proof.Machine

/-- The Execute part of Reset (R140): the status, and no other change of any state. -/
def resetAck (c : Command) (s : State) : State := s.respond c statusOk []

/-- The Execute part of the Unknown rule (R143), after the dummy bytes have been discarded. -/
def unknownAck (c : Command) (s : State) : State :=
  (s.raise (.unknownOpcode c.op)).respond c s.cfg.statusErr []

/-- Reset, 0xCF (R140). -/
def execReset (s : State) : Answer := transact .reset resetAck s

/-- Terminate, 0xC5: "exactly the Unknown behaviour of rule R143" (R141). -/
def execTerminate (s : State) : Answer := transact .terminate unknownAck s

/-- Repeat, 0xC6: "exactly the Unknown behaviour of rule R143" (R142). -/
def execRepeat (s : State) : Answer := transact .repeatCmd unknownAck s

/-- Unknown (R143). -/
def execUnknown (op : Byte) (s : State) : Answer := transact (.unknown op) unknownAck s

/-- The idle byte (R61): it has been consumed, nothing is sent, and the block stays in AwaitOpcode. -/
def execIdleSkip (s : State) : Answer := .next s.finish

end Sys2Proof.Machine
end

