-- ==== Sys2Proof/Machine/Dma.lean ====
section
/-! DEFINITION. The DMA commands (`43_dma.md`): the Execute part of the two shared procedures and the four
meanings. What the procedures do for one chunk is in Machine/Stream.lean. -/

namespace Sys2Proof.Machine

/-- The Execute part of `StreamRead` (R124): the whole range is resolved once, and that decides the status
byte. The response to a bad command checksum is all zeros and of the normal length; no chunk is left to send
after it. -/
def streamRead (c : Command) (s : State) : State :=
  if c.cmdCrcOk then
    match resolve s.cfg c.addr.toNat c.size.toNat with
    | .range _ _ _ => s.respond { c with offset := 0 } statusOk []
    | .outOfRange =>
      (s.raise (.outOfRange c.addr.toNat c.size.toNat)).respond { c with offset := 0 } s.cfg.statusErr []
  else
    (s.raise .crcMismatch).respondZero { c with offset := c.size.toNat }
      (2 + c.size.toNat + chunkCount s.cfg.maxChunk c.size.toNat * (1 + s.crcEnabled.toNat))

/-- The start of `StreamWrite` (R125): the payload intake begins, or, for a transfer with no chunk (R126), the
ACK is composed at once. -/
def streamWrite (c : Command) (s : State) : State :=
  let s' := if c.cmdCrcOk then s else s.raise .crcMismatch
  let c' := { c with errSeen := false, offset := 0, intake := [] }
  if c.size.toNat = 0 then s'.respond c' statusOk [] else { s' with cmd := some c' }

/-- DmaRead, 0xC2 (R120). -/
def execDmaRead (addr : Addr) (size : BitVec 16) (crc : Option Byte) (s : State) : Answer :=
  transact (.dmaRead addr size crc) streamRead s

/-- DmaExtRead, 0xC8 (R121). -/
def execDmaExtRead (addr : Addr) (size : BitVec 24) (crc : Option Byte) (s : State) : Answer :=
  transact (.dmaExtRead addr size crc) streamRead s

/-- DmaWrite, 0xC1 (R122). -/
def execDmaWrite (addr : Addr) (size : BitVec 16) (crc : Option Byte) (s : State) : Answer :=
  transact (.dmaWrite addr size crc) streamWrite s

/-- DmaExtWrite, 0xC7 (R123). -/
def execDmaExtWrite (addr : Addr) (size : BitVec 24) (crc : Option Byte) (s : State) : Answer :=
  transact (.dmaExtWrite addr size crc) streamWrite s

end Sys2Proof.Machine
end

