-- ==== Sys2Proof/Machine/WordAccess.lean ====
section
/-! DEFINITION. The word access commands (`42_word_access.md`): the two shared procedures and the four
meanings. -/

namespace Sys2Proof.Machine

/-- Composes a WORD response for data `d` (R57, R104). -/
def State.respondWord (c : Command) (status : Byte) (d : List Byte) (s : State) : State :=
  s.respond c status (wordFraming :: (d ++ dataChecksum s.cfg s.crcEnabled d))

/-- The Execute part of `WordRead` (R104), with the state-register override (R107). -/
def wordRead (c : Command) (s : State) : State :=
  if c.cmdCrcOk then
    if s.resetPending && c.addr == stateAddr then
      { s with resetPending := false }.respondWord c statusOk (bytesLe32 resetSignature)
    else
      match s.memRead c.addr.toNat 4 with
      | some (d, s') => s'.respondWord c statusOk d
      | none => (s.raise (.outOfRange c.addr.toNat 4)).respondWord c s.cfg.statusErr (zeros 4)
  else (s.raise .crcMismatch).respondZero c (7 + s.crcEnabled.toNat)

/-- The state changes that follow the store of a word write: clearing `crc_enabled` (R92), then `Notify`
(R105). -/
def afterWordStore (c : Command) (s : State) : State :=
  State.notifyIfSubscribed c.addr
    (if c.addr == protocolConfigAddr && clearsCrcEnable c.wdata then { s with crcEnabled := false } else s)

/-- The Execute part of `WordWrite` (R105), with the identity-register intercept (R106). -/
def wordWrite (c : Command) (s : State) : State :=
  if c.cmdCrcOk then
    if c.addr == identityAddr then { s with resetPending := true }.respond c statusOk []
    else
      match s.memWrite c.addr.toNat (bytesLe32 c.wdata) with
      | some s' => (afterWordStore c s').respond c statusOk []
      | none => (s.raise (.outOfRange c.addr.toNat 4)).respond c s.cfg.statusErr []
  else (s.raise .crcMismatch).respond c statusOk []

/-- SingleRead, 0xCA (R100). -/
def execSingleRead (addr : Addr) (crc : Option Byte) (s : State) : Answer :=
  transact (.singleRead addr crc) wordRead s

/-- InternalRead, 0xC4 (R101). -/
def execInternalRead (addr : InternalAddr) (crc : Option Byte) (s : State) : Answer :=
  transact (.internalRead addr crc) wordRead s

/-- SingleWrite, 0xC9 (R102). -/
def execSingleWrite (addr : Addr) (value : Word) (crc : Option Byte) (s : State) : Answer :=
  transact (.singleWrite addr value crc) wordWrite s

/-- InternalWrite, 0xC3 (R103). -/
def execInternalWrite (addr : InternalAddr) (value : Word) (crc : Option Byte) (s : State) : Answer :=
  transact (.internalWrite addr value crc) wordWrite s

end Sys2Proof.Machine
end

