-- ==== Sys2Proof/Machine/Dispatch.lean ====
section
/-! DEFINITION. The one dispatch from a command to its meaning. -/

namespace Sys2Proof.Machine

def exec (i : Instr) (s : State) : Host.Outcome State Fault Refusal :=
  match i with
  | .dmaWrite addr size crc => Sys2Proof.Machine.execDmaWrite addr size crc s
  | .dmaRead addr size crc => Sys2Proof.Machine.execDmaRead addr size crc s
  | .internalWrite addr value crc => Sys2Proof.Machine.execInternalWrite addr value crc s
  | .internalRead addr crc => Sys2Proof.Machine.execInternalRead addr crc s
  | .terminate => Sys2Proof.Machine.execTerminate s
  | .repeatCmd => Sys2Proof.Machine.execRepeat s
  | .dmaExtWrite addr size crc => Sys2Proof.Machine.execDmaExtWrite addr size crc s
  | .dmaExtRead addr size crc => Sys2Proof.Machine.execDmaExtRead addr size crc s
  | .singleWrite addr value crc => Sys2Proof.Machine.execSingleWrite addr value crc s
  | .singleRead addr crc => Sys2Proof.Machine.execSingleRead addr crc s
  | .reset => Sys2Proof.Machine.execReset s
  | .idleSkip => Sys2Proof.Machine.execIdleSkip s
  | .unknown op => Sys2Proof.Machine.execUnknown op s

end Sys2Proof.Machine
end

