-- ==== Sys2Proof/Machine/Fetch.lean ====
section
/-! DEFINITION. How the block takes a command frame off the bus, one byte time after another
(`40_protocol_fsm.md` rules R70 to R72), and how long a whole transaction is on the wire (R62). -/

namespace Sys2Proof.Machine

/-- The opcode byte (R70, R71): `op <- b ; cmd_bytes <- {b}`, and on to ReadParams; an idle filler byte leaves
the block in AwaitOpcode (R61). -/
def State.receiveOpcode (b : Byte) (s : State) : State :=
  { s.busRead b with
    phase := if isIdleFiller s.frameContext b then .awaitOpcode else .readParams
    cmd := some (Command.start b) }

/-- A further byte of the command frame (R72): appended to `cmd_bytes`, or discarded if it is a dummy byte of
format U. -/
def State.receiveParam (c : Command) (b : Byte) (s : State) : State :=
  { s.busRead b with
    cmd := some (if (decodeOp c.op).format = .U then { c with drained := c.drained + 1 }
      else { c with cmdBytes := c.cmdBytes ++ [b] }) }

/-- Every byte of the command frame has been received (R62, R72). -/
def State.frameComplete (s : State) : Bool :=
  match s.cmd with
  | none => false
  | some c => c.cmdBytes.length + c.drained == frameLength s.frameContext c.op

/-- What AwaitOpcode and ReadParams make of one entry of the schedule. -/
def State.receive (s : State) : Stimulus → State
  | .clock b =>
    match s.cmd with
    | none => s.receiveOpcode b
    | some c => s.receiveParam c b
  | .env e => s.environment e
  | .turn => s

/-- Receives a command frame, to its last byte or as far as the schedule reaches. -/
def fetch : List Stimulus → State → State
  | [], s => { s with inbox := [] }
  | st :: rest, s =>
    if s.frameComplete then { s with inbox := st :: rest } else fetch rest (s.receive st)

/-- The environment steps that fall between the last byte of the command frame and the Execute part; a `turn`
ends them (R42). -/
def settleEnvironment : List Stimulus → State → State
  | [], s => { s with inbox := [] }
  | .clock b :: rest, s => { s with inbox := .clock b :: rest }
  | .turn :: rest, s => { s with inbox := rest }
  | .env e :: rest, s => settleEnvironment rest (s.environment e)

/-- The received bytes as a command frame; the discarded dummy bytes stand as 0x00, since no rule reads their
values (R60). -/
def Command.frame (c : Command) : List Byte := c.cmdBytes ++ zeros c.drained

/-! ### Lengths (R57, R62, R65) -/

/-- Payload bytes the master sends between the command frame and the response (R65). -/
def payloadLength (cfg : Config) (crcEnabled : Bool) : Instr → Nat
  | .dmaWrite _ n _ => n.toNat + chunkCount cfg.maxChunk n.toNat * (1 + crcEnabled.toNat)
  | .dmaExtWrite _ n _ => n.toNat + chunkCount cfg.maxChunk n.toNat * (1 + crcEnabled.toNat)
  | .dmaRead _ _ _ => 0
  | .internalWrite _ _ _ => 0
  | .internalRead _ _ => 0
  | .terminate => 0
  | .repeatCmd => 0
  | .dmaExtRead _ _ _ => 0
  | .singleWrite _ _ _ => 0
  | .singleRead _ _ => 0
  | .reset => 0
  | .idleSkip => 0
  | .unknown _ => 0

/-- Response bytes the block sends (R57). -/
def responseLength (cfg : Config) (crcEnabled : Bool) : Instr → Nat
  | .singleRead _ _ => 7 + crcEnabled.toNat
  | .internalRead _ _ => 7 + crcEnabled.toNat
  | .dmaRead _ n _ => 2 + n.toNat + chunkCount cfg.maxChunk n.toNat * (1 + crcEnabled.toNat)
  | .dmaExtRead _ n _ => 2 + n.toNat + chunkCount cfg.maxChunk n.toNat * (1 + crcEnabled.toNat)
  | .singleWrite _ _ _ => 2
  | .internalWrite _ _ _ => 2
  | .dmaWrite _ _ _ => 2
  | .dmaExtWrite _ _ _ => 2
  | .reset => 2
  | .terminate => 2
  | .repeatCmd => 2
  | .unknown _ => 2
  | .idleSkip => 0

/-- The byte times of a transaction after its command frame. -/
def conversationLength (cfg : Config) (crcEnabled : Bool) (i : Instr) : Nat :=
  payloadLength cfg crcEnabled i + responseLength cfg crcEnabled i

/-- The inbox that holds the frame `bytes` and then as many byte times, the master sending 0x00, as the
transaction of that frame takes. -/
def transactionInbox (cfg : Config) (ctx : FrameContext) (bytes : List Byte) : List Stimulus :=
  match decode ctx bytes with
  | .ok (i, _) => (bytes ++ zeros (conversationLength cfg ctx.crc i)).map .clock
  | .error _ => bytes.map .clock

end Sys2Proof.Machine
end

