-- ==== Sys2Proof/Machine/Step.lean ====
section
/-! DEFINITION. One step of the machine: one transaction, from the opcode byte to the last response byte, or
one idle filler byte (`40_protocol_fsm.md` rule R70). The step goes as far as the schedule in the inbox reaches;
a transaction it leaves unfinished is taken up by a later step (R76, log 2). -/

namespace Sys2Proof.Machine

/-- Runs the command whose frame the working registers hold. -/
def runFrame (s : State) : Answer :=
  match s.cmd with
  | none => .fault .noCommand
  | some c =>
    match decode s.frameContext c.frame with
    | .ok (i, _) => exec i s
    | .error e => .fault (.unreadableFrame e)

/-- AwaitOpcode and ReadParams: receives the rest of the frame, and runs the command once it is complete. -/
def fetchAndRun (s : State) : Answer :=
  let s' := fetch s.inbox s
  if s'.frameComplete then runFrame (settleEnvironment s'.inbox s') else .next s'

/-- One step. -/
def step (s : State) : Host.Outcome State Fault Refusal :=
  if s.cfg.Admissible then
    match s.phase, s.cmd with
    | .awaitOpcode, none => fetchAndRun s
    | .awaitOpcode, some _ => .fault .staleCommand
    | .readParams, some _ => fetchAndRun s
    | .execute, some _ => .next (converse s.inbox s)
    | .writeResponse, some _ => .next (converse s.inbox s)
    | .readParams, none => .fault .noCommand
    | .execute, none => .fault .noCommand
    | .writeResponse, none => .fault .noCommand
  else .refused .inadmissibleConfig

/-- The state with the frame numbered as spec/opcode_table.json numbers its bits, every bit above `nbits` zero,
standing on the bus as the very next thing the master clocks, followed by the byte times its payload and its
response take (log 14). The block is in AwaitOpcode, where it takes a frame; the byte 0x00 is the idle row's word
only where `IDLE_ZERO_SKIP` holds, so for that byte, and no other, the parameter is set. -/
def State.withFetchWord (s : State) (nbits w : Nat) : State :=
  let cfg := { s.cfg with idleZeroSkip := s.cfg.idleZeroSkip || BitVec.ofNat 8 w == 0 }
  let ctx := { s.frameContext with skip := cfg.idleZeroSkip }
  { s with
    cfg := cfg
    phase := .awaitOpcode
    cmd := none
    inbox := transactionInbox cfg ctx (tableFrame ctx nbits w) ++ s.inbox }

end Sys2Proof.Machine
end

