-- ==== Sys2Proof/Safety.lean ====
section
/-! DEFINITION. What counts as a coherent state and a safe run, in the terms the claims use. -/

namespace Sys2Proof.Machine

/-- The working registers fit the phase. In AwaitOpcode they hold no value (R14). In ReadParams the frame is
not complete and its first byte is `op` (R72). Execute is held between two byte times by the payload intake of a
DMA write only (R73). In WriteResponse there is still something to send (R74). -/
def State.cmdFits (s : State) : Bool :=
  match s.phase, s.cmd with
  | .awaitOpcode, none => true
  | .readParams, some c =>
    c.cmdBytes.head? == some c.op && !isIdleFiller s.frameContext c.op &&
      decide (c.cmdBytes.length + c.drained < frameLength s.frameContext c.op) &&
      (if (decodeOp c.op).format = .U then c.cmdBytes.length == 1 else c.drained == 0)
  | .execute, some c =>
    (decodeOp c.op).isStreamWrite && decide (c.offset < c.size.toNat) &&
      decide (c.intake.length ≤ c.chunkFrameLength s.cfg s.crcEnabled)
  | .writeResponse, some c => !c.txQueue.isEmpty || c.moreChunks
  | _, _ => false

/-- The invariant of every run: the Memory Map is in canonical form and inside its regions, the notifier queue
respects its capacity (R21), the response line is not driven between two byte times (R22), and the working
registers fit the phase. -/
abbrev State.Inv (s : State) : Prop :=
  s.mem.wf ∧ s.mem.fits s.cfg ∧ s.queue.length ≤ s.cfg.notifyCap ∧ s.respOe = false ∧ s.cmdFits = true

/-- The machine goes on from `s` (R75, R158: no condition halts the transport loop). -/
def State.goesOn (s : State) : Prop := ∃ t, step s = .next t

/-- The schedule holds no step of the environment agent. -/
def undisturbed (l : List Stimulus) : Prop := ∀ st ∈ l, ∀ e, st ≠ .env e

/-- How many byte times the schedule holds. -/
def byteTimes (l : List Stimulus) : Nat := l.countP fun | .clock _ => true | _ => false

end Sys2Proof.Machine
end

