-- ==== Sys2Proof/Certificates/Slice0/Obligations.lean ====
section
/-! DEFINITION. The statements for the provers. "R<n>" are the numbered rules of spec/, "log n" the rows of
notes/assumptions. The words the statements share come first. -/

namespace Sys2Proof.Claims

open Sys2Proof.Machine

/-! ### The instructions of one shape -/

/-- `i` is a word read (SingleRead or InternalRead) of decoded address `a`. -/
def WordReadOf (a : Addr) (i : Instr) : Prop :=
  (∃ crc, i = .singleRead a crc) ∨ ∃ b crc, i = .internalRead b crc ∧ a = zext24 b

/-- `i` is a word write (SingleWrite or InternalWrite) of value `v` to decoded address `a`. -/
def WordWriteOf (a : Addr) (v : Word) (i : Instr) : Prop :=
  (∃ crc, i = .singleWrite a v crc) ∨ ∃ b crc, i = .internalWrite b v crc ∧ a = zext24 b

/-- `i` is a DMA read (DmaRead or DmaExtRead) of `n` bytes at address `a`. -/
def DmaReadOf (a : Addr) (n : Nat) (i : Instr) : Prop :=
  (∃ size crc, i = .dmaRead a size crc ∧ size.toNat = n) ∨
    ∃ size crc, i = .dmaExtRead a size crc ∧ size.toNat = n

/-- `i` is a DMA write (DmaWrite or DmaExtWrite) of `n` bytes at address `a`. -/
def DmaWriteOf (a : Addr) (n : Nat) (i : Instr) : Prop :=
  (∃ size crc, i = .dmaWrite a size crc ∧ size.toNat = n) ∨
    ∃ size crc, i = .dmaExtWrite a size crc ∧ size.toNat = n

/-- `i` is a command that reads memory. -/
def MemoryRead (i : Instr) : Prop := (∃ a, WordReadOf a i) ∨ ∃ a n, DmaReadOf a n i

/-- `i` is Reset, Terminate, Repeat, an unknown opcode or the idle byte. -/
def Control (i : Instr) : Prop :=
  i = .reset ∨ i = .terminate ∨ i = .repeatCmd ∨ i = .idleSkip ∨ ∃ op, i = .unknown op

/-- The command's own checksum is good, or checksums are off: `cmd_crc_ok = 1` (R72, R89, R91). -/
def CommandGood (s : State) (i : Instr) : Prop := commandCrcOk s.cfg s.crcEnabled i = true

/-- The Execute part of each command (R73); the idle byte has none. -/
def executionOf : Instr → Command → State → State
  | .singleRead _ _ => wordRead
  | .internalRead _ _ => wordRead
  | .singleWrite _ _ _ => wordWrite
  | .internalWrite _ _ _ => wordWrite
  | .dmaRead _ _ _ => streamRead
  | .dmaExtRead _ _ _ => streamRead
  | .dmaWrite _ _ _ => streamWrite
  | .dmaExtWrite _ _ _ => streamWrite
  | .reset => resetAck
  | .terminate => unknownAck
  | .repeatCmd => unknownAck
  | .unknown _ => unknownAck
  | .idleSkip => fun _ s => s

/-! ### A transaction that runs to its end -/

/-- Byte times in which the master sends `bytes`. -/
def clocks (bytes : List Byte) : List Stimulus := bytes.map .clock

/-- Response bytes as trace events. -/
def sends (bytes : List Byte) : List Event := bytes.map .tx

/-- Received bytes as trace events. -/
def receives (bytes : List Byte) : List Event := bytes.map .rx

/-- `s` at the end of a transaction: back in AwaitOpcode with no command held, the line released, `rest` still
to come in the inbox, and the port events `evs` added to the trace. Nothing else differs from `s`. -/
def after (s : State) (rest : List Stimulus) (evs : List Event) : State :=
  { s with
    phase := .awaitOpcode, cmd := none, respOe := false, inbox := rest, trace := s.trace ++ evs }

/-- The checksum byte after a block of data, where checksums are on (R90, R91). -/
def checksumOf (s : State) (d : List Byte) : List Byte := if s.crcEnabled then [checksum s.cfg d] else []

/-- The bytes of a WORD response (R57). -/
def wordResponse (s : State) (op status : Byte) (d : List Byte) : List Byte :=
  [op, status, 0xF3] ++ d ++ checksumOf s d

/-- Bits 3 and 2 of the value are both 0 (R19). -/
def Bits32Clear (v : Word) : Prop := v.getLsbD 3 = false ∧ v.getLsbD 2 = false

/-- What `Notify` does to the queue (R160). -/
def queueAfterNotify (s : State) (a : Addr) : List Addr :=
  if a.toNat ∈ s.cfg.subscribed ∧ s.queue.length < s.cfg.notifyCap then s.queue ++ [a] else s.queue

/-- The events of `Notify` (R160, R154). -/
def notifyEvents (s : State) (a : Addr) : List Event :=
  if a.toNat ∈ s.cfg.subscribed then
    if s.queue.length < s.cfg.notifyCap then [.notify a] else [.drop a, .diag (.queueOverflow a)]
  else []

/-! ### Chunks -/

/-- Chunk `i` of a byte list (R59). -/
def chunkOf (maxChunk : Nat) (data : List Byte) (i : Nat) : List Byte := (data.drop (i * maxChunk)).take maxChunk

/-- The chunk frames of a STREAM response (R57, R124): for each chunk its `MemRd` event, where memory is read,
then marker, data and checksum. -/
def streamEvents (s : State) (a : Nat) (data : List Byte) (reads : Bool) : List Event :=
  (List.range (chunkCount s.cfg.maxChunk data.length)).flatMap fun i =>
    (if reads then [Event.memRd (a + i * s.cfg.maxChunk) (chunkOf s.cfg.maxChunk data i)] else []) ++
      sends (chunkMarker i (chunkCount s.cfg.maxChunk data.length) ::
        (chunkOf s.cfg.maxChunk data i ++ checksumOf s (chunkOf s.cfg.maxChunk data i)))

/-- The payload of a DMA write whose chunks carry `data`, markers `marker i`, and the right checksums (R65). -/
def payloadOf (s : State) (marker : Nat → Byte) (data : List Byte) : List Byte :=
  (List.range (chunkCount s.cfg.maxChunk data.length)).flatMap fun i =>
    marker i :: (chunkOf s.cfg.maxChunk data i ++ checksumOf s (chunkOf s.cfg.maxChunk data i))

/-- Chunk frame `i` of a payload of `size` data bytes (R65): every frame before the last is of full length. -/
def frameOf (s : State) (size : Nat) (payload : List Byte) (i : Nat) : List Byte :=
  (payload.drop (i * (1 + s.cfg.maxChunk + s.crcEnabled.toNat))).take
    (1 + chunkLength s.cfg.maxChunk size i + s.crcEnabled.toNat)

/-- One pass of the loop of R125 over (memory, `err_seen`, events): chunk `i` is received, and then ignored,
stored or discarded. -/
def receiveChunk (s : State) (good : Bool) (a size : Nat) (payload : List Byte)
    (acc : Memory × Bool × List Event) (i : Nat) : Memory × Bool × List Event :=
  let frame := frameOf s size payload i
  let d := (frame.drop 1).take (chunkLength s.cfg.maxChunk size i)
  let evs := acc.2.2 ++ receives frame
  if good then
    if s.crcEnabled && !verify s.cfg (frame.drop 1) then (acc.1, acc.2.1, evs ++ [.diag .crcMismatch])
    else
      match acc.1.write s.cfg (a + i * s.cfg.maxChunk) d with
      | some m => (m, acc.2.1, evs ++ [.memWr (a + i * s.cfg.maxChunk) d])
      | none => (acc.1, true, evs ++ [.diag (.outOfRange (a + i * s.cfg.maxChunk) d.length)])
  else (acc.1, acc.2.1, evs)

/-- The whole loop of R125. -/
def receiveChunks (s : State) (good : Bool) (a size : Nat) (payload : List Byte) : Memory × Bool × List Event :=
  (List.range (chunkCount s.cfg.maxChunk size)).foldl (receiveChunk s good a size payload) (s.mem, false, [])

/-! ### Trace and schedule -/

/-- The event is a received byte. -/
def isRx : Event → Bool
  | .rx _ => true
  | _ => false

/-- The event is a sent byte. -/
def isTx : Event → Bool
  | .tx _ => true
  | _ => false

/-- The bytes sent by a list of events, in order. -/
def sentBytes (evs : List Event) : List Byte :=
  evs.filterMap fun | .tx b => some b | _ => none

/-- Region `r` contains address `a` (R32). -/
def Contains (cfg : Config) (r : Region) (a : Nat) : Prop :=
  (cfg.span r).base ≤ a ∧ a < (cfg.span r).base + (cfg.span r).length

end Sys2Proof.Claims

open Sys2Proof Sys2Proof.Machine Sys2Proof.Claims

/-! ## Startup and configuration -/

/-- R24: the state at startup; the entries of `INIT_IMAGE` are stored in list order, each at its address, over
buffers of 0x00. The values of the flags, of `Q` and of `resp_oe` are the spec's decisions D1 and
D35. -/
def Obligations.StartupState : Prop :=
  ∀ cfg : Config,
    (State.startup cfg).cfg = cfg ∧
    (State.startup cfg).mem = Memory.applyImage cfg cfg.initImage Memory.zeroed ∧
    (∀ m, Memory.applyImage cfg [] m = m) ∧
    (∀ a bytes entries m m', m.write cfg a bytes = some m' →
      Memory.applyImage cfg ((a, bytes) :: entries) m = Memory.applyImage cfg entries m') ∧
    (∀ r o, (Memory.zeroed.buffer r).get o = 0) ∧
    (State.startup cfg).phase = .awaitOpcode ∧
    (State.startup cfg).crcEnabled = true ∧
    (State.startup cfg).resetPending = false ∧
    (State.startup cfg).queue = [] ∧
    (State.startup cfg).respOe = false ∧
    (State.startup cfg).cmd = none

/-- The state right after reset is coherent and its configuration admissible (the invariant and the choice of
the reference configuration are the model's, log 1). -/
def Obligations.ResetStateIsCoherent : Prop :=
  State.reset.Inv ∧ State.reset.cfg.Admissible

/-- Startup under every configuration gives a coherent state. -/
def Obligations.StartupStateIsCoherent : Prop :=
  ∀ cfg : Config, (State.startup cfg).Inv

/-- R4 (its decision D30): an inadmissible configuration is given no meaning. -/
def Obligations.InadmissibleConfigurationIsRefused : Prop :=
  ∀ s : State,
    (s.cfg.statusErr = 0 ∨
      s.cfg.maxChunk = 0 ∨
      (∃ r, (s.cfg.span r).length = 0) ∨
      (∃ a, (a = 0x000000 ∨ a = 0x00106C ∨ a = 0x001070 ∨ a = 0x001084 ∨ a = 0x00108C ∨ a = 0x00E824) ∧
        resolve s.cfg a 4 = .outOfRange) ∨
      (∃ e ∈ s.cfg.initImage, resolve s.cfg e.1 e.2.length = .outOfRange) ∨
      s.cfg.callbackCap < s.cfg.subscribed.length) →
    step s = .refused .inadmissibleConfig

/-! ## Encoding -/

/-- Decoding the encoding of a well-formed command gives it back, with every operand at every value, and leaves
what follows the frame. -/
def Obligations.DecodeAfterEncode : Prop :=
  ∀ (ctx : FrameContext) (i : Instr) (rest : List Byte),
    WellFormed ctx i = true → decode ctx (encode ctx i ++ rest) = .ok (i, rest)

/-- What the decoder accepts is the frame of a well-formed command: it is spelled as the encoder spells it, but
for the values of dummy bytes. -/
def Obligations.EncodeAfterDecode : Prop :=
  ∀ (ctx : FrameContext) (bs : List Byte) (i : Instr) (rest : List Byte),
    decode ctx bs = .ok (i, rest) →
    WellFormed ctx i = true ∧
      ∃ dummies, dummies.length = i.dummies ctx ∧ bs = i.cmdBytes ++ dummies ++ rest

/-- Every opcode byte has a handling: given the bytes of its frame, whose number the opcode and the frame
context alone fix, the decoder answers a command with that opcode and consumes exactly the frame. -/
def Obligations.EveryOpcodeByteIsHandled : Prop :=
  ∀ (ctx : FrameContext) (op : Byte) (params rest : List Byte),
    1 + params.length = frameLength ctx op →
    ∃ i, decode ctx (op :: (params ++ rest)) = .ok (i, rest) ∧ i.opcode = op

/-- Some frames written out from R51, R56 and the vectors of `95_test_vectors.md`. -/
def Obligations.SampleFramesDecode : Prop :=
  let on : FrameContext := { crc := true, drain := 4, skip := false }
  let off : FrameContext := { crc := false, drain := 4, skip := false }
  decode on [0xCA, 0x00, 0x10, 0x6C, 0xBE] = .ok (.singleRead 0x00106C (some 0xBE), []) ∧
  decode off [0xC4, 0xE8, 0x24] = .ok (.internalRead 0xE824 none, []) ∧
  decode on [0xC9, 0x00, 0x10, 0x6C, 0x78, 0x56, 0x34, 0x12, 0xF4] =
    .ok (.singleWrite 0x00106C 0x12345678 (some 0xF4), []) ∧
  decode off [0xC3, 0xE8, 0x24, 0x5C, 0x00, 0x00, 0x00] = .ok (.internalWrite 0xE824 0x0000005C none, []) ∧
  decode on [0xC2, 0x02, 0x00, 0x00, 0x00, 0x06, 0xA2] = .ok (.dmaRead 0x020000 6 (some 0xA2), []) ∧
  decode off [0xC8, 0x02, 0x00, 0x00, 0x00, 0x00, 0x06] = .ok (.dmaExtRead 0x020000 6 none, []) ∧
  decode on [0xC1, 0x02, 0x00, 0x00, 0x13, 0x88, 0x08] = .ok (.dmaWrite 0x020000 5000 (some 0x08), []) ∧
  decode off [0xC7, 0x0F, 0xFF, 0xFC, 0x00, 0x00, 0x08] = .ok (.dmaExtWrite 0x0FFFFC 8 none, []) ∧
  decode on [0xCF] = .ok (.reset, []) ∧
  decode on [0xC5, 0x00, 0x00, 0x00, 0x00] = .ok (.terminate, []) ∧
  decode on [0xC6, 0xCA, 0xCA, 0xCA, 0xCA] = .ok (.repeatCmd, []) ∧
  decode off [0x5A, 0x01, 0x02, 0x03, 0x04] = .ok (.unknown 0x5A, []) ∧
  decode { on with skip := true } [0x00] = .ok (.idleSkip, [])

/-! ## Checksums -/

/-- R85: the checksum is a fold with one table look-up a byte. The update step is general knowledge the spec
adopts (its passage G1). -/
def Obligations.ChecksumFoldsOverBytes : Prop :=
  ∀ (table : Vector Byte 256) (seed : Byte),
    compute table seed [] = seed ∧
    (∀ b bytes, compute table seed (b :: bytes) =
      compute table (table[(seed ^^^ b).toNat]'((seed ^^^ b).isLt)) bytes) ∧
    ∀ xs ys, compute table seed (xs ++ ys) = compute table (compute table seed xs) ys

/-- R87 (its decision D3) and R88 (derived in the spec): a frame verifies exactly when its last byte is the checksum of the bytes before it, so the
round trip holds and a frame that differs from a valid one in its checksum byte alone fails, for every table;
the reference table is not injective. -/
def Obligations.VerifyComparesTheChecksum : Prop :=
  (∀ (cfg : Config) (body : List Byte) (rx : Byte),
    verify cfg (body ++ [rx]) = true ↔ compute cfg.crcTable cfg.crcSeed body = rx) ∧
  (∀ (cfg : Config) (bytes : List Byte),
    verify cfg (bytes ++ [compute cfg.crcTable cfg.crcSeed bytes]) = true) ∧
  (∀ (cfg : Config) (body : List Byte) (rx rx' : Byte),
    verify cfg (body ++ [rx]) = true → rx' ≠ rx → verify cfg (body ++ [rx']) = false) ∧
  referenceTable[0x00] = 0x00 ∧ referenceTable[0x89] = 0x00 ∧
  compute referenceTable 0xFE [0xFE] = 0x00 ∧ compute referenceTable 0xFE [0x77] = 0x00

/-! ## The Memory Map -/

/-- R32 (its decision D29), with the order of R31 written out: the range resolves in region `r` exactly when `r`
is the first of LOW, PERIPH, SPICTL, BOOTROM, GENERAL that contains the start address, and the whole range fits
inside `r`; there is no fall-through. -/
def Obligations.ResolveTakesFirstContainingRegion : Prop :=
  ∀ (cfg : Config) (a n : Nat) (r : Region) (o k : Nat),
    resolve cfg a n = .range r o k ↔
      k = n ∧ o = a - (cfg.span r).base ∧ Contains cfg r a ∧
        a + n ≤ (cfg.span r).base + (cfg.span r).length ∧
        ∀ r', [Region.low, .periph, .spictl, .bootrom, .general].idxOf r' <
            [Region.low, .periph, .spictl, .bootrom, .general].idxOf r →
          ¬ Contains cfg r' a

/-- R33: what a read returns, what a store changes and what it leaves alone, byte for byte of every buffer. -/
def Obligations.MemWriteThenMemRead : Prop :=
  ∀ (cfg : Config) (m : Memory) (a : Nat),
    (∀ n, resolve cfg a n = .outOfRange → m.read cfg a n = none) ∧
    (∀ bytes, resolve cfg a bytes.length = .outOfRange → m.write cfg a bytes = none) ∧
    (∀ n r o, resolve cfg a n = .range r o n →
      ∃ d, m.read cfg a n = some d ∧ d.length = n ∧ ∀ i, i < n → d[i]? = some ((m.buffer r).get (o + i))) ∧
    (m.wf → ∀ bytes r o, resolve cfg a bytes.length = .range r o bytes.length →
      ∃ m', m.write cfg a bytes = some m' ∧ m'.wf ∧ m'.read cfg a bytes.length = some bytes ∧
        ∀ r' o', (r' ≠ r ∨ o' < o ∨ o + bytes.length ≤ o') →
          (m'.buffer r').get o' = (m.buffer r').get o')

/-- R34 (its decision D5): a word lies in memory least significant byte first, and its bytes travel in memory order. -/
def Obligations.WordsAreLittleEndian : Prop :=
  (∀ w : Word, ∃ b0 b1 b2 b3, bytesLe32 w = [b0, b1, b2, b3] ∧ le32 b0 b1 b2 b3 = w ∧
    b0.toNat = w.toNat % 256 ∧ b3.toNat = w.toNat / 16777216) ∧
  bytesLe32 0x02532636 = [0x36, 0x26, 0x53, 0x02] ∧
  ∀ (cfg : Config) (m m' : Memory) (a : Nat) (w : Word), m.wf → m.write cfg a (bytesLe32 w) = some m' →
    ∃ b0 b1 b2 b3, m'.read cfg a 4 = some [b0, b1, b2, b3] ∧ w = le32 b0 b1 b2 b3

/-- R59 (its decisions D10, D11): how a transfer is cut into chunks, which bytes of it chunk `i` covers, and that
the model's chunk in progress is cut so. -/
def Obligations.ChunkCutting : Prop :=
  ∀ maxChunk size : Nat, 1 ≤ maxChunk →
    let k := chunkCount maxChunk size
    (k = 0 ↔ size = 0) ∧
    size ≤ k * maxChunk ∧ (size ≠ 0 → (k - 1) * maxChunk < size) ∧
    (∀ i, i + 1 < k → chunkLength maxChunk size i = maxChunk) ∧
    (k ≠ 0 → chunkLength maxChunk size (k - 1) = size - (k - 1) * maxChunk ∧
      1 ≤ chunkLength maxChunk size (k - 1) ∧ chunkLength maxChunk size (k - 1) ≤ maxChunk) ∧
    (∀ p, p < size ↔ ∃ i, i < k ∧ i * maxChunk ≤ p ∧ p < i * maxChunk + chunkLength maxChunk size i) ∧
    (∀ i, i < k → chunkMarker i k = if i = k - 1 then 0xF3 else if i = 0 then 0xF1 else 0xF2) ∧
    (∀ (cfg : Config) (c : Command) (i : Nat), cfg.maxChunk = maxChunk → c.size.toNat = size →
      c.offset = i * maxChunk → c.chunkIndex cfg = i ∧ c.chunkLength cfg = chunkLength maxChunk size i)

/-! ## The step -/

/-- R70, as this model cuts a run into steps (log 2): a step from AwaitOpcode, when the master clocks a whole
command frame, is the meaning of the command the frame decodes to, at the state after the frame was received and
the environment steps that stand before the Execute part were taken. -/
def Obligations.StepRunsTheDecodedFrame : Prop :=
  ∀ (s : State) (bytes : List Byte) (rest : List Stimulus) (i : Instr),
    s.cfg.Admissible → s.phase = .awaitOpcode → s.cmd = none →
    s.inbox = clocks bytes ++ rest → decode s.frameContext bytes = .ok (i, []) →
    step s = exec i (settleEnvironment rest
      { s with respOe := false, trace := s.trace ++ receives bytes })

/-- R76: when the master clocks nothing, the block does its pending internal work, moves no byte on the bus, and
waits in its bus primitive for ever. -/
def Obligations.StepWaitsForTheMaster : Prop :=
  ∀ s t : State, s.Inv → s.inbox = [] → step s = .next t →
    step t = .next t ∧ ∃ evs, t.trace = s.trace ++ evs ∧ ∀ e ∈ evs, isRx e = false ∧ isTx e = false

/-- R61 (its decision D24): with `IDLE_ZERO_SKIP` a 0x00 received in AwaitOpcode is consumed and nothing else happens; without it
0x00 is an unknown opcode. -/
def Obligations.IdleFillerByte : Prop :=
  (∀ (s : State) (rest : List Stimulus), s.cfg.Admissible → s.cfg.idleZeroSkip = true →
    s.phase = .awaitOpcode → s.cmd = none → s.respOe = false → s.inbox = .clock 0 :: rest →
    (rest = [] ∨ ∃ b l, rest = .clock b :: l) →
    step s = .next { s with inbox := rest, trace := s.trace ++ [.rx 0] }) ∧
  (∀ s : State, exec .idleSkip s = .next { s with phase := .awaitOpcode, cmd := none }) ∧
  (∀ (ctx : FrameContext) (bs : List Byte), ctx.skip = false → ctx.drain ≤ bs.length →
    decode ctx (0x00 :: bs) = .ok (.unknown 0x00, bs.drop ctx.drain))

/-- Every step keeps the invariant, from every coherent state. -/
def Obligations.StepKeepsInvariant : Prop :=
  ∀ s t : State, s.Inv → step s = .next t → t.Inv

/-- R75 and R158: from every coherent state under an admissible configuration the machine goes on, whatever the
outside world does; no command ends in a fault or a refusal. -/
def Obligations.TransportLoopGoesOn : Prop :=
  ∀ s : State, s.cfg.Admissible → s.Inv → s.goesOn

/-- R93: no step sets `crc_enabled` once it is clear. -/
def Obligations.ChecksumFlagIsNeverSetAgain : Prop :=
  ∀ s t : State, step s = .next t → s.crcEnabled = false → t.crcEnabled = false

/-- R3: no step changes the configuration; and the trace of the past stands. -/
def Obligations.ConfigurationAndPastTraceAreKept : Prop :=
  ∀ s t : State, step s = .next t → t.cfg = s.cfg ∧ ∃ evs, t.trace = s.trace ++ evs

/-- R42: an environment step reaches the Memory Map and the notifier queue and nothing else: a read changes
nothing, a store that resolves stores its own bytes at its own address, one that does not resolve changes nothing,
a pop removes the head of the queue. It is taken where the schedule puts it, while a frame is received, between the
frame and the Execute part, and after it, and nothing of the block happens inside it. -/
def Obligations.EnvironmentReachesMemoryAndQueueOnly : Prop :=
  (∀ (s : State) (e : EnvStep), ∃ m q, s.environment e = { s with mem := m, queue := q } ∧
    (q = s.queue ∨ (e = .popQueue ∧ q = s.queue.tail)) ∧
    (m = s.mem ∨ ∃ a bytes, e = .write a bytes ∧ s.mem.write s.cfg a bytes = some m)) ∧
  (∀ (s : State) (a n : Nat), s.environment (.read a n) = s) ∧
  (∀ (s : State) (a : Nat) (bytes : List Byte) (m : Memory), s.mem.write s.cfg a bytes = some m →
    s.environment (.write a bytes) = { s with mem := m }) ∧
  (∀ (s : State) (a : Nat) (bytes : List Byte), s.mem.write s.cfg a bytes = none →
    s.environment (.write a bytes) = s) ∧
  (∀ s : State, s.environment .popQueue = { s with queue := s.queue.tail }) ∧
  (∀ (s : State) (e : EnvStep) (l : List Stimulus), s.frameComplete = false →
    fetch (.env e :: l) s = fetch l (s.environment e)) ∧
  (∀ (s : State) (e : EnvStep) (l : List Stimulus),
    settleEnvironment (.env e :: l) s = settleEnvironment l (s.environment e)) ∧
  (∀ (s : State) (e : EnvStep) (l : List Stimulus), s.phase ≠ .awaitOpcode →
    converse (.env e :: l) s = converse l (s.environment e))

/-- R64, R62: whatever the address, the checksums, the memory, the flags and the environment, a command takes
exactly its number of byte times: so many payload bytes received, so many response bytes sent, and then the block
is back in AwaitOpcode. Every command completes once the master clocks them. -/
def Obligations.FramingInvariance : Prop :=
  ∀ (i : Instr) (s : State), s.cfg.Admissible →
    conversationLength s.cfg s.crcEnabled i ≤ byteTimes s.inbox →
    ∃ t used evs, exec i s = .next t ∧ t.phase = .awaitOpcode ∧ t.cmd = none ∧
      s.inbox = used ++ t.inbox ∧ byteTimes used = conversationLength s.cfg s.crcEnabled i ∧
      t.trace = s.trace ++ evs ∧
      evs.countP isRx = payloadLength s.cfg s.crcEnabled i ∧
      evs.countP isTx = responseLength s.cfg s.crcEnabled i

/-- R14: no value of the working registers reaches a later command. -/
def Obligations.NothingLeaksFromAnEarlierCommand : Prop :=
  ∀ (i : Instr) (s : State) (p : Phase) (c : Option Command), exec i { s with phase := p, cmd := c } = exec i s

/-- R70, R73, R74: `phase` moves along its cycle only. A received byte, the environment, the work between two byte
times, and a byte time keep it or move it on by one; a received frame leaves it in ReadParams; the transaction of
every command goes on with the command's Execute part, in Execute, and that part leaves it in WriteResponse, or, for
a DMA write, whose payload intake is part of Execute, in Execute. -/
def Obligations.PhaseFollowsTheCycle : Prop :=
  (∀ (s : State) (b : Byte), s.phase = .awaitOpcode → s.cmd = none →
    (s.receive (.clock b)).phase = if isIdleFiller s.frameContext b then .awaitOpcode else .readParams) ∧
  (∀ (s : State) (st : Stimulus), s.phase = .readParams → s.cmd ≠ none →
    (s.receive st).phase = .readParams) ∧
  (∀ (s : State) (l : List Stimulus), s.phase = .readParams → s.cmd ≠ none →
    (fetch l s).phase = .readParams ∧ (settleEnvironment l s).phase = .readParams) ∧
  (∀ (i : Instr) (s : State), i ≠ .idleSkip →
    exec i s = .next (converse s.inbox
      (executionOf i (s.load i) { s with phase := .execute, cmd := some (s.load i) }))) ∧
  (∀ (i : Instr) (c : Command) (s : State), i ≠ .idleSkip → s.phase = .execute →
    (executionOf i c s).phase = .writeResponse ∨
      ((∃ a n, DmaWriteOf a n i) ∧ (executionOf i c s).phase = .execute)) ∧
  (∀ s : State, s.work.phase = s.phase ∨ (s.phase = .execute ∧ s.work.phase = .writeResponse)) ∧
  (∀ (s : State) (b : Byte), (s.byteTime b).phase = s.phase ∨
    (s.phase = .writeResponse ∧ (s.byteTime b).phase = .awaitOpcode)) ∧
  (∀ (s : State) (e : EnvStep), (s.environment e).phase = s.phase)

/-! ## Word access -/

/-- R104, R100, R101: a word read of a range that resolves answers the four stored bytes, read by one `MemRead`
before the first response byte, and changes nothing. -/
def Obligations.WordReadAnswersStoredBytes : Prop :=
  ∀ (s : State) (i : Instr) (a : Addr) (d bytes : List Byte) (rest : List Stimulus),
    WordReadOf a i → CommandGood s i → (s.resetPending = false ∨ a ≠ 0x00108C) →
    s.mem.read s.cfg a.toNat 4 = some d →
    s.inbox = clocks bytes ++ rest → bytes.length = 7 + s.crcEnabled.toNat →
    exec i s = .next (after s rest (.memRd a.toNat d :: sends (wordResponse s i.opcode 0x00 d)))

/-- R107: while `reset_pending` is 1 a word read of exactly 0x00108C answers the signature, reads no memory and
clears `reset_pending`. -/
def Obligations.StateRegisterOverride : Prop :=
  ∀ (s : State) (i : Instr) (bytes : List Byte) (rest : List Stimulus),
    WordReadOf 0x00108C i → CommandGood s i → s.resetPending = true →
    s.inbox = clocks bytes ++ rest → bytes.length = 7 + s.crcEnabled.toNat →
    exec i s = .next (after { s with resetPending := false } rest
      (sends (wordResponse s i.opcode 0x00 [0x36, 0x26, 0x53, 0x02])))

/-- R151, R104: a word read that does not resolve answers `STATUS_ERR` and four zero bytes, and changes
nothing. -/
def Obligations.WordReadOutOfRange : Prop :=
  ∀ (s : State) (i : Instr) (a : Addr) (bytes : List Byte) (rest : List Stimulus),
    WordReadOf a i → CommandGood s i → (s.resetPending = false ∨ a ≠ 0x00108C) →
    resolve s.cfg a.toNat 4 = .outOfRange →
    s.inbox = clocks bytes ++ rest → bytes.length = 7 + s.crcEnabled.toNat →
    exec i s = .next (after s rest (.diag (.outOfRange a.toNat 4) ::
      sends (wordResponse s i.opcode s.cfg.statusErr [0x00, 0x00, 0x00, 0x00])))

/-- R152, R104, R124: a read command with a bad checksum sends a response of the normal length in which every
byte is 0x00, and changes nothing. -/
def Obligations.ReadWithBadChecksumAnswersZeros : Prop :=
  ∀ (s : State) (i : Instr) (bytes : List Byte) (rest : List Stimulus),
    MemoryRead i → ¬ CommandGood s i →
    s.inbox = clocks bytes ++ rest → bytes.length = responseLength s.cfg s.crcEnabled i →
    exec i s = .next (after s rest (.diag .crcMismatch ::
      sends (zeros (responseLength s.cfg s.crcEnabled i))))

/-- R105, R102, R103, R92, R160: a word write that resolves, to another address than 0x000000, stores its four
bytes, clears `crc_enabled` if it writes the protocol-config register with bits 3:2 clear, is notified if its
address is subscribed, and is acknowledged with `STATUS_OK`. -/
def Obligations.WordWriteStores : Prop :=
  ∀ (s : State) (i : Instr) (a : Addr) (v : Word) (m : Memory) (bytes : List Byte) (rest : List Stimulus)
    (flag : Bool),
    WordWriteOf a v i → CommandGood s i → a ≠ 0x000000 →
    s.mem.write s.cfg a.toNat (bytesLe32 v) = some m →
    (a = 0x00E824 ∧ Bits32Clear v → flag = false) → (¬ (a = 0x00E824 ∧ Bits32Clear v) → flag = s.crcEnabled) →
    s.inbox = clocks bytes ++ rest → bytes.length = 2 →
    exec i s = .next (after { s with mem := m, crcEnabled := flag, queue := queueAfterNotify s a } rest
      (.memWr a.toNat (bytesLe32 v) :: (notifyEvents s a ++ sends [i.opcode, 0x00])))

/-- R106 (its decision D25): a word write to exactly 0x000000 with a good checksum is intercepted: whatever the four bytes, nothing
is stored or notified, `reset_pending` becomes 1 and the ACK says `STATUS_OK`. A word write to 0x000001, 0x000002
or 0x000003 is an ordinary write. -/
def Obligations.IdentityWriteArmsTheSoftReset : Prop :=
  (∀ (s : State) (i : Instr) (v : Word) (bytes : List Byte) (rest : List Stimulus),
    WordWriteOf 0x000000 v i → CommandGood s i →
    s.inbox = clocks bytes ++ rest → bytes.length = 2 →
    exec i s = .next (after { s with resetPending := true } rest (sends [i.opcode, 0x00]))) ∧
  (∀ (s : State) (i : Instr) (a : Addr) (v : Word) (m : Memory) (bytes : List Byte) (rest : List Stimulus),
    a = 0x000001 ∨ a = 0x000002 ∨ a = 0x000003 → WordWriteOf a v i → CommandGood s i →
    s.mem.write s.cfg a.toNat (bytesLe32 v) = some m → s.inbox = clocks bytes ++ rest → bytes.length = 2 →
    exec i s = .next (after { s with mem := m, queue := queueAfterNotify s a } rest
      (.memWr a.toNat (bytesLe32 v) :: (notifyEvents s a ++ sends [i.opcode, 0x00]))))

/-- R151, R105: a word write that does not resolve stores nothing, notifies nobody, leaves the flags, and
answers `STATUS_ERR`. -/
def Obligations.WordWriteOutOfRange : Prop :=
  ∀ (s : State) (i : Instr) (a : Addr) (v : Word) (bytes : List Byte) (rest : List Stimulus),
    WordWriteOf a v i → CommandGood s i → a ≠ 0x000000 → resolve s.cfg a.toNat 4 = .outOfRange →
    s.inbox = clocks bytes ++ rest → bytes.length = 2 →
    exec i s = .next (after s rest (.diag (.outOfRange a.toNat 4) :: sends [i.opcode, s.cfg.statusErr]))

/-- R152: a write command with a bad checksum is silently ignored: a DMA write's payload is received, nothing is
stored, flagged or notified, and the ACK says `STATUS_OK`. -/
def Obligations.WriteWithBadChecksumIsIgnored : Prop :=
  ∀ (s : State) (i : Instr) (payload bytes : List Byte) (rest : List Stimulus),
    ((∃ a v, WordWriteOf a v i) ∨ ∃ a n, DmaWriteOf a n i) → ¬ CommandGood s i → 1 ≤ s.cfg.maxChunk →
    s.inbox = clocks (payload ++ bytes) ++ rest →
    payload.length = payloadLength s.cfg s.crcEnabled i → bytes.length = 2 →
    exec i s = .next (after s rest (.diag .crcMismatch :: (receives payload ++ sends [i.opcode, 0x00])))

/-- R92: whatever the schedule, `crc_enabled` is 0 after a command exactly if it was 0 before or the command is a
word write of a value with bits 3:2 clear to exactly 0x00E824 with a good checksum and a range that resolves;
`value[3:2] = 0` is `D0 and 0x0C = 0`. -/
def Obligations.ChecksumSwitchOff : Prop :=
  (∀ (i : Instr) (s t : State), exec i s = .next t →
    (t.crcEnabled = false ↔ s.crcEnabled = false ∨
      ∃ v, WordWriteOf 0x00E824 v i ∧ CommandGood s i ∧ resolve s.cfg 0x00E824 4 ≠ .outOfRange ∧
        Bits32Clear v)) ∧
  ∀ v : Word, Bits32Clear v ↔ ∃ d0 ds, bytesLe32 v = d0 :: ds ∧ d0 &&& 0x0C = 0

/-- R160, R154: `Notify` appends to the tail while there is room; when the queue is full the newest is dropped,
the queued entries stand in their order, and a diagnostic is emitted. -/
def Obligations.NotifyQueuesOrDropsTheNewest : Prop :=
  ∀ (s : State) (a : Addr),
    (s.queue.length < s.cfg.notifyCap →
      s.notify a = { s with queue := s.queue ++ [a], trace := s.trace ++ [.notify a] }) ∧
    (s.cfg.notifyCap ≤ s.queue.length →
      s.notify a = { s with trace := s.trace ++ [.drop a, .diag (.queueOverflow a)] })

/-! ## DMA -/

/-- R124, R120, R121: a DMA read of a range that resolves sends the echoed opcode, `STATUS_OK`, and then every
chunk, each read from memory just before its marker, with its data and its checksum; it changes nothing. That every chunk
comes from the region of the whole range is log 15. -/
def Obligations.DmaReadStreamsTheRange : Prop :=
  ∀ (s : State) (i : Instr) (a : Addr) (n : Nat) (d bytes : List Byte) (rest : List Stimulus),
    DmaReadOf a n i → CommandGood s i → 1 ≤ s.cfg.maxChunk → s.mem.read s.cfg a.toNat n = some d →
    s.inbox = clocks bytes ++ rest → bytes.length = responseLength s.cfg s.crcEnabled i →
    exec i s = .next (after s rest (sends [i.opcode, 0x00] ++ streamEvents s a.toNat d true))

/-- R124, R151: a DMA read whose whole range does not resolve sends `STATUS_ERR` and every chunk frame with zero
data, the normal markers and right checksums; no memory is read and nothing changes. -/
def Obligations.DmaReadOutOfRange : Prop :=
  ∀ (s : State) (i : Instr) (a : Addr) (n : Nat) (bytes : List Byte) (rest : List Stimulus),
    DmaReadOf a n i → CommandGood s i → 1 ≤ s.cfg.maxChunk → resolve s.cfg a.toNat n = .outOfRange →
    s.inbox = clocks bytes ++ rest → bytes.length = responseLength s.cfg s.crcEnabled i →
    exec i s = .next (after s rest (.diag (.outOfRange a.toNat n) ::
      (sends [i.opcode, s.cfg.statusErr] ++ streamEvents s a.toNat (zeros n) false)))

/-- R126 (its decision D20): a transfer of size 0 has no chunk: a read sends the opcode and a status that is `STATUS_OK` exactly
when the address lies inside some region, a write reads no payload and sends `STATUS_OK`. -/
def Obligations.ZeroSizeTransfers : Prop :=
  ∀ (s : State) (i : Instr) (a : Addr) (bytes : List Byte) (rest : List Stimulus),
    CommandGood s i → s.inbox = clocks bytes ++ rest → bytes.length = 2 →
    (DmaReadOf a 0 i → (∃ r, Contains s.cfg r a.toNat) →
      exec i s = .next (after s rest (sends [i.opcode, 0x00]))) ∧
    (DmaReadOf a 0 i → (¬ ∃ r, Contains s.cfg r a.toNat) →
      exec i s = .next (after s rest (.diag (.outOfRange a.toNat 0) :: sends [i.opcode, s.cfg.statusErr]))) ∧
    (DmaWriteOf a 0 i → exec i s = .next (after s rest (sends [i.opcode, 0x00])))

/-- R125 (its decisions D13 to D19): a DMA write, with any payload of the right length, does what the loop of R125 does chunk by chunk:
a chunk is ignored when the command's checksum is bad, ignored with a diagnostic when its own is bad, stored when
it resolves and else discarded with `err_seen`; then one ACK whose status says whether a chunk was out of range.
Nothing but memory changes. -/
def Obligations.DmaWriteIsTheChunkLoop : Prop :=
  ∀ (s : State) (i : Instr) (a : Addr) (n : Nat) (payload bytes : List Byte) (rest : List Stimulus) (good : Bool),
    DmaWriteOf a n i → (good = true ↔ CommandGood s i) → 1 ≤ s.cfg.maxChunk →
    s.inbox = clocks (payload ++ bytes) ++ rest →
    payload.length = payloadLength s.cfg s.crcEnabled i → bytes.length = 2 →
    let r := receiveChunks s good a.toNat n payload
    exec i s = .next (after { s with mem := r.1 } rest
      ((if good then [] else [.diag .crcMismatch]) ++
        (r.2.2 ++ sends [i.opcode, if r.2.1 then s.cfg.statusErr else 0x00])))

/-- R122, R123: a DMA write whose range and whose chunks resolve in one region (R125: "its chunks may land in
different regions"), and whose chunks carry right checksums, with any markers, puts the payload's data at the
destination end to end, leaves every other byte of every buffer alone, and is acknowledged with `STATUS_OK`
once. -/
def Obligations.DmaWriteDeliversThePayload : Prop :=
  ∀ (s : State) (i : Instr) (a : Addr) (data bytes : List Byte) (marker : Nat → Byte) (rest : List Stimulus)
    (r : Region) (o : Nat),
    DmaWriteOf a data.length i → CommandGood s i → 1 ≤ s.cfg.maxChunk → s.mem.wf →
    resolve s.cfg a.toNat data.length = .range r o data.length →
    (∀ j, j < chunkCount s.cfg.maxChunk data.length →
      resolve s.cfg (a.toNat + j * s.cfg.maxChunk) (chunkLength s.cfg.maxChunk data.length j) =
        .range r (o + j * s.cfg.maxChunk) (chunkLength s.cfg.maxChunk data.length j)) →
    s.inbox = clocks (payloadOf s marker data ++ bytes) ++ rest → bytes.length = 2 →
    ∃ t evs, exec i s = .next t ∧ t = after { s with mem := t.mem } rest evs ∧
      sentBytes evs = [i.opcode, 0x00] ∧
      t.mem.read s.cfg a.toNat data.length = some data ∧
      ∀ r' o', (r' ≠ r ∨ o' < o ∨ o + data.length ≤ o') →
        (t.mem.buffer r').get o' = (s.mem.buffer r').get o'

/-! ## Control -/

/-- R140 (its decision D22): Reset is an acknowledgement and changes no state at all. -/
def Obligations.ResetAcknowledgesOnly : Prop :=
  (∀ ctx : FrameContext, frameLength ctx 0xCF = 1) ∧
  ∀ (s : State) (bytes : List Byte) (rest : List Stimulus),
    s.inbox = clocks bytes ++ rest → bytes.length = 2 →
    exec .reset s = .next (after s rest (sends [0xCF, 0x00]))

/-- R153, R143, R141, R142 (decisions D9, D21, D23): an unknown opcode, Terminate and Repeat drain `UNKNOWN_DRAIN` bytes after the opcode, emit
the diagnostic, send the echoed opcode and `STATUS_ERR`, and change no state. -/
def Obligations.UnknownOpcodesAnswerAnError : Prop :=
  (∀ (ctx : FrameContext) (op : Byte), decodeOp op = .unknown ∨ op = 0xC5 ∨ op = 0xC6 →
    isIdleFiller ctx op = false → frameLength ctx op = 1 + ctx.drain) ∧
  ∀ (s : State) (i : Instr) (bytes : List Byte) (rest : List Stimulus),
    i = .terminate ∨ i = .repeatCmd ∨ (∃ op, i = .unknown op) →
    s.inbox = clocks bytes ++ rest → bytes.length = 2 →
    exec i s = .next (after s rest (.diag (.unknownOpcode i.opcode) :: sends [i.opcode, s.cfg.statusErr]))

/-! ## Frames and whole-machine rules -/

/-- Reads and control commands, in a schedule without environment steps: memory reads as before at every
address, queue and `crc_enabled` are unchanged, and `reset_pending` is unchanged but for the word read of the
state register. -/
def Obligations.ReadAndControlFrame : Prop :=
  ∀ (i : Instr) (s t : State), MemoryRead i ∨ Control i → undisturbed s.inbox → exec i s = .next t →
    t.mem = s.mem ∧ (∀ x, t.mem.byteAt t.cfg x = s.mem.byteAt s.cfg x) ∧ t.queue = s.queue ∧
    t.crcEnabled = s.crcEnabled ∧ t.cfg = s.cfg ∧
    (t.resetPending = s.resetPending ∨ WordReadOf 0x00108C i)

/-- Word writes, in a schedule without environment steps: every byte outside the four at the decoded address
reads as before; the queue gains at most the address, and only if it is subscribed; `crc_enabled` changes only by
a write to 0x00E824 and `reset_pending` only by one to 0x000000. -/
def Obligations.WordWriteFrame : Prop :=
  ∀ (i : Instr) (s t : State) (a : Addr) (v : Word), WordWriteOf a v i → undisturbed s.inbox →
    exec i s = .next t →
    (∀ x, x < (operandAddr i).toNat ∨ (operandAddr i).toNat + 4 ≤ x →
      t.mem.byteAt t.cfg x = s.mem.byteAt s.cfg x) ∧
    (t.queue = s.queue ∨ (t.queue = s.queue ++ [a] ∧ a.toNat ∈ s.cfg.subscribed)) ∧
    t.cfg = s.cfg ∧
    (t.crcEnabled = s.crcEnabled ∨ a = 0x00E824) ∧ (t.resetPending = s.resetPending ∨ a = 0x000000)

/-- DMA writes, in a schedule without environment steps: every byte outside the range reads as before; both
flags and the queue are unchanged (R125: never notified, never intercepted, never clearing `crc_enabled`). -/
def Obligations.DmaWriteFrame : Prop :=
  ∀ (i : Instr) (s t : State) (a : Addr) (n : Nat), DmaWriteOf a n i → undisturbed s.inbox →
    exec i s = .next t →
    (∀ x, x < (operandAddr i).toNat ∨ (operandAddr i).toNat + n ≤ x →
      t.mem.byteAt t.cfg x = s.mem.byteAt s.cfg x) ∧
    t.queue = s.queue ∧ t.cfg = s.cfg ∧ t.crcEnabled = s.crcEnabled ∧ t.resetPending = s.resetPending

/-- R13: whatever the schedule, `reset_pending` is set by a word write to 0x000000, cleared by a word read of
0x00108C, and changed by nothing else. -/
def Obligations.ResetPendingHasOneSetterAndOneClearer : Prop :=
  ∀ (i : Instr) (s t : State), exec i s = .next t →
    (CommandGood s i → (∃ v, WordWriteOf 0x000000 v i) → t.resetPending = true) ∧
    (CommandGood s i → WordReadOf 0x00108C i → t.resetPending = false) ∧
    (¬ (CommandGood s i ∧ ((∃ v, WordWriteOf 0x000000 v i) ∨ WordReadOf 0x00108C i)) →
      t.resetPending = s.resetPending)

/-! ## Equivalences -/

/-- R108 (derived in the spec): with the same 16-bit address the internal and the general word commands have the same effect on all
state and answer the same, but for the echoed opcode. -/
def Obligations.AddressWidthsAgree : Prop :=
  ∀ (s : State) (b : InternalAddr) (i j : Instr) (bytes : List Byte) (rest : List Stimulus),
    ((∃ c c', i = .internalRead b c ∧ j = .singleRead (zext24 b) c') ∨
      ∃ v c c', i = .internalWrite b v c ∧ j = .singleWrite (zext24 b) v c') →
    CommandGood s i → CommandGood s j →
    s.inbox = clocks bytes ++ rest → bytes.length = responseLength s.cfg s.crcEnabled i →
    ∃ (t : State) (pre post : List Event), exec i s = .next { t with trace := s.trace ++ pre ++ .tx i.opcode :: post } ∧
      exec j s = .next { t with trace := s.trace ++ pre ++ .tx j.opcode :: post } ∧
      ∀ e ∈ pre, isTx e = false

/-- R127 (derived in the spec): with a size below 65536 the two widths of a DMA command have the same effect on all state and send the
same, but for the echoed opcode. -/
def Obligations.SizeWidthsAgree : Prop :=
  ∀ (s : State) (a : Addr) (n : BitVec 16) (i j : Instr) (bytes : List Byte) (rest : List Stimulus),
    ((∃ c c', i = .dmaRead a n c ∧ j = .dmaExtRead a (sizeOf16 n) c') ∨
      ∃ c c', i = .dmaWrite a n c ∧ j = .dmaExtWrite a (sizeOf16 n) c') →
    CommandGood s i → CommandGood s j → 1 ≤ s.cfg.maxChunk →
    s.inbox = clocks bytes ++ rest → bytes.length = conversationLength s.cfg s.crcEnabled i →
    ∃ (t : State) (pre post : List Event), exec i s = .next { t with trace := s.trace ++ pre ++ .tx i.opcode :: post } ∧
      exec j s = .next { t with trace := s.trace ++ pre ++ .tx j.opcode :: post } ∧
      ∀ e ∈ pre, isTx e = false

/-- R128 (derived in the spec), for `MAX_CHUNK >= 4`: a word read and a DMA read of 4 bytes at the same address send responses that
differ in the echoed opcode only, unless the state-register override applies. -/
def Obligations.WordAndDmaReadsAgree : Prop :=
  ∀ (s : State) (a : Addr) (i j : Instr) (bytes : List Byte) (rest : List Stimulus),
    WordReadOf a i → DmaReadOf a 4 j → CommandGood s i → CommandGood s j → 4 ≤ s.cfg.maxChunk →
    (s.resetPending = false ∨ a ≠ 0x00108C) →
    s.inbox = clocks bytes ++ rest → bytes.length = 7 + s.crcEnabled.toNat →
    ∃ t u evs evs' response, exec i s = .next t ∧ exec j s = .next u ∧
      t.trace = s.trace ++ evs ∧ u.trace = s.trace ++ evs' ∧
      sentBytes evs = i.opcode :: response ∧ sentBytes evs' = j.opcode :: response ∧ t.mem = u.mem

/-- Scenario A (R106, R107): a word write to the identity register, then two word reads of the state register:
the first answers the signature, the second the stored word. -/
def Obligations.SoftResetHandshake : Prop :=
  ∀ (s : State) (w r : Instr) (v : Word) (d b1 b2 b3 : List Byte) (rest : List Stimulus),
    WordWriteOf 0x000000 v w → WordReadOf 0x00108C r → CommandGood s w → CommandGood s r →
    s.mem.read s.cfg 0x00108C 4 = some d →
    s.inbox = clocks (b1 ++ b2 ++ b3) ++ rest → b1.length = 2 →
    b2.length = 7 + s.crcEnabled.toNat → b3.length = 7 + s.crcEnabled.toNat →
    ∃ t1 t2 t3, exec w s = .next t1 ∧ exec r t1 = .next t2 ∧ exec r t2 = .next t3 ∧
      t2.trace = t1.trace ++ sends (wordResponse s r.opcode 0x00 [0x36, 0x26, 0x53, 0x02]) ∧
      t3.trace = t2.trace ++ .memRd 0x00108C d :: sends (wordResponse s r.opcode 0x00 d) ∧
      t3.mem = s.mem ∧ t3.resetPending = false

/-- R40 (derived in the spec): with `reset_pending` 0 and nothing written in between, the same read command twice gives the same
events twice. -/
def Obligations.RepeatedReadsAgree : Prop :=
  ∀ (s : State) (i : Instr) (b1 b2 : List Byte) (rest : List Stimulus),
    MemoryRead i → s.resetPending = false → 1 ≤ s.cfg.maxChunk →
    s.inbox = clocks (b1 ++ b2) ++ rest → b1.length = responseLength s.cfg s.crcEnabled i →
    b2.length = responseLength s.cfg s.crcEnabled i →
    ∃ t u evs, exec i s = .next t ∧ exec i t = .next u ∧
      t.trace = s.trace ++ evs ∧ u.trace = t.trace ++ evs

/-! ## The command checksum -/

/-- R72, R89, R91: which commands are good. With checksums off every command is; Reset, the formats U and the idle
byte always are; a read/write command that arrived with checksum byte `rx` while checksums are on is good exactly
when `rx` is the checksum of all bytes of its frame before it, in wire order, the opcode first. The registers a
meaning begins with hold exactly this. -/
def Obligations.CommandChecksumIsVerified : Prop :=
  (∀ (s : State) (i : Instr), (s.load i).cmdCrcOk = true ↔ CommandGood s i) ∧
  (∀ (s : State) (i : Instr), s.crcEnabled = false → CommandGood s i) ∧
  (∀ (s : State) (i : Instr), Control i → CommandGood s i) ∧
  ∀ (s : State) (a2 a1 a0 x2 x1 x0 d0 d1 d2 d3 rx : Byte), s.crcEnabled = true →
    let sum := compute s.cfg.crcTable s.cfg.crcSeed
    (CommandGood s (.singleRead (be3 a2 a1 a0) (some rx)) ↔ sum [0xCA, a2, a1, a0] = rx) ∧
    (CommandGood s (.internalRead (be2 a1 a0) (some rx)) ↔ sum [0xC4, a1, a0] = rx) ∧
    (CommandGood s (.singleWrite (be3 a2 a1 a0) (le32 d0 d1 d2 d3) (some rx)) ↔
      sum [0xC9, a2, a1, a0, d0, d1, d2, d3] = rx) ∧
    (CommandGood s (.internalWrite (be2 a1 a0) (le32 d0 d1 d2 d3) (some rx)) ↔
      sum [0xC3, a1, a0, d0, d1, d2, d3] = rx) ∧
    (CommandGood s (.dmaRead (be3 a2 a1 a0) (be2 x1 x0) (some rx)) ↔ sum [0xC2, a2, a1, a0, x1, x0] = rx) ∧
    (CommandGood s (.dmaWrite (be3 a2 a1 a0) (be2 x1 x0) (some rx)) ↔ sum [0xC1, a2, a1, a0, x1, x0] = rx) ∧
    (CommandGood s (.dmaExtRead (be3 a2 a1 a0) (be3 x2 x1 x0) (some rx)) ↔
      sum [0xC8, a2, a1, a0, x2, x1, x0] = rx) ∧
    (CommandGood s (.dmaExtWrite (be3 a2 a1 a0) (be3 x2 x1 x0) (some rx)) ↔
      sum [0xC7, a2, a1, a0, x2, x1, x0] = rx)
end

