-- ==== Sys2Proof/Laws/Bytes.lean ====
section
/-! SUPPORT. Byte order: the bytes of a field, put together again, are the field, and the other way round (R5,
R34, R52, R53). -/

namespace Sys2Proof

theorem be2_bytes (v : BitVec 16) : be2 (BitVec.ofNat 8 (v.toNat / 256)) (BitVec.ofNat 8 v.toNat) = v := by
  apply BitVec.eq_of_toNat_eq; simp [be2]; omega

theorem be3_bytes (v : BitVec 24) :
    be3 (BitVec.ofNat 8 (v.toNat / 65536)) (BitVec.ofNat 8 (v.toNat / 256)) (BitVec.ofNat 8 v.toNat) = v := by
  apply BitVec.eq_of_toNat_eq; simp [be3]; omega

theorem le32_bytes (v : Word) :
    le32 (BitVec.ofNat 8 v.toNat) (BitVec.ofNat 8 (v.toNat / 256)) (BitVec.ofNat 8 (v.toNat / 65536))
      (BitVec.ofNat 8 (v.toNat / 16777216)) = v := by
  apply BitVec.eq_of_toNat_eq; simp [le32]; omega

@[simp] theorem bytesBe2_be2 (a b : Byte) : bytesBe2 (be2 a b) = [a, b] := by
  simp only [bytesBe2, be2, List.cons.injEq, and_true]
  refine ⟨?_, ?_⟩ <;> apply BitVec.eq_of_toNat_eq <;> simp <;> omega

@[simp] theorem bytesBe3_be3 (a b c : Byte) : bytesBe3 (be3 a b c) = [a, b, c] := by
  simp only [bytesBe3, be3, List.cons.injEq, and_true]
  refine ⟨?_, ?_, ?_⟩ <;> apply BitVec.eq_of_toNat_eq <;> simp <;> omega

@[simp] theorem bytesLe32_le32 (a b c d : Byte) : bytesLe32 (le32 a b c d) = [a, b, c, d] := by
  simp only [bytesLe32, le32, List.cons.injEq, and_true]
  refine ⟨?_, ?_, ?_, ?_⟩ <;> apply BitVec.eq_of_toNat_eq <;> simp <;> omega

@[simp] theorem bytesBe2_length (v : BitVec 16) : (bytesBe2 v).length = 2 := rfl
@[simp] theorem bytesBe3_length (v : BitVec 24) : (bytesBe3 v).length = 3 := rfl
@[simp] theorem bytesLe32_length (v : Word) : (bytesLe32 v).length = 4 := rfl

end Sys2Proof
end

