-- ==== Sys2Proof/Laws/Decode.lean ====
section
/-! SUPPORT. What the decoder answers, said once for each command kind: which opcode byte stands behind it
(R56, R78), how long its frame is, and what is left after it. -/

namespace Sys2Proof

section
variable {op : Byte}
theorem decodeOp_dmaWrite : decodeOp op = .dmaWrite ↔ op = 0xC1 := by
  revert op; decide +kernel
theorem decodeOp_dmaRead : decodeOp op = .dmaRead ↔ op = 0xC2 := by
  revert op; decide +kernel
theorem decodeOp_internalWrite : decodeOp op = .internalWrite ↔ op = 0xC3 := by
  revert op; decide +kernel
theorem decodeOp_internalRead : decodeOp op = .internalRead ↔ op = 0xC4 := by
  revert op; decide +kernel
theorem decodeOp_terminate : decodeOp op = .terminate ↔ op = 0xC5 := by
  revert op; decide +kernel
theorem decodeOp_repeatCmd : decodeOp op = .repeatCmd ↔ op = 0xC6 := by
  revert op; decide +kernel
theorem decodeOp_dmaExtWrite : decodeOp op = .dmaExtWrite ↔ op = 0xC7 := by
  revert op; decide +kernel
theorem decodeOp_dmaExtRead : decodeOp op = .dmaExtRead ↔ op = 0xC8 := by
  revert op; decide +kernel
theorem decodeOp_singleWrite : decodeOp op = .singleWrite ↔ op = 0xC9 := by
  revert op; decide +kernel
theorem decodeOp_singleRead : decodeOp op = .singleRead ↔ op = 0xCA := by
  revert op; decide +kernel
theorem decodeOp_reset : decodeOp op = .reset ↔ op = 0xCF := by
  revert op; decide +kernel
theorem decodeOp_unknown : decodeOp op = .unknown ↔ op ∉ namedOpcodes := by
  revert op; decide +kernel
end

/-- The opcode of a well-formed `Unknown` is named by no row and is no idle filler (R56, R61). -/
theorem wellFormed_unknown {ctx : FrameContext} {op : Byte} (h : WellFormed ctx (.unknown op) = true) :
    decodeOp op = .unknown ∧ isIdleFiller ctx op = false := by
  simp only [WellFormed, unknownOpcode, Bool.and_eq_true, Bool.not_eq_true'] at h
  exact ⟨decodeOp_unknown.mpr fun hm => by simp [hm] at h, h.2⟩

/-- The frame is as long as the opcode and the context say (R62), whatever its operands. -/
theorem encode_length {ctx : FrameContext} {i : Instr} (h : WellFormed ctx i = true) :
    (encode ctx i).length = frameLength ctx i.opcode := by
  rcases ctx with ⟨c, dr, sk⟩
  cases i with
  | unknown op =>
    obtain ⟨hop, hi⟩ := wellFormed_unknown h
    simp [encode, Instr.cmdBytes, Instr.body, Instr.crc, Instr.dummies, frameLength, Instr.opcode, hop, hi,
      Opcode.format, FrameFormat.length]; omega
  | idleSkip =>
    have hs : sk = true := h
    simp [encode, Instr.cmdBytes, Instr.body, Instr.crc, Instr.dummies, frameLength, Instr.opcode, isIdleFiller, hs]
  | terminate =>
    simp [encode, Instr.cmdBytes, Instr.body, Instr.crc, Instr.dummies, frameLength, Instr.opcode, isIdleFiller,
      decodeOp, Opcode.format, FrameFormat.length]; omega
  | repeatCmd =>
    simp [encode, Instr.cmdBytes, Instr.body, Instr.crc, Instr.dummies, frameLength, Instr.opcode, isIdleFiller,
      decodeOp, Opcode.format, FrameFormat.length]; omega
  | reset =>
    simp [encode, Instr.cmdBytes, Instr.body, Instr.crc, Instr.dummies, frameLength, Instr.opcode, isIdleFiller,
      decodeOp, Opcode.format, FrameFormat.length]
  | _ =>
    rename_i crc
    cases c <;> cases crc <;> simp [WellFormed, Instr.isReadWrite, Instr.crc] at h <;>
      simp [encode, Instr.cmdBytes, Instr.body, Instr.crc, Instr.dummies, frameLength, Instr.opcode, isIdleFiller,
        decodeOp, Opcode.format, FrameFormat.length]

end Sys2Proof
end

