-- ==== Sys2Proof/Laws/Memory.lean ====
section
/-! SUPPORT. The laws of the Memory Map: a byte reads back what was stored, every other byte is left alone, and
every operation keeps the canonical form and stays inside the regions. -/

namespace Sys2Proof.Machine

/-! ### One byte of one buffer -/

theorem Buffer.wf_nil : Buffer.wf [] := ⟨.nil, by simp⟩

theorem Buffer.wf_tail {k : Nat} {v : Byte} {b : Buffer} (h : Buffer.wf ((k, v) :: b)) : Buffer.wf b :=
  ⟨(List.pairwise_cons.mp h.1).2, fun c hc => h.2 c (List.mem_cons_of_mem _ hc)⟩

/-- The listed offsets of a canonical buffer all lie above the first. -/
theorem Buffer.lt_of_mem {k : Nat} {v : Byte} {b : Buffer} (h : Buffer.wf ((k, v) :: b)) {c : Host.Cell}
    (hc : c ∈ b) : k < c.1 := (List.pairwise_cons.mp h.1).1 c hc

theorem Buffer.get_eq_zero {b : Buffer} {o : Nat} (h : ∀ c ∈ b, c.1 ≠ o) : b.get o = 0 := by
  induction b with
  | nil => rfl
  | cons c b ih =>
    obtain ⟨k, v⟩ := c
    have hk : k ≠ o := h (k, v) (by simp)
    simp [Buffer.get, hk, ih fun c hc => h c (by simp [hc])]

/-- The offsets a store lists are those listed before and the one stored to. -/
theorem Buffer.mem_set {b : Buffer} {o : Nat} {v : Byte} {c : Host.Cell} (hc : c ∈ b.set o v) :
    c ∈ b ∨ (c = (o, v) ∧ v ≠ 0) := by
  induction b with
  | nil => by_cases hv : v = 0 <;> simp_all [Buffer.set]
  | cons d b ih =>
    obtain ⟨k, w⟩ := d
    simp only [Buffer.set] at hc
    split_ifs at hc <;> grind

theorem Buffer.set_wf {b : Buffer} (h : b.wf) (o : Nat) (v : Byte) : (b.set o v).wf := by
  induction b with
  | nil => by_cases hv : v = 0 <;> simp_all [Buffer.set, Buffer.wf]
  | cons d b ih =>
    obtain ⟨k, w⟩ := d
    have hb := ih (Buffer.wf_tail h)
    simp only [Buffer.set]
    split_ifs with h1 h2 h3 h4
    · exact h
    · refine ⟨List.pairwise_cons.mpr ⟨?_, h.1⟩, ?_⟩
      · intro c hc
        rcases List.mem_cons.mp hc with rfl | hc
        · exact h1
        · exact h1.trans (Buffer.lt_of_mem h hc)
      · intro c hc
        rcases List.mem_cons.mp hc with rfl | hc
        · exact h2
        · exact h.2 c hc
    · exact Buffer.wf_tail h
    · subst h3
      refine ⟨List.pairwise_cons.mpr ⟨fun c hc => Buffer.lt_of_mem h hc, (Buffer.wf_tail h).1⟩, ?_⟩
      intro c hc
      rcases List.mem_cons.mp hc with rfl | hc
      · exact h4
      · exact (Buffer.wf_tail h).2 c hc
    · refine ⟨List.pairwise_cons.mpr ⟨?_, hb.1⟩, ?_⟩
      · intro c hc
        rcases Buffer.mem_set hc with hc | ⟨rfl, -⟩
        · exact Buffer.lt_of_mem h hc
        · dsimp only; omega
      · intro c hc
        rcases List.mem_cons.mp hc with rfl | hc
        · exact h.2 _ (by simp)
        · exact hb.2 c hc

@[simp] theorem Buffer.get_set_same {b : Buffer} (h : b.wf) (o : Nat) (v : Byte) : (b.set o v).get o = v := by
  induction b with
  | nil => by_cases hv : v = 0#8 <;> simp [Buffer.set, Buffer.get, hv]
  | cons d b ih =>
    obtain ⟨k, w⟩ := d
    have above : ∀ c ∈ b, c.1 ≠ o ∨ o ≤ k → c.1 ≠ o := fun c hc _ => by
      have := Buffer.lt_of_mem h hc; omega
    simp only [Buffer.set]
    split_ifs with h1 h2 h3 h4
    · rw [h2]
      exact Buffer.get_eq_zero fun c hc => by
        rcases List.mem_cons.mp hc with rfl | hc
        · dsimp only; omega
        · have := Buffer.lt_of_mem h hc; omega
    · simp [Buffer.get]
    · rw [h4]
      exact Buffer.get_eq_zero fun c hc => by have := Buffer.lt_of_mem h hc; omega
    · simp [Buffer.get]
    · have hk : ¬ k = o := fun e => h3 e.symm
      simpa [Buffer.get, hk] using ih (Buffer.wf_tail h)

theorem Buffer.get_set_other {b : Buffer} {o o' : Nat} (v : Byte) (h : o' ≠ o) :
    (b.set o v).get o' = b.get o' := by
  induction b with
  | nil => by_cases hv : v = 0#8 <;> simp [Buffer.set, Buffer.get, hv, h.symm]
  | cons d b ih =>
    obtain ⟨k, w⟩ := d
    simp only [Buffer.set]
    split_ifs with h1 h2 h3 h4
    · rfl
    · simp [Buffer.get, h.symm]
    · subst h3; simp [Buffer.get, h.symm]
    · subst h3; simp [Buffer.get, h.symm]
    · simp [Buffer.get, ih]

/-! ### Runs of bytes of one buffer -/

@[simp] theorem Buffer.slice_length (b : Buffer) (o n : Nat) : (b.slice o n).length = n := by
  induction n generalizing o with
  | zero => rfl
  | succ n ih => simp [Buffer.slice, ih]

/-- The i-th byte of a run is the byte at the i-th offset (R33, R34). -/
theorem Buffer.slice_getElem? {b : Buffer} {o n i : Nat} (h : i < n) :
    (b.slice o n)[i]? = some (b.get (o + i)) := by
  induction n generalizing o i with
  | zero => omega
  | succ n ih =>
    cases i with
    | zero => simp [Buffer.slice]
    | succ i =>
      have : o + (i + 1) = o + 1 + i := by omega
      simp [Buffer.slice, ih (o := o + 1) (i := i) (by omega), this]

theorem Buffer.slice_congr {b b' : Buffer} {o n : Nat} (h : ∀ i, o ≤ i → i < o + n → b.get i = b'.get i) :
    b.slice o n = b'.slice o n := by
  induction n generalizing o with
  | zero => rfl
  | succ n ih =>
    simp only [Buffer.slice]
    rw [h o (by omega) (by omega), ih fun i h1 h2 => h i (by omega) (by omega)]

theorem Buffer.slice_add (b : Buffer) (o m n : Nat) :
    b.slice o (m + n) = b.slice o m ++ b.slice (o + m) n := by
  induction m generalizing o with
  | zero => simp [Buffer.slice]
  | succ m ih =>
    have e : m + 1 + n = (m + n) + 1 := by omega
    have e' : o + (m + 1) = o + 1 + m := by omega
    simp [e, Buffer.slice, ih, e']

theorem Buffer.store_wf {b : Buffer} (h : b.wf) (o : Nat) (d : List Byte) : (b.store o d).wf := by
  induction d generalizing b o with
  | nil => exact h
  | cons v d ih => exact ih (Buffer.set_wf h o v) (o + 1)

theorem Buffer.get_store_other {b : Buffer} {o o' : Nat} {d : List Byte} (h : o' < o ∨ o + d.length ≤ o') :
    (b.store o d).get o' = b.get o' := by
  induction d generalizing b o with
  | nil => rfl
  | cons v d ih =>
    simp only [List.length_cons] at h
    rw [Buffer.store, ih (by omega), Buffer.get_set_other v (by omega)]

/-- Reading back the run that was stored gives the bytes stored (R33). -/
theorem Buffer.slice_store {b : Buffer} (h : b.wf) (o : Nat) (d : List Byte) :
    (b.store o d).slice o d.length = d := by
  induction d generalizing b o with
  | nil => rfl
  | cons v d ih =>
    simp only [List.length_cons, Buffer.slice, Buffer.store]
    rw [Buffer.get_store_other (by omega), Buffer.get_set_same h, ih (Buffer.set_wf h o v)]

theorem Buffer.mem_store {b : Buffer} {o : Nat} {d : List Byte} {c : Host.Cell} (hc : c ∈ b.store o d) :
    c ∈ b ∨ (o ≤ c.1 ∧ c.1 < o + d.length) := by
  induction d generalizing b o with
  | nil => exact .inl hc
  | cons v d ih =>
    rcases ih hc with h | h
    · rcases Buffer.mem_set h with h | ⟨rfl, -⟩
      · exact .inl h
      · exact .inr (by simp)
    · exact .inr (by simp only [List.length_cons]; omega)

/-! ### The five buffers -/

@[simp] theorem Memory.buffer_setBuffer_same (m : Memory) (b : Buffer) (r : Region) :
    (m.setBuffer b r).buffer r = b := by cases r <;> rfl

theorem Memory.buffer_setBuffer_other (m : Memory) (b : Buffer) {r r' : Region} (h : r' ≠ r) :
    (m.setBuffer b r).buffer r' = m.buffer r' := by cases r <;> cases r' <;> first | rfl | exact absurd rfl h

theorem Memory.wf_iff (m : Memory) : m.wf ↔ ∀ r, (m.buffer r).wf := by
  constructor
  · rintro ⟨h1, h2, h3, h4, h5⟩ r
    cases r <;> assumption
  · exact fun h => ⟨h .low, h .periph, h .spictl, h .bootrom, h .general⟩

theorem Memory.fits_iff (cfg : Config) (m : Memory) :
    m.fits cfg ↔ ∀ r, ∀ c ∈ m.buffer r, c.1 < (cfg.span r).length := by
  constructor
  · rintro ⟨h1, h2, h3, h4, h5⟩ r
    cases r <;> assumption
  · exact fun h => ⟨h .low, h .periph, h .spictl, h .bootrom, h .general⟩

theorem Memory.zeroed_wf : Memory.zeroed.wf := by decide

theorem Memory.zeroed_fits (cfg : Config) : Memory.zeroed.fits cfg := by simp [Memory.zeroed, Memory.fits]

@[simp] theorem Memory.zeroed_get (r : Region) (o : Nat) : (Memory.zeroed.buffer r).get o = 0 := by
  cases r <;> rfl

/-! ### Resolution -/

/-- A resolved range lies inside the one region it names (R32). -/
theorem resolve_range {cfg : Config} {a n : Nat} {r : Region} {o k : Nat} (h : resolve cfg a n = .range r o k) :
    k = n ∧ (cfg.span r).base ≤ a ∧ a < (cfg.span r).base + (cfg.span r).length ∧
      o = a - (cfg.span r).base ∧ a + n ≤ (cfg.span r).base + (cfg.span r).length := by
  unfold resolve at h
  generalize regionPriority = rs at h
  induction rs with
  | nil => simp [resolveAmong] at h
  | cons r' rs ih =>
    simp only [resolveAmong] at h
    split_ifs at h with h1 h2
    · simp only [Resolution.range.injEq] at h
      obtain ⟨rfl, rfl, rfl⟩ := h
      exact ⟨rfl, h1.1, h1.2, rfl, h2⟩
    · exact ih h

/-- A shorter range from the same start resolves in the same region. -/
theorem resolve_mono {cfg : Config} {a n k : Nat} {r : Region} {o : Nat} (h : resolve cfg a n = .range r o n)
    (hk : k ≤ n) : resolve cfg a k = .range r o k := by
  unfold resolve at *
  generalize regionPriority = rs at *
  induction rs with
  | nil => simp [resolveAmong] at h
  | cons r' rs ih =>
    simp only [resolveAmong] at *
    split_ifs at h with h1 h2
    · simp only [Resolution.range.injEq] at h
      obtain ⟨rfl, rfl, -⟩ := h
      simp [h1, show a + k ≤ (cfg.span r').base + (cfg.span r').length by omega]
    · simp [h1, ih h]

/-! ### `MemRead`, `MemWrite` (R33) -/

theorem Memory.read_eq_none {cfg : Config} {m : Memory} {a n : Nat} :
    m.read cfg a n = none ↔ resolve cfg a n = .outOfRange := by
  cases h : resolve cfg a n <;> simp [Memory.read, h]

theorem Memory.write_eq_none {cfg : Config} {m : Memory} {a : Nat} {d : List Byte} :
    m.write cfg a d = none ↔ resolve cfg a d.length = .outOfRange := by
  cases h : resolve cfg a d.length <;> simp [Memory.write, h]

theorem Memory.read_length {cfg : Config} {m : Memory} {a n : Nat} {d : List Byte}
    (h : m.read cfg a n = some d) : d.length = n := by
  cases hr : resolve cfg a n with
  | outOfRange => simp [Memory.read, hr] at h
  | range r o k =>
    have hk := (resolve_range hr).1
    subst hk
    have hd : (m.buffer r).slice o k = d := by simpa [Memory.read, hr] using h
    simp [← hd]

/-- Everything a store can do: the bytes of one resolved range of one buffer are replaced. -/
theorem Memory.write_some {cfg : Config} {m m' : Memory} {a : Nat} {d : List Byte}
    (h : m.write cfg a d = some m') :
    ∃ r o, resolve cfg a d.length = .range r o d.length ∧ m' = m.setBuffer ((m.buffer r).store o d) r := by
  cases hr : resolve cfg a d.length with
  | outOfRange => simp [Memory.write, hr] at h
  | range r o k =>
    have hk := (resolve_range hr).1
    subst hk
    exact ⟨r, o, rfl, by simpa [Memory.write, hr] using h.symm⟩

theorem Memory.write_wf {cfg : Config} {m m' : Memory} {a : Nat} {d : List Byte} (hm : m.wf)
    (h : m.write cfg a d = some m') : m'.wf := by
  obtain ⟨r, o, -, rfl⟩ := Memory.write_some h
  rw [Memory.wf_iff] at *
  intro r'
  by_cases hr : r' = r
  · subst hr; simpa using Buffer.store_wf (hm r') o d
  · rw [Memory.buffer_setBuffer_other _ _ hr]; exact hm r'

theorem Memory.write_fits {cfg : Config} {m m' : Memory} {a : Nat} {d : List Byte} (hm : m.fits cfg)
    (h : m.write cfg a d = some m') : m'.fits cfg := by
  obtain ⟨r, o, hr, rfl⟩ := Memory.write_some h
  rw [Memory.fits_iff] at *
  intro r' c hc
  by_cases hrr : r' = r
  · subst hrr
    rw [Memory.buffer_setBuffer_same] at hc
    rcases Buffer.mem_store hc with hc | ⟨_, h2⟩
    · exact hm r' c hc
    · have := resolve_range hr
      omega
  · rw [Memory.buffer_setBuffer_other _ _ hrr] at hc
    exact hm r' c hc

/-- A store leaves every byte outside its resolved range alone. -/
theorem Memory.write_get_other {cfg : Config} {m m' : Memory} {a : Nat} {d : List Byte} {r : Region} {o : Nat}
    (h : m.write cfg a d = some m') (hr : resolve cfg a d.length = .range r o d.length) {r' : Region}
    {o' : Nat} (ho : r' ≠ r ∨ o' < o ∨ o + d.length ≤ o') :
    (m'.buffer r').get o' = (m.buffer r').get o' := by
  obtain ⟨r1, o1, hr1, rfl⟩ := Memory.write_some h
  simp only [hr, Resolution.range.injEq] at hr1
  obtain ⟨rfl, rfl, -⟩ := hr1
  by_cases hrr : r' = r
  · subst hrr
    rw [Memory.buffer_setBuffer_same, Buffer.get_store_other (by simpa using ho)]
  · rw [Memory.buffer_setBuffer_other _ _ hrr]

/-- What was stored reads back (R33). -/
theorem Memory.read_write {cfg : Config} {m m' : Memory} {a : Nat} {d : List Byte} (hm : m.wf)
    (h : m.write cfg a d = some m') : m'.read cfg a d.length = some d := by
  obtain ⟨r, o, hr, rfl⟩ := Memory.write_some h
  simp [Memory.read, hr, Buffer.slice_store ((Memory.wf_iff m).mp hm r)]

/-- The byte at an address outside the stored addresses reads as before, whatever regions overlap there. -/
theorem Memory.byteAt_write_other {cfg : Config} {m m' : Memory} {a : Nat} {d : List Byte}
    (h : m.write cfg a d = some m') {x : Nat} (hx : x < a ∨ a + d.length ≤ x) :
    m'.byteAt cfg x = m.byteAt cfg x := by
  obtain ⟨r, o, hr, -⟩ := Memory.write_some h
  cases hx' : resolve cfg x 1 with
  | outOfRange => simp [Memory.byteAt, Memory.read, hx']
  | range r1 o1 k =>
    obtain ⟨rfl, h1, h2, h3, h4⟩ := resolve_range hx'
    obtain ⟨-, g1, g2, g3, g4⟩ := resolve_range hr
    have : (m'.buffer r1).get o1 = (m.buffer r1).get o1 := by
      refine Memory.write_get_other h hr ?_
      by_cases hrr : r1 = r
      · subst hrr; right; omega
      · exact .inl hrr
    simp [Memory.byteAt, Memory.read, hx', Buffer.slice, this]

theorem Memory.applyImage_wf {cfg : Config} (l : List (Nat × List Byte)) {m : Memory} (hm : m.wf) :
    (Memory.applyImage cfg l m).wf := by
  induction l generalizing m with
  | nil => exact hm
  | cons e l ih =>
    obtain ⟨a, d⟩ := e
    simp only [Memory.applyImage]
    apply ih
    cases h : m.write cfg a d with
    | none => exact hm
    | some m' => exact Memory.write_wf hm h

theorem Memory.applyImage_fits {cfg : Config} (l : List (Nat × List Byte)) {m : Memory} (hm : m.fits cfg) :
    (Memory.applyImage cfg l m).fits cfg := by
  induction l generalizing m with
  | nil => exact hm
  | cons e l ih =>
    obtain ⟨a, d⟩ := e
    simp only [Memory.applyImage]
    apply ih
    cases h : m.write cfg a d with
    | none => exact hm
    | some m' => exact Memory.write_fits hm h

end Sys2Proof.Machine
end

