-- ==== Sys2Proof/Laws/State.lean ====
section
/-! SUPPORT. One lemma for each field after each update of State, so that no later proof unfolds a record
update, and for the operations with several outcomes one lemma that says everything they can do. -/

namespace Sys2Proof.Machine

variable (s : State)

/-! ### `State.emit` -/

@[simp] theorem State.emit_cfg (e : Event) : (s.emit e).cfg = s.cfg := rfl
@[simp] theorem State.emit_phase (e : Event) : (s.emit e).phase = s.phase := rfl
@[simp] theorem State.emit_crcEnabled (e : Event) : (s.emit e).crcEnabled = s.crcEnabled := rfl
@[simp] theorem State.emit_resetPending (e : Event) : (s.emit e).resetPending = s.resetPending := rfl
@[simp] theorem State.emit_cmd (e : Event) : (s.emit e).cmd = s.cmd := rfl
@[simp] theorem State.emit_respOe (e : Event) : (s.emit e).respOe = s.respOe := rfl
@[simp] theorem State.emit_mem (e : Event) : (s.emit e).mem = s.mem := rfl
@[simp] theorem State.emit_queue (e : Event) : (s.emit e).queue = s.queue := rfl
@[simp] theorem State.emit_inbox (e : Event) : (s.emit e).inbox = s.inbox := rfl
@[simp] theorem State.emit_trace (e : Event) : (s.emit e).trace = s.trace ++ [e] := rfl

/-! ### `State.drive` -/

@[simp] theorem State.drive_cfg (on : Bool) : (s.drive on).cfg = s.cfg := rfl
@[simp] theorem State.drive_phase (on : Bool) : (s.drive on).phase = s.phase := rfl
@[simp] theorem State.drive_crcEnabled (on : Bool) : (s.drive on).crcEnabled = s.crcEnabled := rfl
@[simp] theorem State.drive_resetPending (on : Bool) : (s.drive on).resetPending = s.resetPending := rfl
@[simp] theorem State.drive_cmd (on : Bool) : (s.drive on).cmd = s.cmd := rfl
@[simp] theorem State.drive_respOe (on : Bool) : (s.drive on).respOe = on := rfl
@[simp] theorem State.drive_mem (on : Bool) : (s.drive on).mem = s.mem := rfl
@[simp] theorem State.drive_queue (on : Bool) : (s.drive on).queue = s.queue := rfl
@[simp] theorem State.drive_inbox (on : Bool) : (s.drive on).inbox = s.inbox := rfl
@[simp] theorem State.drive_trace (on : Bool) : (s.drive on).trace = s.trace := rfl

/-! ### `State.busRead` -/

@[simp] theorem State.busRead_cfg (b : Byte) : (s.busRead b).cfg = s.cfg := rfl
@[simp] theorem State.busRead_phase (b : Byte) : (s.busRead b).phase = s.phase := rfl
@[simp] theorem State.busRead_crcEnabled (b : Byte) : (s.busRead b).crcEnabled = s.crcEnabled := rfl
@[simp] theorem State.busRead_resetPending (b : Byte) : (s.busRead b).resetPending = s.resetPending := rfl
@[simp] theorem State.busRead_cmd (b : Byte) : (s.busRead b).cmd = s.cmd := rfl
@[simp] theorem State.busRead_respOe (b : Byte) : (s.busRead b).respOe = false := rfl
@[simp] theorem State.busRead_mem (b : Byte) : (s.busRead b).mem = s.mem := rfl
@[simp] theorem State.busRead_queue (b : Byte) : (s.busRead b).queue = s.queue := rfl
@[simp] theorem State.busRead_inbox (b : Byte) : (s.busRead b).inbox = s.inbox := rfl
@[simp] theorem State.busRead_trace (b : Byte) : (s.busRead b).trace = s.trace ++ [.rx b] := rfl

/-! ### `State.busWrite` -/

@[simp] theorem State.busWrite_cfg (b : Byte) : (s.busWrite b).cfg = s.cfg := rfl
@[simp] theorem State.busWrite_phase (b : Byte) : (s.busWrite b).phase = s.phase := rfl
@[simp] theorem State.busWrite_crcEnabled (b : Byte) : (s.busWrite b).crcEnabled = s.crcEnabled := rfl
@[simp] theorem State.busWrite_resetPending (b : Byte) : (s.busWrite b).resetPending = s.resetPending := rfl
@[simp] theorem State.busWrite_cmd (b : Byte) : (s.busWrite b).cmd = s.cmd := rfl
@[simp] theorem State.busWrite_respOe (b : Byte) : (s.busWrite b).respOe = false := rfl
@[simp] theorem State.busWrite_mem (b : Byte) : (s.busWrite b).mem = s.mem := rfl
@[simp] theorem State.busWrite_queue (b : Byte) : (s.busWrite b).queue = s.queue := rfl
@[simp] theorem State.busWrite_inbox (b : Byte) : (s.busWrite b).inbox = s.inbox := rfl
@[simp] theorem State.busWrite_trace (b : Byte) : (s.busWrite b).trace = s.trace ++ [.tx b] := rfl

/-! ### `State.raise` -/

@[simp] theorem State.raise_cfg (k : ErrorKind) : (s.raise k).cfg = s.cfg := rfl
@[simp] theorem State.raise_phase (k : ErrorKind) : (s.raise k).phase = s.phase := rfl
@[simp] theorem State.raise_crcEnabled (k : ErrorKind) : (s.raise k).crcEnabled = s.crcEnabled := rfl
@[simp] theorem State.raise_resetPending (k : ErrorKind) : (s.raise k).resetPending = s.resetPending := rfl
@[simp] theorem State.raise_cmd (k : ErrorKind) : (s.raise k).cmd = s.cmd := rfl
@[simp] theorem State.raise_respOe (k : ErrorKind) : (s.raise k).respOe = s.respOe := rfl
@[simp] theorem State.raise_mem (k : ErrorKind) : (s.raise k).mem = s.mem := rfl
@[simp] theorem State.raise_queue (k : ErrorKind) : (s.raise k).queue = s.queue := rfl
@[simp] theorem State.raise_inbox (k : ErrorKind) : (s.raise k).inbox = s.inbox := rfl
@[simp] theorem State.raise_trace (k : ErrorKind) : (s.raise k).trace = s.trace ++ [.diag k] := rfl

/-! ### `State.finish` -/

@[simp] theorem State.finish_cfg : (s.finish).cfg = s.cfg := rfl
@[simp] theorem State.finish_phase : (s.finish).phase = .awaitOpcode := rfl
@[simp] theorem State.finish_crcEnabled : (s.finish).crcEnabled = s.crcEnabled := rfl
@[simp] theorem State.finish_resetPending : (s.finish).resetPending = s.resetPending := rfl
@[simp] theorem State.finish_cmd : (s.finish).cmd = none := rfl
@[simp] theorem State.finish_respOe : (s.finish).respOe = s.respOe := rfl
@[simp] theorem State.finish_mem : (s.finish).mem = s.mem := rfl
@[simp] theorem State.finish_queue : (s.finish).queue = s.queue := rfl
@[simp] theorem State.finish_inbox : (s.finish).inbox = s.inbox := rfl
@[simp] theorem State.finish_trace : (s.finish).trace = s.trace := rfl

/-! ### `State.respond` -/

@[simp] theorem State.respond_cfg (c : Command) (st : Byte) (r : List Byte) :
    (s.respond c st r).cfg = s.cfg := rfl
@[simp] theorem State.respond_phase (c : Command) (st : Byte) (r : List Byte) :
    (s.respond c st r).phase = .writeResponse := rfl
@[simp] theorem State.respond_crcEnabled (c : Command) (st : Byte) (r : List Byte) :
    (s.respond c st r).crcEnabled = s.crcEnabled := rfl
@[simp] theorem State.respond_resetPending (c : Command) (st : Byte) (r : List Byte) :
    (s.respond c st r).resetPending = s.resetPending := rfl
@[simp] theorem State.respond_cmd (c : Command) (st : Byte) (r : List Byte) :
    (s.respond c st r).cmd = some { c with status := st, txQueue := c.op :: st :: r } := rfl
@[simp] theorem State.respond_respOe (c : Command) (st : Byte) (r : List Byte) :
    (s.respond c st r).respOe = s.respOe := rfl
@[simp] theorem State.respond_mem (c : Command) (st : Byte) (r : List Byte) :
    (s.respond c st r).mem = s.mem := rfl
@[simp] theorem State.respond_queue (c : Command) (st : Byte) (r : List Byte) :
    (s.respond c st r).queue = s.queue := rfl
@[simp] theorem State.respond_inbox (c : Command) (st : Byte) (r : List Byte) :
    (s.respond c st r).inbox = s.inbox := rfl
@[simp] theorem State.respond_trace (c : Command) (st : Byte) (r : List Byte) :
    (s.respond c st r).trace = s.trace := rfl

/-! ### `State.respondZero` -/

@[simp] theorem State.respondZero_cfg (c : Command) (n : Nat) : (s.respondZero c n).cfg = s.cfg := rfl
@[simp] theorem State.respondZero_phase (c : Command) (n : Nat) :
    (s.respondZero c n).phase = .writeResponse := rfl
@[simp] theorem State.respondZero_crcEnabled (c : Command) (n : Nat) :
    (s.respondZero c n).crcEnabled = s.crcEnabled := rfl
@[simp] theorem State.respondZero_resetPending (c : Command) (n : Nat) :
    (s.respondZero c n).resetPending = s.resetPending := rfl
@[simp] theorem State.respondZero_cmd (c : Command) (n : Nat) :
    (s.respondZero c n).cmd = some { c with txQueue := zeros n } := rfl
@[simp] theorem State.respondZero_respOe (c : Command) (n : Nat) : (s.respondZero c n).respOe = s.respOe := rfl
@[simp] theorem State.respondZero_mem (c : Command) (n : Nat) : (s.respondZero c n).mem = s.mem := rfl
@[simp] theorem State.respondZero_queue (c : Command) (n : Nat) : (s.respondZero c n).queue = s.queue := rfl
@[simp] theorem State.respondZero_inbox (c : Command) (n : Nat) : (s.respondZero c n).inbox = s.inbox := rfl
@[simp] theorem State.respondZero_trace (c : Command) (n : Nat) : (s.respondZero c n).trace = s.trace := rfl

/-! ### `State.environment`: the environment agent reaches the Memory Map and the queue only (R42) -/

@[simp] theorem State.environment_cfg (e : EnvStep) : (s.environment e).cfg = s.cfg := by cases e <;> rfl
@[simp] theorem State.environment_phase (e : EnvStep) : (s.environment e).phase = s.phase := by cases e <;> rfl
@[simp] theorem State.environment_crcEnabled (e : EnvStep) : (s.environment e).crcEnabled = s.crcEnabled := by cases e <;> rfl
@[simp] theorem State.environment_resetPending (e : EnvStep) : (s.environment e).resetPending = s.resetPending := by cases e <;> rfl
@[simp] theorem State.environment_cmd (e : EnvStep) : (s.environment e).cmd = s.cmd := by cases e <;> rfl
@[simp] theorem State.environment_respOe (e : EnvStep) : (s.environment e).respOe = s.respOe := by cases e <;> rfl
@[simp] theorem State.environment_inbox (e : EnvStep) : (s.environment e).inbox = s.inbox := by cases e <;> rfl
@[simp] theorem State.environment_trace (e : EnvStep) : (s.environment e).trace = s.trace := by cases e <;> rfl

@[simp] theorem State.environment_read (a n : Nat) : s.environment (.read a n) = s := rfl

theorem State.environment_mem (e : EnvStep) :
    (s.environment e).mem = s.mem ∨
      ∃ a bytes, e = .write a bytes ∧ s.mem.write s.cfg a bytes = some (s.environment e).mem := by
  cases e with
  | read a n => exact .inl rfl
  | popQueue => exact .inl rfl
  | write a bytes =>
    cases h : s.mem.write s.cfg a bytes with
    | none => exact .inl (by simp [State.environment, h])
    | some m => exact .inr ⟨a, bytes, rfl, by simp [State.environment, h]⟩

theorem State.environment_queue (e : EnvStep) :
    (s.environment e).queue = s.queue ∨ (s.environment e).queue = s.queue.tail := by
  cases e <;> simp [State.environment]

/-! ### `State.notify` -/

/-- Everything `Notify` can do: queue the address, or drop it when the queue is full (R160, R154). -/
theorem State.notify_cases (a : Addr) :
    (s.queue.length < s.cfg.notifyCap ∧
      s.notify a = { s with queue := s.queue ++ [a], trace := s.trace ++ [.notify a] }) ∨
    (s.cfg.notifyCap ≤ s.queue.length ∧
      s.notify a = { s with trace := s.trace ++ [.drop a, .diag (.queueOverflow a)] }) := by
  by_cases h : s.queue.length < s.cfg.notifyCap
  · exact .inl ⟨h, by simp [State.notify, h, State.emit]⟩
  · exact .inr ⟨by omega, by simp [State.notify, h, State.emit, State.raise]⟩

/-! ### `State.memRead`, `State.memWrite` -/

theorem State.memRead_eq_some {s : State} {a n : Nat} {d : List Byte} {s' : State} :
    s.memRead a n = some (d, s') ↔ s.mem.read s.cfg a n = some d ∧ s' = s.emit (.memRd a d) := by
  simp [State.memRead]
  grind

theorem State.memRead_eq_none {s : State} {a n : Nat} :
    s.memRead a n = none ↔ resolve s.cfg a n = .outOfRange := by
  cases h : resolve s.cfg a n <;> simp [State.memRead, Memory.read, h]

theorem State.memWrite_eq_some {s : State} {a : Nat} {d : List Byte} {s' : State} :
    s.memWrite a d = some s' ↔
      ∃ m, s.mem.write s.cfg a d = some m ∧ s' = { s with mem := m, trace := s.trace ++ [.memWr a d] } := by
  simp [State.memWrite, State.emit]
  grind

theorem State.memWrite_eq_none {s : State} {a : Nat} {d : List Byte} :
    s.memWrite a d = none ↔ resolve s.cfg a d.length = .outOfRange := by
  cases h : resolve s.cfg a d.length <;> simp [State.memWrite, Memory.write, h]

end Sys2Proof.Machine
end

