-- ==== Sys2Proof/Laws/Transaction.lean ====
section
/-! SUPPORT. What the shared operations of a transaction can do, each said once: the two chunk operations, the
work between two byte times, one byte time, and the run against the schedule, with an induction principle for the
run and lemmas for a response that is sent to its end. -/

namespace Sys2Proof.Machine

variable {s : State} {c : Command}

/-! ### Chunks of a DMA read -/

/-- Everything `readChunk` can do: zeros and no memory access, or the chunk's bytes of the buffer in which the
whole range resolves, with one `MemRd` event (R124). -/
theorem State.readChunk_cases (c : Command) (s : State) :
    (resolve s.cfg c.addr.toNat c.size.toNat = .outOfRange ∧
      s.readChunk c = (zeros (c.chunkLength s.cfg), s)) ∨
    ∃ r o d, resolve s.cfg c.addr.toNat c.size.toNat = .range r o c.size.toNat ∧
      d = (s.mem.buffer r).slice (o + c.offset) (c.chunkLength s.cfg) ∧
      s.readChunk c = (d, s.emit (.memRd (c.addr.toNat + c.offset) d)) := by
  cases h : resolve s.cfg c.addr.toNat c.size.toNat with
  | outOfRange => exact .inl ⟨rfl, by simp [State.readChunk, h]⟩
  | range r o k =>
    obtain rfl := (resolve_range h).1
    exact .inr ⟨r, o, _, rfl, rfl, by simp [State.readChunk, h]⟩

@[simp] theorem State.readChunk_length (c : Command) (s : State) :
    (s.readChunk c).1.length = c.chunkLength s.cfg := by
  rcases State.readChunk_cases c s with ⟨-, h⟩ | ⟨r, o, d, -, rfl, h⟩ <;> simp [h]

/-- Everything `sendChunk` can do: it composes one chunk frame and moves `offset` past the chunk; the state
changes in `cmd` and `trace` only. -/
theorem State.sendChunk_eq (c : Command) (s : State) :
    ∃ d evs, d.length = c.chunkLength s.cfg ∧
      (evs = [] ∨ evs = [.memRd (c.addr.toNat + c.offset) d]) ∧
      s.readChunk c = (d, { s with trace := s.trace ++ evs }) ∧
      s.sendChunk c = { s with
        trace := s.trace ++ evs
        cmd := some { c with
          offset := c.offset + c.chunkLength s.cfg
          txQueue :=
            chunkMarker (c.chunkIndex s.cfg) (chunkCount s.cfg.maxChunk c.size.toNat) ::
              (d ++ dataChecksum s.cfg s.crcEnabled d) } } := by
  rcases State.readChunk_cases c s with ⟨-, h⟩ | ⟨r, o, d, -, hd, h⟩
  · exact ⟨zeros (c.chunkLength s.cfg), [], by simp, .inl rfl, by simp [h], by simp [State.sendChunk, h]⟩
  · exact ⟨d, [.memRd (c.addr.toNat + c.offset) d], by simp [hd], .inr rfl, by simp [h, State.emit], by simp [State.sendChunk, h, State.emit]⟩

/-! ### Chunks of a DMA write -/

/-- Everything `storeChunk` can do: the chunk is ignored, or stored, or discarded (R125). -/
theorem State.storeChunk_cases (c : Command) (d : List Byte) (good : Bool) (s : State) :
    (c.cmdCrcOk = false ∧ s.storeChunk c d good = (c.errSeen, s)) ∨
    (c.cmdCrcOk = true ∧ good = false ∧ s.storeChunk c d good = (c.errSeen, s.raise .crcMismatch)) ∨
    (c.cmdCrcOk = true ∧ good = true ∧ ∃ m, s.mem.write s.cfg (c.addr.toNat + c.offset) d = some m ∧
      s.storeChunk c d good = (c.errSeen,
        { s with mem := m, trace := s.trace ++ [.memWr (c.addr.toNat + c.offset) d] })) ∨
    (c.cmdCrcOk = true ∧ good = true ∧ s.mem.write s.cfg (c.addr.toNat + c.offset) d = none ∧
      s.storeChunk c d good = (true, s.raise (.outOfRange (c.addr.toNat + c.offset) d.length))) := by
  unfold State.storeChunk
  cases c.cmdCrcOk <;> cases good <;> simp
  cases h : s.mem.write s.cfg (c.addr.toNat + c.offset) d with
  | none => simp [State.memWrite, h]
  | some m => simp [State.memWrite, h, State.emit]

/-- `storeChunk` changes memory and trace only, and memory by at most one store of the chunk. -/
theorem State.storeChunk_frame (c : Command) (d : List Byte) (good : Bool) (s : State) :
    ∃ m evs, (s.storeChunk c d good).2 = { s with mem := m, trace := s.trace ++ evs } ∧
      (m = s.mem ∨ s.mem.write s.cfg (c.addr.toNat + c.offset) d = some m) ∧
      (∀ e ∈ evs, ∀ b, e ≠ .rx b ∧ e ≠ .tx b) := by
  rcases State.storeChunk_cases c d good s with ⟨-, h⟩ | ⟨-, -, h⟩ | ⟨-, -, m, hm, h⟩ | ⟨-, -, -, h⟩
  · exact ⟨s.mem, [], by simp [h], .inl rfl, by simp⟩
  · exact ⟨s.mem, [.diag .crcMismatch], by simp [h, State.raise, State.emit], .inl rfl, by simp⟩
  · exact ⟨m, [.memWr (c.addr.toNat + c.offset) d], by simp [h], .inr hm, by simp⟩
  · exact ⟨s.mem, [.diag (.outOfRange (c.addr.toNat + c.offset) d.length)], by simp [h, State.raise, State.emit], .inl rfl, by simp⟩

/-- Everything `takeChunk` can do: memory and trace as `storeChunk` leaves them, and then either the intake of
the next chunk begins or the ACK is composed. -/
theorem State.takeChunk_cases (c : Command) (s : State) :
    ∃ m evs err, (m = s.mem ∨
        s.mem.write s.cfg (c.addr.toNat + c.offset) ((c.intake.drop 1).take (c.chunkLength s.cfg)) = some m) ∧
      (∀ e ∈ evs, ∀ b, e ≠ .rx b ∧ e ≠ .tx b) ∧
      ((c.offset + c.chunkLength s.cfg < c.size.toNat ∧
          s.takeChunk c = { s with
            mem := m, trace := s.trace ++ evs
            cmd := some { c with offset := c.offset + c.chunkLength s.cfg, errSeen := err, intake := [] } }) ∨
        (c.size.toNat ≤ c.offset + c.chunkLength s.cfg ∧
          s.takeChunk c = { s with
            mem := m, trace := s.trace ++ evs, phase := .writeResponse
            cmd := some { c with
              offset := c.offset + c.chunkLength s.cfg, errSeen := err, intake := []
              status := if err then s.cfg.statusErr else statusOk
              txQueue := [c.op, if err then s.cfg.statusErr else statusOk] } })) := by
  obtain ⟨m, evs, h, hm, he⟩ := State.storeChunk_frame c ((c.intake.drop 1).take (c.chunkLength s.cfg))
    (chunkGood s.cfg s.crcEnabled (c.intake.drop 1)) s
  refine ⟨m, evs, (s.storeChunk c ((c.intake.drop 1).take (c.chunkLength s.cfg))
    (chunkGood s.cfg s.crcEnabled (c.intake.drop 1))).1, hm, he, ?_⟩
  by_cases hlt : c.offset + c.chunkLength s.cfg < c.size.toNat
  · exact .inl ⟨hlt, by simp only [State.takeChunk, h, hlt, if_true]⟩
  · exact .inr ⟨by omega, by simp only [State.takeChunk, h, hlt, if_false, State.respond]⟩

/-! ### Work and byte times -/

/-- Everything `work` can do. -/
theorem State.work_cases (s : State) :
    s.work = s ∨
    (∃ c, s.cmd = some c ∧ s.phase = .execute ∧ c.intake.length = c.chunkFrameLength s.cfg s.crcEnabled ∧
      s.work = s.takeChunk c) ∨
    (∃ c, s.cmd = some c ∧ s.phase = .writeResponse ∧ c.txQueue = [] ∧ c.moreChunks = true ∧
      s.work = s.sendChunk c) := by
  unfold State.work
  split
  · exact .inl rfl
  · rename_i c hc
    split
    · exact .inl rfl
    · exact .inl rfl
    · rename_i hp
      split_ifs with h
      · exact .inr (.inl ⟨c, hc, hp, h, rfl⟩)
      · exact .inl rfl
    · rename_i hp
      split_ifs with h
      · simp only [Bool.and_eq_true, List.isEmpty_iff] at h
        exact .inr (.inr ⟨c, hc, hp, h.1, h.2, rfl⟩)
      · exact .inl rfl

/-- What `work` leaves alone, and that it moves no byte on the bus. -/
theorem State.work_frame (s : State) :
    ∃ p k m evs, s.work = { s with phase := p, cmd := k, mem := m, trace := s.trace ++ evs } ∧
      (p = s.phase ∨ (s.phase = .execute ∧ p = .writeResponse)) ∧ (s.cmd = none → k = none) ∧
      (s.cmd ≠ none → k ≠ none) ∧
      (m = s.mem ∨ ∃ c, s.cmd = some c ∧ s.phase = .execute ∧
        s.mem.write s.cfg (c.addr.toNat + c.offset) ((c.intake.drop 1).take (c.chunkLength s.cfg)) = some m) ∧
      (∀ e ∈ evs, ∀ b, e ≠ .rx b ∧ e ≠ .tx b) := by
  rcases State.work_cases s with h | ⟨c, hc, hp, -, h⟩ | ⟨c, hc, hp, -, -, h⟩
  · exact ⟨s.phase, s.cmd, s.mem, [], by simp [h], .inl rfl, id, id, .inl rfl, by simp⟩
  · obtain ⟨m, evs, err, hm, he, ⟨-, h'⟩ | ⟨-, h'⟩⟩ := State.takeChunk_cases c s
    · exact ⟨s.phase, _, m, evs, by rw [h, h'], .inl rfl, by simp [hc], by simp,
        hm.imp_right fun hm => ⟨c, hc, hp, hm⟩, he⟩
    · exact ⟨.writeResponse, _, m, evs, by rw [h, h'], .inr ⟨hp, rfl⟩, by simp [hc], by simp,
        hm.imp_right fun hm => ⟨c, hc, hp, hm⟩, he⟩
  · obtain ⟨d, evs, -, he, -, h'⟩ := State.sendChunk_eq c s
    refine ⟨s.phase, _, s.mem, evs, by rw [h, h'], .inl rfl, by simp [hc], by simp, .inl rfl, ?_⟩
    rcases he with rfl | rfl <;> simp

section
variable (s : State)
@[simp] theorem State.work_cfg : s.work.cfg = s.cfg := by obtain ⟨_, _, _, _, h, -⟩ := s.work_frame; rw [h]
@[simp] theorem State.work_crcEnabled : s.work.crcEnabled = s.crcEnabled := by
  obtain ⟨_, _, _, _, h, -⟩ := s.work_frame; rw [h]
@[simp] theorem State.work_resetPending : s.work.resetPending = s.resetPending := by
  obtain ⟨_, _, _, _, h, -⟩ := s.work_frame; rw [h]
@[simp] theorem State.work_respOe : s.work.respOe = s.respOe := by
  obtain ⟨_, _, _, _, h, -⟩ := s.work_frame; rw [h]
@[simp] theorem State.work_queue : s.work.queue = s.queue := by
  obtain ⟨_, _, _, _, h, -⟩ := s.work_frame; rw [h]
@[simp] theorem State.work_inbox : s.work.inbox = s.inbox := by
  obtain ⟨_, _, _, _, h, -⟩ := s.work_frame; rw [h]
end

/-- Everything one byte time can do. -/
theorem State.byteTime_cases (b : Byte) (s : State) :
    s.byteTime b = s ∨
    (∃ c, s.cmd = some c ∧ s.phase = .execute ∧
      s.byteTime b = { s.busRead b with cmd := some { c with intake := c.intake ++ [b] } }) ∨
    (∃ c r q, s.cmd = some c ∧ s.phase = .writeResponse ∧ c.txQueue = r :: q ∧
      ((q = [] ∧ c.moreChunks = false ∧ s.byteTime b = (s.busWrite r).finish) ∨
        ((q ≠ [] ∨ c.moreChunks = true) ∧
          s.byteTime b = { s.busWrite r with cmd := some { c with txQueue := q } }))) := by
  unfold State.byteTime
  split
  · exact .inl rfl
  · rename_i c hc
    split
    · exact .inl rfl
    · exact .inl rfl
    · rename_i hp
      exact .inr (.inl ⟨c, hc, hp, rfl⟩)
    · rename_i hp
      split
      · exact .inl rfl
      · rename_i r q hq
        refine .inr (.inr ⟨c, r, q, hc, hp, hq, ?_⟩)
        cases q <;> cases hm : c.moreChunks <;> simp

section
variable (b : Byte) (s : State)
@[simp] theorem State.byteTime_cfg : (s.byteTime b).cfg = s.cfg := by
  rcases s.byteTime_cases b with h | ⟨c, -, -, h⟩ | ⟨c, r, q, -, -, -, ⟨-, -, h⟩ | ⟨-, h⟩⟩ <;> simp [h]
@[simp] theorem State.byteTime_crcEnabled : (s.byteTime b).crcEnabled = s.crcEnabled := by
  rcases s.byteTime_cases b with h | ⟨c, -, -, h⟩ | ⟨c, r, q, -, -, -, ⟨-, -, h⟩ | ⟨-, h⟩⟩ <;> simp [h]
@[simp] theorem State.byteTime_resetPending : (s.byteTime b).resetPending = s.resetPending := by
  rcases s.byteTime_cases b with h | ⟨c, -, -, h⟩ | ⟨c, r, q, -, -, -, ⟨-, -, h⟩ | ⟨-, h⟩⟩ <;> simp [h]
@[simp] theorem State.byteTime_mem : (s.byteTime b).mem = s.mem := by
  rcases s.byteTime_cases b with h | ⟨c, -, -, h⟩ | ⟨c, r, q, -, -, -, ⟨-, -, h⟩ | ⟨-, h⟩⟩ <;> simp [h]
@[simp] theorem State.byteTime_queue : (s.byteTime b).queue = s.queue := by
  rcases s.byteTime_cases b with h | ⟨c, -, -, h⟩ | ⟨c, r, q, -, -, -, ⟨-, -, h⟩ | ⟨-, h⟩⟩ <;> simp [h]
end

/-! ### The run against the schedule -/

/-- The induction over a run, packaged once: what every work, byte time and environment step keeps, and what
does not look at the inbox, the whole run keeps. -/
theorem converse_induction {P : State → Prop} (inbox : ∀ s l, P s → P { s with inbox := l })
    (work : ∀ s, P s → P s.work) (byteTime : ∀ s b, P s → P (s.work.byteTime b))
    (env : ∀ s e, P s → P (s.environment e)) (l : List Stimulus) {s : State} (h : P s) : P (converse l s) := by
  induction l generalizing s with
  | nil => exact inbox _ _ (work _ h)
  | cons st l ih =>
    simp only [converse]
    split_ifs
    · exact inbox _ _ h
    · cases st with
      | clock b => exact ih (byteTime s b h)
      | env e => exact ih (env s e h)
      | turn => exact ih (work s h)

/-- The same over a schedule without environment steps. -/
theorem converse_induction_undisturbed {P : State → Prop} (inbox : ∀ s l, P s → P { s with inbox := l })
    (work : ∀ s, P s → P s.work) (byteTime : ∀ s b, P s → P (s.work.byteTime b)) {l : List Stimulus}
    (hl : ∀ st ∈ l, ∀ e, st ≠ .env e) {s : State} (h : P s) : P (converse l s) := by
  induction l generalizing s with
  | nil => exact inbox _ _ (work _ h)
  | cons st l ih =>
    have hl' : ∀ st ∈ l, ∀ e, st ≠ .env e := fun st hst => hl st (List.mem_cons_of_mem _ hst)
    simp only [converse]
    split_ifs
    · exact inbox _ _ h
    · cases st with
      | clock b => exact ih hl' (byteTime s b h)
      | env e => exact absurd rfl (hl _ (List.mem_cons_self ..) e)
      | turn => exact ih hl' (work s h)

@[simp] theorem converse_cfg (l : List Stimulus) (s : State) : (converse l s).cfg = s.cfg :=
  converse_induction (P := fun t => t.cfg = s.cfg) (fun _ _ h => h) (by simp) (by simp) (by simp) l rfl

@[simp] theorem converse_crcEnabled (l : List Stimulus) (s : State) :
    (converse l s).crcEnabled = s.crcEnabled :=
  converse_induction (P := fun t => t.crcEnabled = s.crcEnabled) (fun _ _ h => h) (by simp) (by simp) (by simp)
    l rfl

@[simp] theorem converse_resetPending (l : List Stimulus) (s : State) :
    (converse l s).resetPending = s.resetPending :=
  converse_induction (P := fun t => t.resetPending = s.resetPending) (fun _ _ h => h) (by simp) (by simp)
    (by simp) l rfl

/-- A finished transaction consumes nothing more of the schedule. -/
theorem converse_finished {l : List Stimulus} {s : State} (hp : s.phase = .awaitOpcode) (hc : s.cmd = none) :
    converse l s = { s with inbox := l } := by
  cases l with
  | nil => simp [converse, State.work, hc]
  | cons st l => simp [converse, hp]

theorem converse_env {l : List Stimulus} {s : State} (hp : s.phase ≠ .awaitOpcode) (e : EnvStep) :
    converse (.env e :: l) s = converse l (s.environment e) := by simp [converse, hp, State.respondTo]

theorem converse_clock {l : List Stimulus} {s : State} (hp : s.phase ≠ .awaitOpcode) (b : Byte) :
    converse (.clock b :: l) s = converse l (s.work.byteTime b) := by simp [converse, hp, State.respondTo]

/-- With response bytes still to send there is no work pending. -/
theorem State.work_of_sending {r : Byte} {q : List Byte} (hp : s.phase = .writeResponse) (hc : s.cmd = some c)
    (hq : c.txQueue = r :: q) : s.work = s := by simp [State.work, hc, hp, hq]

/-- One byte time of a response that has more to send. -/
theorem converse_send_one {l : List Stimulus} {r : Byte} {q : List Byte} (b : Byte)
    (hp : s.phase = .writeResponse) (hc : s.cmd = some c) (hq : c.txQueue = r :: q)
    (hmore : q ≠ [] ∨ c.moreChunks = true) :
    converse (.clock b :: l) s = converse l { s.busWrite r with cmd := some { c with txQueue := q } } := by
  have hn : ¬ (q = [] ∧ c.moreChunks = false) := by rintro ⟨h1, h2⟩; simp [h1, h2] at hmore
  rw [converse_clock (by simp [hp]), State.work_of_sending hp hc hq]
  simp [State.byteTime, hc, hp, hq, hn]

/-- A response of which everything is composed is sent to its last byte, one byte time for each, and the
transaction is over (R74, R75). -/
theorem converse_send {q : List Byte} {bytes : List Byte} {rest : List Stimulus} (hp : s.phase = .writeResponse)
    (hc : s.cmd = some c) (hq : c.txQueue = q) (hne : q ≠ []) (hm : c.moreChunks = false)
    (hb : bytes.length = q.length) :
    converse (bytes.map .clock ++ rest) s = { s with
      phase := .awaitOpcode, cmd := none, respOe := false, inbox := rest, trace := s.trace ++ q.map .tx } := by
  induction q generalizing s c bytes with
  | nil => exact absurd rfl hne
  | cons r q ih =>
    obtain ⟨b, bytes, rfl⟩ : ∃ b bs, bytes = b :: bs := List.exists_cons_of_length_pos (by simp [hb])
    simp only [List.length_cons, Nat.add_right_cancel_iff] at hb
    cases q with
    | nil =>
      obtain rfl : bytes = [] := by simpa using hb
      rw [List.map_cons, List.cons_append, converse_clock (by simp [hp]), State.work_of_sending hp hc hq]
      simp only [State.byteTime, hc, hp, hq, hm, List.isEmpty_nil, Bool.not_false, Bool.and_self, if_true]
      rw [converse_finished (by simp) (by simp)]
      simp [State.finish, State.busWrite, State.drive, State.emit]
    | cons r' q =>
      rw [List.map_cons, List.cons_append, converse_send_one b hp hc hq (.inl (by simp)),
        ih (s := { s.busWrite r with cmd := some { c with txQueue := r' :: q } })
          (c := { c with txQueue := r' :: q }) (by simpa using hp) rfl rfl (by simp)
          (by simpa [Command.moreChunks] using hm) hb]
      simp [State.busWrite, State.drive, State.emit]

/-- A part of a response, of which more chunks are to follow, is sent. -/
theorem converse_send_part {q : List Byte} {bytes : List Byte} {l : List Stimulus}
    (hp : s.phase = .writeResponse) (hc : s.cmd = some c) (hq : c.txQueue = q) (hne : q ≠ [])
    (hm : c.moreChunks = true) (hb : bytes.length = q.length) :
    converse (bytes.map .clock ++ l) s = converse l { s with
      cmd := some { c with txQueue := [] }, respOe := false, trace := s.trace ++ q.map .tx } := by
  induction q generalizing s c bytes with
  | nil => exact absurd rfl hne
  | cons r q ih =>
    obtain ⟨b, bytes, rfl⟩ : ∃ b bs, bytes = b :: bs := List.exists_cons_of_length_pos (by simp [hb])
    simp only [List.length_cons, Nat.add_right_cancel_iff] at hb
    rw [List.map_cons, List.cons_append, converse_send_one b hp hc hq (.inr hm)]
    cases q with
    | nil =>
      obtain rfl : bytes = [] := by simpa using hb
      simp [State.busWrite, State.drive, State.emit]
    | cons r' q =>
      rw [ih (s := { s.busWrite r with cmd := some { c with txQueue := r' :: q } })
          (c := { c with txQueue := r' :: q }) (by simpa using hp) rfl rfl (by simp)
          (by simpa [Command.moreChunks] using hm) hb]
      simp [State.busWrite, State.drive, State.emit]

/-- Payload bytes of a chunk frame that is not full before the last of them are taken in. -/
theorem converse_intake {bytes : List Byte} {l : List Stimulus} (hp : s.phase = .execute) (hc : s.cmd = some c)
    (hb : bytes ≠ []) (hlen : c.intake.length + bytes.length ≤ c.chunkFrameLength s.cfg s.crcEnabled) :
    converse (bytes.map .clock ++ l) s = converse l { s with
      cmd := some { c with intake := c.intake ++ bytes }, respOe := false
      trace := s.trace ++ bytes.map .rx } := by
  induction bytes generalizing s c with
  | nil => exact absurd rfl hb
  | cons b bytes ih =>
    simp only [List.length_cons] at hlen
    have hw : s.work = s := by
      simp only [State.work, hc, hp]
      rw [if_neg (by omega)]
    rw [List.map_cons, List.cons_append, converse_clock (by simp [hp]), hw]
    have hone : s.byteTime b = { s.busRead b with cmd := some { c with intake := c.intake ++ [b] } } := by
      simp [State.byteTime, hc, hp]
    rw [hone]
    cases bytes with
    | nil => simp [State.busRead, State.drive, State.emit]
    | cons b' bytes =>
      rw [ih (s := { s.busRead b with cmd := some { c with intake := c.intake ++ [b] } })
          (c := { c with intake := c.intake ++ [b] }) (by simpa using hp) rfl (by simp)
          (by simpa [Command.chunkFrameLength, Command.chunkLength, Command.remaining, Nat.add_assoc,
            Nat.add_comm, Nat.add_left_comm] using hlen)]
      simp [State.busRead, State.drive, State.emit]

end Sys2Proof.Machine
end

