-- ==== Sys2Proof/Laws/Execute.lean ====
section
/-! SUPPORT. Everything the Execute part of each command can do, said once, and with it the shape of every
meaning. -/

namespace Sys2Proof.Machine

variable (c : Command) (s : State)

/-! ### Notification -/

/-- Everything the offer to the notifier can do (R160, R154). -/
theorem State.notifyIfSubscribed_cases (a : Addr) (s : State) :
    ∃ q evs, s.notifyIfSubscribed a = { s with queue := q, trace := s.trace ++ evs } ∧
      ((a.toNat ∈ s.cfg.subscribed ∧ s.queue.length < s.cfg.notifyCap ∧ q = s.queue ++ [a] ∧
          evs = [.notify a]) ∨
        (a.toNat ∈ s.cfg.subscribed ∧ s.cfg.notifyCap ≤ s.queue.length ∧ q = s.queue ∧
          evs = [.drop a, .diag (.queueOverflow a)]) ∨
        (a.toNat ∉ s.cfg.subscribed ∧ q = s.queue ∧ evs = [])) := by
  by_cases ha : a.toNat ∈ s.cfg.subscribed
  · rcases s.notify_cases a with ⟨hl, h⟩ | ⟨hl, h⟩
    · exact ⟨_, _, by simp only [State.notifyIfSubscribed, ha, if_true, h], .inl ⟨ha, hl, rfl, rfl⟩⟩
    · exact ⟨s.queue, _, by simp only [State.notifyIfSubscribed, ha, if_true, h],
        .inr (.inl ⟨ha, hl, rfl, rfl⟩)⟩
  · exact ⟨s.queue, [], by simp [State.notifyIfSubscribed, ha], .inr (.inr ⟨ha, rfl, rfl⟩)⟩

/-! ### Word access -/

@[simp] theorem respondWord_eq (st : Byte) (d : List Byte) :
    s.respondWord c st d = s.respond c st (wordFraming :: (d ++ dataChecksum s.cfg s.crcEnabled d)) := rfl

/-- Everything the Execute part of a word read can do (R104, R107). -/
theorem wordRead_cases :
    (c.cmdCrcOk = false ∧
      wordRead c s = (s.raise .crcMismatch).respondZero c (7 + s.crcEnabled.toNat)) ∨
    (c.cmdCrcOk = true ∧ s.resetPending = true ∧ c.addr = stateAddr ∧
      wordRead c s = { s with resetPending := false }.respondWord c statusOk (bytesLe32 resetSignature)) ∨
    (c.cmdCrcOk = true ∧ ¬ (s.resetPending = true ∧ c.addr = stateAddr) ∧
      ∃ d, s.mem.read s.cfg c.addr.toNat 4 = some d ∧
        wordRead c s = (s.emit (.memRd c.addr.toNat d)).respondWord c statusOk d) ∨
    (c.cmdCrcOk = true ∧ ¬ (s.resetPending = true ∧ c.addr = stateAddr) ∧
      resolve s.cfg c.addr.toNat 4 = .outOfRange ∧
      wordRead c s = (s.raise (.outOfRange c.addr.toNat 4)).respondWord c s.cfg.statusErr (zeros 4)) := by
  cases hc : c.cmdCrcOk with
  | false => exact .inl ⟨rfl, by simp [wordRead, hc]⟩
  | true =>
    by_cases hs : s.resetPending = true ∧ c.addr = stateAddr
    · exact .inr (.inl ⟨rfl, hs.1, hs.2, by simp [wordRead, hc, hs]⟩)
    · have hb : (s.resetPending && c.addr == stateAddr) = false := by simpa using hs
      cases hm : s.memRead c.addr.toNat 4 with
      | none =>
        exact .inr (.inr (.inr ⟨rfl, hs, State.memRead_eq_none.mp hm, by simp [wordRead, hc, hb, hm]⟩))
      | some p =>
        obtain ⟨d, s'⟩ := p
        obtain ⟨hd, rfl⟩ := State.memRead_eq_some.mp hm
        exact .inr (.inr (.inl ⟨rfl, hs, d, hd, by simp [wordRead, hc, hb, hm]⟩))

/-- Everything the Execute part of a word write can do (R105, R106, R92, R160). -/
theorem wordWrite_cases :
    (c.cmdCrcOk = false ∧ wordWrite c s = (s.raise .crcMismatch).respond c statusOk []) ∨
    (c.cmdCrcOk = true ∧ c.addr = identityAddr ∧
      wordWrite c s = { s with resetPending := true }.respond c statusOk []) ∨
    (c.cmdCrcOk = true ∧ c.addr ≠ identityAddr ∧
      ∃ m, s.mem.write s.cfg c.addr.toNat (bytesLe32 c.wdata) = some m ∧
      ∃ q evs,
        wordWrite c s = { s with
          mem := m
          crcEnabled := s.crcEnabled && !(c.addr == protocolConfigAddr && clearsCrcEnable c.wdata)
          queue := q
          trace := s.trace ++ Event.memWr c.addr.toNat (bytesLe32 c.wdata) :: evs }.respond c statusOk [] ∧
        ((c.addr.toNat ∈ s.cfg.subscribed ∧ s.queue.length < s.cfg.notifyCap ∧ q = s.queue ++ [c.addr] ∧
            evs = [.notify c.addr]) ∨
          (c.addr.toNat ∈ s.cfg.subscribed ∧ s.cfg.notifyCap ≤ s.queue.length ∧ q = s.queue ∧
            evs = [.drop c.addr, .diag (.queueOverflow c.addr)]) ∨
          (c.addr.toNat ∉ s.cfg.subscribed ∧ q = s.queue ∧ evs = []))) ∨
    (c.cmdCrcOk = true ∧ c.addr ≠ identityAddr ∧ resolve s.cfg c.addr.toNat 4 = .outOfRange ∧
      wordWrite c s = (s.raise (.outOfRange c.addr.toNat 4)).respond c s.cfg.statusErr []) := by
  cases hc : c.cmdCrcOk with
  | false => exact .inl ⟨rfl, by simp [wordWrite, hc]⟩
  | true =>
    by_cases hi : c.addr = identityAddr
    · exact .inr (.inl ⟨rfl, hi, by simp [wordWrite, hc, hi]⟩)
    · cases hm : s.memWrite c.addr.toNat (bytesLe32 c.wdata) with
      | none =>
        exact .inr (.inr (.inr ⟨rfl, hi, State.memWrite_eq_none.mp hm, by simp [wordWrite, hc, hi, hm]⟩))
      | some s' =>
        obtain ⟨m, hw, rfl⟩ := State.memWrite_eq_some.mp hm
        refine .inr (.inr (.inl ⟨rfl, hi, m, hw, ?_⟩))
        cases hb : c.addr == protocolConfigAddr && clearsCrcEnable c.wdata with
        | false =>
          obtain ⟨q, evs, hn, hq⟩ := State.notifyIfSubscribed_cases c.addr
            { s with mem := m, trace := s.trace ++ [.memWr c.addr.toNat (bytesLe32 c.wdata)] }
          refine ⟨q, evs, ?_, hq⟩
          simp [wordWrite, hc, hi, hm, afterWordStore, hb, hn]
        | true =>
          obtain ⟨q, evs, hn, hq⟩ := State.notifyIfSubscribed_cases c.addr
            { s with
              mem := m, trace := s.trace ++ [.memWr c.addr.toNat (bytesLe32 c.wdata)], crcEnabled := false }
          refine ⟨q, evs, ?_, hq⟩
          simp [wordWrite, hc, hi, hm, afterWordStore, hb, hn]

/-! ### Streaming -/

/-- Everything the Execute part of a streaming read can do (R124). -/
theorem streamRead_cases :
    (c.cmdCrcOk = false ∧
      streamRead c s = (s.raise .crcMismatch).respondZero { c with offset := c.size.toNat }
        (2 + c.size.toNat + chunkCount s.cfg.maxChunk c.size.toNat * (1 + s.crcEnabled.toNat))) ∨
    (c.cmdCrcOk = true ∧ (∃ r o, resolve s.cfg c.addr.toNat c.size.toNat = .range r o c.size.toNat) ∧
      streamRead c s = s.respond { c with offset := 0 } statusOk []) ∨
    (c.cmdCrcOk = true ∧ resolve s.cfg c.addr.toNat c.size.toNat = .outOfRange ∧
      streamRead c s = (s.raise (.outOfRange c.addr.toNat c.size.toNat)).respond { c with offset := 0 }
        s.cfg.statusErr []) := by
  cases hc : c.cmdCrcOk with
  | false => exact .inl ⟨rfl, by simp [streamRead, hc]⟩
  | true =>
    cases hr : resolve s.cfg c.addr.toNat c.size.toNat with
    | outOfRange => exact .inr (.inr ⟨rfl, rfl, by simp [streamRead, hc, hr]⟩)
    | range r o k =>
      obtain rfl := (resolve_range hr).1
      exact .inr (.inl ⟨rfl, ⟨r, o, rfl⟩, by simp [streamRead, hc, hr]⟩)

/-- Everything the start of a streaming write can do (R125, R126). -/
theorem streamWrite_cases :
    ∃ evs, (c.cmdCrcOk = true ∧ evs = [] ∨ c.cmdCrcOk = false ∧ evs = [.diag .crcMismatch]) ∧
      ((c.size.toNat = 0 ∧
          streamWrite c s = { s with trace := s.trace ++ evs }.respond
            { c with errSeen := false, offset := 0, intake := [] } statusOk []) ∨
        (c.size.toNat ≠ 0 ∧
          streamWrite c s = { s with
            trace := s.trace ++ evs
            cmd := some { c with errSeen := false, offset := 0, intake := [] } })) := by
  cases hc : c.cmdCrcOk with
  | false =>
    refine ⟨_, .inr ⟨rfl, rfl⟩, ?_⟩
    by_cases hz : c.size.toNat = 0
    · exact .inl ⟨hz, by simp [streamWrite, hc, hz, State.raise, State.emit]⟩
    · exact .inr ⟨hz, by simp [streamWrite, hc, hz, State.raise, State.emit]⟩
  | true =>
    refine ⟨[], .inl ⟨rfl, rfl⟩, ?_⟩
    by_cases hz : c.size.toNat = 0
    · exact .inl ⟨hz, by simp [streamWrite, hc, hz]⟩
    · exact .inr ⟨hz, by simp [streamWrite, hc, hz]⟩

/-! ### The meanings -/

/-- The Execute part of a command, `none` for the idle byte, which is no command. -/
def executePart : Instr → Option (Command → State → State)
  | .dmaWrite _ _ _ => some streamWrite
  | .dmaRead _ _ _ => some streamRead
  | .internalWrite _ _ _ => some wordWrite
  | .internalRead _ _ => some wordRead
  | .terminate => some unknownAck
  | .repeatCmd => some unknownAck
  | .dmaExtWrite _ _ _ => some streamWrite
  | .dmaExtRead _ _ _ => some streamRead
  | .singleWrite _ _ _ => some wordWrite
  | .singleRead _ _ => some wordRead
  | .reset => some resetAck
  | .idleSkip => none
  | .unknown _ => some unknownAck

/-- Every meaning is the idle byte's or a transaction with the command's Execute part. -/
theorem exec_eq (i : Instr) (s : State) :
    exec i s = match executePart i with
      | some f => transact i f s
      | none => .next s.finish := by cases i <;> rfl

/-- What an Execute part may do to a state: nothing to the configuration, the line and the inbox; and to the
rest, one change of a flag (R12, R13), one store of a word, one notification, events that move no byte on the bus,
and the working registers, which keep holding a command. -/
def ExecuteFrame (c : Command) (s s' : State) : Prop :=
  ∃ p crcEnabled resetPending k m q evs,
    s' = { s with
      phase := p, crcEnabled := crcEnabled, resetPending := resetPending, cmd := some k, mem := m, queue := q
      trace := s.trace ++ evs } ∧
    (p = .writeResponse ∨ p = .execute) ∧
    (s.crcEnabled = false → crcEnabled = false) ∧
    (m = s.mem ∨ s.mem.write s.cfg c.addr.toNat (bytesLe32 c.wdata) = some m) ∧
    (q = s.queue ∨ q = s.queue ++ [c.addr] ∧ s.queue.length < s.cfg.notifyCap) ∧
    (∀ e ∈ evs, ∀ b, e ≠ .rx b ∧ e ≠ .tx b)

variable {c s}

theorem ExecuteFrame.respond {evs : List Event} (k : Command) (st : Byte) (d : List Byte)
    (h : ∀ e ∈ evs, ∀ b, e ≠ .rx b ∧ e ≠ .tx b) :
    ExecuteFrame c s ({ s with trace := s.trace ++ evs }.respond k st d) :=
  ⟨.writeResponse, s.crcEnabled, s.resetPending, _, s.mem, s.queue, evs, rfl, .inl rfl, id, .inl rfl, .inl rfl, h⟩

theorem ExecuteFrame.respondZero {evs : List Event} (k : Command) (n : Nat)
    (h : ∀ e ∈ evs, ∀ b, e ≠ .rx b ∧ e ≠ .tx b) :
    ExecuteFrame c s ({ s with trace := s.trace ++ evs }.respondZero k n) :=
  ⟨.writeResponse, s.crcEnabled, s.resetPending, _, s.mem, s.queue, evs, rfl, .inl rfl, id, .inl rfl, .inl rfl, h⟩

theorem wordRead_frame : ExecuteFrame c s (wordRead c s) := by
  rcases wordRead_cases c s with ⟨-, h⟩ | ⟨-, -, -, h⟩ | ⟨-, -, d, -, h⟩ | ⟨-, -, -, h⟩ <;> rw [h]
  · exact .respondZero (evs := [.diag .crcMismatch]) _ _ (by simp)
  · exact ⟨.writeResponse, s.crcEnabled, false, _, s.mem, s.queue, [], by rw [List.append_nil]; rfl, .inl rfl, id,
      .inl rfl, .inl rfl, by simp⟩
  · exact .respond (evs := [.memRd c.addr.toNat d]) _ _ _ (by simp)
  · exact .respond (evs := [.diag (.outOfRange c.addr.toNat 4)]) _ _ _ (by simp)

theorem wordWrite_frame : ExecuteFrame c s (wordWrite c s) := by
  rcases wordWrite_cases c s with ⟨-, h⟩ | ⟨-, -, h⟩ | ⟨-, -, m, hm, q, evs, h, hq⟩ | ⟨-, -, -, h⟩ <;> rw [h]
  · exact .respond (evs := [.diag .crcMismatch]) _ _ _ (by simp)
  · exact ⟨.writeResponse, s.crcEnabled, true, _, s.mem, s.queue, [], by rw [List.append_nil]; rfl, .inl rfl, id,
      .inl rfl, .inl rfl, by simp⟩
  · refine ⟨.writeResponse, _, s.resetPending, _, m, q, _, rfl, .inl rfl, by simp +contextual, .inr hm, ?_, ?_⟩
    · rcases hq with ⟨-, hl, rfl, -⟩ | ⟨-, -, rfl, -⟩ | ⟨-, rfl, -⟩
      · exact .inr ⟨rfl, hl⟩
      · exact .inl rfl
      · exact .inl rfl
    · rcases hq with ⟨-, -, -, rfl⟩ | ⟨-, -, -, rfl⟩ | ⟨-, -, rfl⟩ <;> simp
  · exact .respond (evs := [.diag (.outOfRange c.addr.toNat 4)]) _ _ _ (by simp)

theorem streamRead_frame : ExecuteFrame c s (streamRead c s) := by
  rcases streamRead_cases c s with ⟨-, h⟩ | ⟨-, -, h⟩ | ⟨-, -, h⟩ <;> rw [h]
  · exact .respondZero (evs := [.diag .crcMismatch]) _ _ (by simp)
  · simpa using ExecuteFrame.respond (c := c) (s := s) (evs := []) { c with offset := 0 } statusOk [] (by simp)
  · exact .respond (evs := [.diag (.outOfRange c.addr.toNat c.size.toNat)]) _ _ _ (by simp)

theorem streamWrite_frame (hp : s.phase = .execute) : ExecuteFrame c s (streamWrite c s) := by
  obtain ⟨evs, he, h⟩ := streamWrite_cases c s
  have he : ∀ e ∈ evs, ∀ b, e ≠ .rx b ∧ e ≠ .tx b := by
    rcases he with ⟨-, rfl⟩ | ⟨-, rfl⟩ <;> simp
  rcases h with ⟨-, h⟩ | ⟨-, h⟩ <;> rw [h]
  · exact .respond _ _ _ he
  · exact ⟨.execute, s.crcEnabled, s.resetPending, _, s.mem, s.queue, evs, by rw [← hp], .inr rfl, id, .inl rfl,
      .inl rfl, he⟩

theorem executePart_frame {i : Instr} {f : Command → State → State} (hf : executePart i = some f)
    (hp : s.phase = .execute) : ExecuteFrame c s (f c s) := by
  cases i <;> cases hf
  case reset => simpa [resetAck] using ExecuteFrame.respond (c := c) (s := s) (evs := []) c statusOk [] (by simp)
  case dmaWrite | dmaExtWrite => exact streamWrite_frame hp
  case dmaRead | dmaExtRead => exact streamRead_frame
  case singleWrite | internalWrite => exact wordWrite_frame
  case singleRead | internalRead => exact wordRead_frame
  all_goals exact .respond (evs := [.diag (.unknownOpcode c.op)]) _ _ _ (by simp)

/-! ### Transactions whose response is composed at once -/

/-- A response that is all composed is sent with one byte time for each of its bytes (R74, R75). -/
theorem converse_respond {s : State} {k : Command} {st : Byte} {d bytes : List Byte} {rest : List Stimulus}
    (hm : k.moreChunks = false) (hb : bytes.length = d.length + 2) :
    converse (bytes.map .clock ++ rest) (s.respond k st d) = { s with
      phase := .awaitOpcode, cmd := none, respOe := false, inbox := rest
      trace := s.trace ++ (k.op :: st :: d).map .tx } := by
  rw [converse_send (c := { k with status := st, txQueue := k.op :: st :: d }) rfl rfl rfl (by simp) hm
    (by simpa using hb)]
  simp [State.respond]

/-- A command whose Execute part composes the whole response runs to its end. -/
theorem transact_respond {i : Instr} {f : Command → State → State} {s s' : State} {k : Command} {st : Byte}
    {d bytes : List Byte} {rest : List Stimulus}
    (he : f (s.load i) { s with phase := .execute, cmd := some (s.load i) } = s'.respond k st d)
    (hm : k.moreChunks = false) (hin : s.inbox = bytes.map .clock ++ rest) (hb : bytes.length = d.length + 2) :
    transact i f s = .next { s' with
      phase := .awaitOpcode, cmd := none, respOe := false, inbox := rest
      trace := s'.trace ++ (k.op :: st :: d).map .tx } := by
  rw [transact, he, hin, converse_respond hm hb]

/-- The same for the all-zero response (R152). -/
theorem transact_respondZero {i : Instr} {f : Command → State → State} {s s' : State} {k : Command} {n : Nat}
    {bytes : List Byte} {rest : List Stimulus}
    (he : f (s.load i) { s with phase := .execute, cmd := some (s.load i) } = s'.respondZero k n)
    (hm : k.moreChunks = false) (hin : s.inbox = bytes.map .clock ++ rest) (hb : bytes.length = n) (hn : n ≠ 0) :
    transact i f s = .next { s' with
      phase := .awaitOpcode, cmd := none, respOe := false, inbox := rest
      trace := s'.trace ++ (zeros n).map .tx } := by
  rw [transact, he, hin, converse_send (c := { k with txQueue := zeros n }) rfl rfl rfl
    (by simpa using hn) hm (by simpa using hb)]
  simp [State.respondZero]

/-- A command whose size is 0 has no chunk to send. -/
theorem Command.moreChunks_of_size {k : Command} (h : k.size.toNat = 0) : k.moreChunks = false := by
  simp [Command.moreChunks, h]

end Sys2Proof.Machine
end

