-- ==== Sys2Proof/Laws/Fetch.lean ====
section
/-! SUPPORT. How a command frame is received: what one entry of the schedule does, an induction principle for
the fetch, a whole frame at once, and the environment steps before the Execute part. -/

namespace Sys2Proof.Machine

variable {s : State} {c : Command}

/-! ### One entry of the schedule -/

/-- Everything `receive` can do. -/
theorem State.receive_cases (st : Stimulus) (s : State) :
    (∃ b, st = .clock b ∧ s.cmd = none ∧ s.receive st = s.receiveOpcode b) ∨
    (∃ b c, st = .clock b ∧ s.cmd = some c ∧ s.receive st = s.receiveParam c b) ∨
    (∃ e, st = .env e ∧ s.receive st = s.environment e) ∨
    (st = .turn ∧ s.receive st = s) := by
  cases st with
  | clock b =>
    cases hc : s.cmd with
    | none => exact .inl ⟨b, rfl, rfl, by simp [State.receive, hc]⟩
    | some c => exact .inr (.inl ⟨b, c, rfl, rfl, by simp [State.receive, hc]⟩)
  | env e => exact .inr (.inr (.inl ⟨e, rfl, rfl⟩))
  | turn => exact .inr (.inr (.inr ⟨rfl, rfl⟩))

section
variable (b : Byte) (s : State) (c : Command)
@[simp] theorem State.receiveOpcode_cfg : (s.receiveOpcode b).cfg = s.cfg := rfl
@[simp] theorem State.receiveOpcode_crcEnabled : (s.receiveOpcode b).crcEnabled = s.crcEnabled := rfl
@[simp] theorem State.receiveOpcode_resetPending : (s.receiveOpcode b).resetPending = s.resetPending := rfl
@[simp] theorem State.receiveOpcode_cmd : (s.receiveOpcode b).cmd = some (Command.start b) := rfl
@[simp] theorem State.receiveOpcode_respOe : (s.receiveOpcode b).respOe = false := rfl
@[simp] theorem State.receiveOpcode_mem : (s.receiveOpcode b).mem = s.mem := rfl
@[simp] theorem State.receiveOpcode_queue : (s.receiveOpcode b).queue = s.queue := rfl
@[simp] theorem State.receiveOpcode_frameContext : (s.receiveOpcode b).frameContext = s.frameContext := rfl
@[simp] theorem State.receiveOpcode_trace : (s.receiveOpcode b).trace = s.trace ++ [.rx b] := rfl
@[simp] theorem State.receiveParam_cfg : (s.receiveParam c b).cfg = s.cfg := rfl
@[simp] theorem State.receiveParam_phase : (s.receiveParam c b).phase = s.phase := rfl
@[simp] theorem State.receiveParam_crcEnabled : (s.receiveParam c b).crcEnabled = s.crcEnabled := rfl
@[simp] theorem State.receiveParam_resetPending : (s.receiveParam c b).resetPending = s.resetPending := rfl
@[simp] theorem State.receiveParam_respOe : (s.receiveParam c b).respOe = false := rfl
@[simp] theorem State.receiveParam_mem : (s.receiveParam c b).mem = s.mem := rfl
@[simp] theorem State.receiveParam_queue : (s.receiveParam c b).queue = s.queue := rfl
@[simp] theorem State.receiveParam_frameContext : (s.receiveParam c b).frameContext = s.frameContext := rfl
@[simp] theorem State.receiveParam_trace : (s.receiveParam c b).trace = s.trace ++ [.rx b] := rfl
end

section
variable (st : Stimulus) (s : State)
@[simp] theorem State.receive_cfg : (s.receive st).cfg = s.cfg := by
  rcases s.receive_cases st with ⟨b, -, -, h⟩ | ⟨b, c, -, -, h⟩ | ⟨e, -, h⟩ | ⟨-, h⟩ <;> simp [h]
@[simp] theorem State.receive_crcEnabled : (s.receive st).crcEnabled = s.crcEnabled := by
  rcases s.receive_cases st with ⟨b, -, -, h⟩ | ⟨b, c, -, -, h⟩ | ⟨e, -, h⟩ | ⟨-, h⟩ <;> simp [h]
@[simp] theorem State.receive_resetPending : (s.receive st).resetPending = s.resetPending := by
  rcases s.receive_cases st with ⟨b, -, -, h⟩ | ⟨b, c, -, -, h⟩ | ⟨e, -, h⟩ | ⟨-, h⟩ <;> simp [h]
end

/-! ### The fetch -/

/-- The induction over the fetch, packaged once: what every received entry keeps, and what does not look at the
inbox, the whole fetch keeps. -/
theorem fetch_induction {P : State → Prop} (inbox : ∀ s l, P s → P { s with inbox := l })
    (receive : ∀ s st, s.frameComplete = false → P s → P (s.receive st)) (l : List Stimulus) {s : State}
    (h : P s) : P (fetch l s) := by
  induction l generalizing s with
  | nil => exact inbox _ _ h
  | cons st l ih =>
    simp only [fetch]
    split_ifs with hc
    · exact inbox _ _ h
    · exact ih (receive s st (by simpa using hc) h)

@[simp] theorem fetch_cfg (l : List Stimulus) (s : State) : (fetch l s).cfg = s.cfg :=
  fetch_induction (P := fun t => t.cfg = s.cfg) (fun _ _ h => h) (by simp +contextual) l rfl

@[simp] theorem fetch_crcEnabled (l : List Stimulus) (s : State) : (fetch l s).crcEnabled = s.crcEnabled :=
  fetch_induction (P := fun t => t.crcEnabled = s.crcEnabled) (fun _ _ h => h) (by simp +contextual) l rfl

@[simp] theorem fetch_resetPending (l : List Stimulus) (s : State) :
    (fetch l s).resetPending = s.resetPending :=
  fetch_induction (P := fun t => t.resetPending = s.resetPending) (fun _ _ h => h) (by simp +contextual) l rfl

/-- A complete frame leaves the rest of the schedule in the inbox. -/
theorem fetch_complete {l : List Stimulus} (h : s.frameComplete = true) : fetch l s = { s with inbox := l } := by
  cases l <;> simp [fetch, h]

/-- The bytes of a frame after its opcode, received one after another (R72). -/
theorem fetch_params {bytes : List Byte} {rest : List Stimulus} (hc : s.cmd = some c) (hr : s.respOe = false)
    (hlen : c.cmdBytes.length + c.drained + bytes.length = frameLength s.frameContext c.op) :
    fetch (bytes.map .clock ++ rest) s = { s with
      inbox := rest
      trace := s.trace ++ bytes.map .rx
      cmd := some (if (decodeOp c.op).format = .U then { c with drained := c.drained + bytes.length }
        else { c with cmdBytes := c.cmdBytes ++ bytes }) } := by
  induction bytes generalizing s c with
  | nil =>
    rw [List.map_nil, List.nil_append, fetch_complete (by simp [State.frameComplete, hc]; simpa using hlen)]
    simp [← hc]
  | cons b bytes ih =>
    simp only [List.length_cons] at hlen
    have hn : s.frameComplete = false := by
      simp only [State.frameComplete, hc, beq_eq_false_iff_ne]; omega
    simp only [List.map_cons, List.cons_append, fetch, hn, Bool.false_eq_true, if_false, State.receive, hc]
    by_cases hu : (decodeOp c.op).format = .U
    · rw [ih (s := s.receiveParam c b) (c := { c with drained := c.drained + 1 })
        (by simp [State.receiveParam, hu]) rfl (by rw [State.receiveParam_frameContext]; dsimp only; omega)]
      simp [State.receiveParam, hu, State.busRead, State.drive, State.emit, hr, Nat.add_assoc, Nat.add_comm]
    · rw [ih (s := s.receiveParam c b) (c := { c with cmdBytes := c.cmdBytes ++ [b] })
        (by simp [State.receiveParam, hu]) rfl (by rw [State.receiveParam_frameContext]; simp only [List.length_append, List.length_singleton]; omega)]
      simp [State.receiveParam, hu, State.busRead, State.drive, State.emit, hr]

/-! ### Environment steps before the Execute part -/

@[simp] theorem settleEnvironment_cfg (l : List Stimulus) (s : State) : (settleEnvironment l s).cfg = s.cfg := by
  induction l generalizing s with
  | nil => rfl
  | cons st l ih => cases st <;> simp [settleEnvironment, ih]

@[simp] theorem settleEnvironment_crcEnabled (l : List Stimulus) (s : State) :
    (settleEnvironment l s).crcEnabled = s.crcEnabled := by
  induction l generalizing s with
  | nil => rfl
  | cons st l ih => cases st <;> simp [settleEnvironment, ih]

@[simp] theorem settleEnvironment_resetPending (l : List Stimulus) (s : State) :
    (settleEnvironment l s).resetPending = s.resetPending := by
  induction l generalizing s with
  | nil => rfl
  | cons st l ih => cases st <;> simp [settleEnvironment, ih]

@[simp] theorem settleEnvironment_trace (l : List Stimulus) (s : State) :
    (settleEnvironment l s).trace = s.trace := by
  induction l generalizing s with
  | nil => rfl
  | cons st l ih => cases st <;> simp [settleEnvironment, ih]

@[simp] theorem settleEnvironment_respOe (l : List Stimulus) (s : State) :
    (settleEnvironment l s).respOe = s.respOe := by
  induction l generalizing s with
  | nil => rfl
  | cons st l ih => cases st <;> simp [settleEnvironment, ih]

@[simp] theorem settleEnvironment_cmd (l : List Stimulus) (s : State) :
    (settleEnvironment l s).cmd = s.cmd := by
  induction l generalizing s with
  | nil => rfl
  | cons st l ih => cases st <;> simp [settleEnvironment, ih]

@[simp] theorem settleEnvironment_phase (l : List Stimulus) (s : State) :
    (settleEnvironment l s).phase = s.phase := by
  induction l generalizing s with
  | nil => rfl
  | cons st l ih => cases st <;> simp [settleEnvironment, ih]

/-- The environment sees neither the phase nor the working registers (R42), nor what stood in the inbox. -/
theorem settleEnvironment_with (l l' : List Stimulus) (s : State) (p : Phase) (k : Option Command) :
    settleEnvironment l { s with phase := p, cmd := k, inbox := l' } =
      { settleEnvironment l s with phase := p, cmd := k } := by
  induction l generalizing s l' with
  | nil => rfl
  | cons st l ih =>
    cases st with
    | clock b => rfl
    | turn => rfl
    | env e =>
      have : State.environment { s with phase := p, cmd := k, inbox := l' } e =
        { s.environment e with phase := p, cmd := k, inbox := l' } := by cases e <;> rfl
      simp only [settleEnvironment, this, ih]

/-- What an entry of the schedule leaves of ReadParams: all of it (R72). -/
theorem State.receive_readParams (st : Stimulus) (hp : s.phase = .readParams) (hc : s.cmd ≠ none) :
    (s.receive st).phase = .readParams ∧ (s.receive st).cmd ≠ none := by
  rcases State.receive_cases st s with ⟨b, -, h, -⟩ | ⟨b, c, -, -, h⟩ | ⟨e, -, h⟩ | ⟨-, h⟩
  · exact absurd h hc
  · rw [h]; exact ⟨by simpa using hp, by simp [State.receiveParam]⟩
  all_goals rw [h]; exact ⟨by simpa using hp, by simpa using hc⟩

/-! ### The step -/

theorem step_awaitOpcode (ha : s.cfg.Admissible) (hp : s.phase = .awaitOpcode) (hc : s.cmd = none) :
    step s = fetchAndRun s := by
  unfold step; rw [if_pos ha, hp, hc]

theorem step_transaction (ha : s.cfg.Admissible) (hp : s.phase = .execute ∨ s.phase = .writeResponse)
    (hc : s.cmd ≠ none) : step s = .next (converse s.inbox s) := by
  obtain ⟨c, hc⟩ := Option.ne_none_iff_exists'.mp hc
  unfold step; rcases hp with hp | hp <;> rw [if_pos ha, hp, hc]

/-- Everything a step that goes on can be: the configuration is admissible, and either a frame is fetched and
its command run, or the transaction in progress goes on. -/
theorem step_next {t : State} (h : step s = .next t) :
    s.cfg.Admissible ∧
      (((s.phase = .awaitOpcode ∧ s.cmd = none ∨ s.phase = .readParams ∧ s.cmd ≠ none) ∧
          fetchAndRun s = .next t) ∨
        ((s.phase = .execute ∨ s.phase = .writeResponse) ∧ s.cmd ≠ none ∧ t = converse s.inbox s)) := by
  unfold step at h
  split_ifs at h with ha
  refine ⟨ha, ?_⟩
  split at h <;> rename_i hp hc
  · exact .inl ⟨.inl ⟨hp, hc⟩, h⟩
  · cases h
  · exact .inl ⟨.inr ⟨hp, by simp [hc]⟩, h⟩
  · exact .inr ⟨.inl hp, by simp [hc], (Host.Outcome.next.inj h).symm⟩
  · exact .inr ⟨.inr hp, by simp [hc], (Host.Outcome.next.inj h).symm⟩
  all_goals cases h

/-- Everything fetching and running can be, when it goes on: the frame is not complete and the block waits, or
the command it decodes to is run. -/
theorem fetchAndRun_next {t : State} (h : fetchAndRun s = .next t) :
    ((fetch s.inbox s).frameComplete = false ∧ t = fetch s.inbox s) ∨
      ∃ c i r, (fetch s.inbox s).frameComplete = true ∧ (fetch s.inbox s).cmd = some c ∧
        decode s.frameContext c.frame = .ok (i, r) ∧
        exec i (settleEnvironment (fetch s.inbox s).inbox (fetch s.inbox s)) = .next t := by
  simp only [fetchAndRun] at h
  split_ifs at h with hf
  · have hctx : (settleEnvironment (fetch s.inbox s).inbox (fetch s.inbox s)).frameContext = s.frameContext := by
      simp [State.frameContext]
    simp only [runFrame, settleEnvironment_cmd, hctx] at h
    split at h
    · cases h
    · rename_i c hc
      split at h
      · rename_i i r hd
        exact .inr ⟨c, i, r, hf, hc, hd, h⟩
      · cases h
  · exact .inl ⟨by simpa using hf, (Host.Outcome.next.inj h).symm⟩

end Sys2Proof.Machine
end

