-- ==== Sys2Proof/Laws/Flags.lean ====
section
/-! SUPPORT. What the checksum functions and `cmd_crc_ok` can answer (`41_crc_validator.md` rules R85 to R91). -/

namespace Sys2Proof.Machine

theorem verify_append (cfg : Config) (body : List Byte) (rx : Byte) :
    verify cfg (body ++ [rx]) = true ↔ checksum cfg body = rx := by simp [verify]

/-- With checksums off every command is good (R91). -/
@[simp] theorem commandCrcOk_off (cfg : Config) (i : Instr) : commandCrcOk cfg false i = true := by
  simp [commandCrcOk]

/-- The formats Z and U are never verified (R89). -/
theorem commandCrcOk_control {cfg : Config} {crcEnabled : Bool} {i : Instr} (h : i.isReadWrite = false) :
    commandCrcOk cfg crcEnabled i = true := by simp [commandCrcOk, h]

/-- A read/write command that arrived with a checksum byte is good exactly when that byte is the checksum of the
rest of its frame (R89). -/
theorem commandCrcOk_checked {cfg : Config} {i : Instr} {rx : Byte} (h : i.isReadWrite = true)
    (hc : i.crc = some rx) : commandCrcOk cfg true i = true ↔ checksum cfg i.body = rx := by
  simp only [commandCrcOk, h, Instr.cmdBytes, hc, Option.toList]
  exact verify_append cfg _ _

end Sys2Proof.Machine
end

