-- ==== Sys2Proof/Laws/PerInstr.lean ====
section
/-! SUPPORT. What is said of every instruction as syntax, one lemma for each constructor: the frame is as long as
its opcode and the frame context say, before any operand is known (R62). -/

namespace Sys2Proof.Laws.FrameLength

/-- The encoded frame of a well-formed instruction has the length fixed at its opcode byte, and starts with it. -/
def Statement (i : Instr) : Prop :=
  ∀ ctx : FrameContext, WellFormed ctx i = true →
    (encode ctx i).length = frameLength ctx i.opcode ∧ (encode ctx i).head? = some i.opcode

theorem dmaWrite (addr : Addr) (size : BitVec 16) (crc : Option Byte) : Statement (.dmaWrite addr size crc) :=
  fun _ h => ⟨encode_length h, rfl⟩
theorem dmaRead (addr : Addr) (size : BitVec 16) (crc : Option Byte) : Statement (.dmaRead addr size crc) :=
  fun _ h => ⟨encode_length h, rfl⟩
theorem internalWrite (addr : InternalAddr) (value : Word) (crc : Option Byte) :
    Statement (.internalWrite addr value crc) := fun _ h => ⟨encode_length h, rfl⟩
theorem internalRead (addr : InternalAddr) (crc : Option Byte) : Statement (.internalRead addr crc) :=
  fun _ h => ⟨encode_length h, rfl⟩
theorem terminate : Statement .terminate := fun _ h => ⟨encode_length h, rfl⟩
theorem repeatCmd : Statement .repeatCmd := fun _ h => ⟨encode_length h, rfl⟩
theorem dmaExtWrite (addr : Addr) (size : BitVec 24) (crc : Option Byte) :
    Statement (.dmaExtWrite addr size crc) := fun _ h => ⟨encode_length h, rfl⟩
theorem dmaExtRead (addr : Addr) (size : BitVec 24) (crc : Option Byte) :
    Statement (.dmaExtRead addr size crc) := fun _ h => ⟨encode_length h, rfl⟩
theorem singleWrite (addr : Addr) (value : Word) (crc : Option Byte) :
    Statement (.singleWrite addr value crc) := fun _ h => ⟨encode_length h, rfl⟩
theorem singleRead (addr : Addr) (crc : Option Byte) : Statement (.singleRead addr crc) :=
  fun _ h => ⟨encode_length h, rfl⟩
theorem reset : Statement .reset := fun _ h => ⟨encode_length h, rfl⟩
theorem idleSkip : Statement .idleSkip := fun _ h => ⟨encode_length h, rfl⟩
theorem unknown (op : Byte) : Statement (.unknown op) := fun _ h => ⟨encode_length h, rfl⟩

end Sys2Proof.Laws.FrameLength
end

