-- ==== Sys2Proof/Laws/Progress.lean ====
section
/-! SUPPORT. How a transaction makes progress: what holds once the pending work is done, chunk arithmetic (R59),
and that nothing rewrites the trace of the past. -/

namespace Sys2Proof.Machine

/-! ### After the pending work -/

/-- The working registers fit the phase and no internal work is pending: the next thing that happens is a byte
time (R77). -/
def State.Ready (s : State) : Prop :=
  s.cmdFits = true ∧
  (∀ c, s.cmd = some c → s.phase = .execute → c.intake.length < c.chunkFrameLength s.cfg s.crcEnabled) ∧
  (∀ c, s.cmd = some c → s.phase = .writeResponse → c.txQueue ≠ [])

theorem State.cmdFits_environment (s : State) (e : EnvStep) : (s.environment e).cmdFits = s.cmdFits := by
  cases e <;> rfl

theorem State.ready_work {s : State} (h : s.cmdFits = true) : s.work.Ready := by
  unfold State.work
  split
  · rename_i hc
    exact ⟨h, by simp [hc], by simp [hc]⟩
  · rename_i c hc
    split <;> rename_i hp
    · exact ⟨h, by simp [hp], by simp [hp]⟩
    · exact ⟨h, by simp [hp], by simp [hp]⟩
    · simp [State.cmdFits, hp, hc] at h
      split_ifs with hi
      · obtain ⟨m, evs, err, -, -, ⟨hlt, ht⟩ | ⟨hge, ht⟩⟩ := State.takeChunk_cases c s
        · rw [ht]
          refine ⟨by simp [State.cmdFits, hp, h, hlt], ?_, by simp [hp]⟩
          rintro _ ⟨⟩ -; simp [Command.chunkFrameLength]
        · rw [ht]; exact ⟨by simp [State.cmdFits], by simp, by simp⟩
      · refine ⟨by simp [State.cmdFits, hp, hc, h], ?_, by simp [hp]⟩
        rw [hc]; rintro _ ⟨⟩ -; omega
    · split_ifs with hi
      · obtain ⟨d, evs, -, -, -, ht⟩ := State.sendChunk_eq c s
        rw [ht]; exact ⟨by simp [State.cmdFits, hp], by simp [hp], by simp⟩
      · refine ⟨h, by simp [hp], ?_⟩
        rw [hc]; rintro _ ⟨⟩ - hn
        simp [State.cmdFits, hp, hc, hn] at h
        simp [hn, h] at hi

/-- With nothing pending, `work` does nothing: waiting is stable (R76). -/
theorem State.work_of_ready {s : State} (h : s.Ready) : s.work = s := by
  rcases s.work_cases with e | ⟨c, hc, hp, hl, -⟩ | ⟨c, hc, hp, hq, -, -⟩
  · exact e
  · have := h.2.1 c hc hp; omega
  · exact absurd hq (h.2.2 c hc hp)

theorem State.cmdFits_byteTime {s : State} (b : Byte) (h : s.Ready) : (s.byteTime b).cmdFits = true := by
  obtain ⟨h, h1, -⟩ := h
  rcases s.byteTime_cases b with e | ⟨c, hc, hp, e⟩ | ⟨c, r, q, hc, hp, hq, ⟨-, -, e⟩ | ⟨hor, e⟩⟩ <;> rw [e]
  · exact h
  · have := h1 c hc hp
    simp [State.cmdFits, hp, hc] at h
    simp [State.cmdFits, hp, h]
    simp [Command.chunkFrameLength, Command.chunkLength, Command.remaining] at *; omega
  · simp [State.cmdFits]
  · simpa [State.cmdFits, hp, Command.moreChunks] using hor

/-- The work that is pending at a byte time may be done before it. -/
theorem converse_clock_work {b : Byte} {l : List Stimulus} {s : State} (hp : s.phase ≠ .awaitOpcode)
    (hp' : s.work.phase ≠ .awaitOpcode) (h : s.work.work = s.work) :
    converse (.clock b :: l) s = converse (.clock b :: l) s.work := by
  rw [converse_clock hp, converse_clock hp', h]

/-! ### Chunk arithmetic -/

theorem chunkCount_zero {maxChunk : Nat} (h : 1 ≤ maxChunk) : chunkCount maxChunk 0 = 0 := by
  simp [chunkCount]; omega

/-- One chunk fewer once the first has been cut off. -/
theorem chunkCount_step {maxChunk size : Nat} (h : 1 ≤ maxChunk) (hs : 0 < size) :
    chunkCount maxChunk size = 1 + chunkCount maxChunk (size - min maxChunk size) := by
  unfold chunkCount
  by_cases hl : size ≤ maxChunk
  · have h1 : (size + maxChunk - 1) / maxChunk = 1 := Nat.div_eq_of_lt_le (by omega) (by omega)
    rw [min_eq_right hl, h1, Nat.sub_self, Nat.div_eq_of_lt (by omega)]
  · have e : size + maxChunk - 1 = (size - maxChunk + maxChunk - 1) + maxChunk := by omega
    rw [min_eq_left (by omega), e, Nat.add_div_right _ (by omega)]; omega

/-- `chunkCount` is the quotient rounded up. -/
theorem chunkCount_bounds {maxChunk size : Nat} (h : 1 ≤ maxChunk) :
    size ≤ chunkCount maxChunk size * maxChunk ∧
      chunkCount maxChunk size * maxChunk ≤ size + maxChunk - 1 := by
  have h1 : chunkCount maxChunk size * maxChunk ≤ size + maxChunk - 1 := Nat.div_mul_le_self _ _
  have h2 : size + maxChunk - 1 < (size + maxChunk - 1) / maxChunk * maxChunk + maxChunk :=
    Nat.lt_div_mul_add (by omega)
  have h3 : (size + maxChunk - 1) / maxChunk = chunkCount maxChunk size := rfl
  rw [h3] at h2
  omega

@[simp] theorem sizeOf16_toNat (n : BitVec 16) : (sizeOf16 n).toNat = n.toNat := by
  simp [sizeOf16]; omega

@[simp] theorem dataChecksum_length (cfg : Config) (crcEnabled : Bool) (d : List Byte) :
    (dataChecksum cfg crcEnabled d).length = crcEnabled.toNat := by cases crcEnabled <;> rfl

/-! ### The trace only grows -/

theorem converse_trace (l : List Stimulus) (s : State) : ∃ evs, (converse l s).trace = s.trace ++ evs := by
  refine converse_induction (P := fun t => ∃ evs, t.trace = s.trace ++ evs) (fun _ _ h => h) ?_ ?_ ?_ l
    ⟨[], by simp⟩
  · rintro t ⟨e, h⟩
    obtain ⟨p, k, m, evs, hw, -⟩ := t.work_frame
    exact ⟨e ++ evs, by rw [hw]; simp [h]⟩
  · rintro t b ⟨e, h⟩
    obtain ⟨p, k, m, evs, hw, -⟩ := t.work_frame
    rcases t.work.byteTime_cases b with e' | ⟨c, -, -, e'⟩ | ⟨c, r, q, -, -, -, ⟨-, -, e'⟩ | ⟨-, e'⟩⟩ <;>
      rw [e', hw] <;> simp [h]
  · rintro t x ⟨e, h⟩; exact ⟨e, by simpa using h⟩

theorem fetch_trace (l : List Stimulus) (s : State) : ∃ evs, (fetch l s).trace = s.trace ++ evs := by
  refine fetch_induction (P := fun t => ∃ evs, t.trace = s.trace ++ evs) (fun _ _ h => h) ?_ l ⟨[], by simp⟩
  rintro t st - ⟨e, h⟩
  rcases t.receive_cases st with ⟨b, -, -, h'⟩ | ⟨b, c, -, -, h'⟩ | ⟨x, -, h'⟩ | ⟨-, h'⟩ <;> rw [h'] <;> simp [h]

end Sys2Proof.Machine
end

