-- ==== Sys2Proof/Tests/Slice0.lean ====
section
/-! SUPPORT. Tests. The expected values come from the spec: the vectors of `95_test_vectors.md` (W, D, K, C, M, P
are its ids), the encodings of `30_encoding.md` and the table of `41_crc_validator.md` rule R86. At the end stand
the witnesses: for each statement with hypotheses a state and operands that meet them. -/

-- one theorem after another: so many kernel evaluations at once would each ask for a thread of their own
set_option Elab.async false

namespace Sys2Proof.Tests

open Sys2Proof.Machine Sys2Proof.Claims

/-! ### WellFormed -/

def ctxOn : FrameContext := { crc := true, drain := 4, skip := false }
def ctxOff : FrameContext := { crc := false, drain := 4, skip := false }
def ctxSkip : FrameContext := { crc := true, drain := 4, skip := true }

theorem test_wf_refuses_missing_checksum : WellFormed ctxOn (.singleRead 0x00106C none) = false := by decide
theorem test_wf_refuses_checksum_while_off :
    WellFormed ctxOff (.dmaWrite 0x020000 6 (some 0xA2)) = false := by decide
theorem test_wf_refuses_named_opcode_as_unknown :
    ∀ op ∈ namedOpcodes, WellFormed ctxOn (.unknown op) = false := by decide
theorem test_wf_refuses_zero_as_unknown_under_skip :
    WellFormed ctxSkip (.unknown 0x00) = false ∧ WellFormed ctxOn (.unknown 0x00) = true := by decide
theorem test_wf_refuses_idle_byte_without_skip :
    WellFormed ctxOn .idleSkip = false ∧ WellFormed ctxSkip .idleSkip = true := by decide

/-! ### Decoding: every constructor, with frames written out from R51 to R56 -/

theorem test_decode_dmaWrite :
    decode ctxOn [0xC1, 0x03, 0x00, 0x10, 0x00, 0x06, 0xE8, 0x00] =
      .ok (.dmaWrite 0x030010 6 (some 0xE8), [0x00]) := rfl
theorem test_decode_dmaRead :
    decode ctxOn [0xC2, 0x0F, 0xFF, 0xFE, 0x12, 0x34, 0xA0] =
      .ok (.dmaRead 0x0FFFFE 0x1234 (some 0xA0), []) := rfl
theorem test_decode_internalWrite :
    decode ctxOn [0xC3, 0xE8, 0x24, 0x00, 0x0C, 0x00, 0x80, 0x2E] =
      .ok (.internalWrite 0xE824 0x80000C00 (some 0x2E), []) := rfl
theorem test_decode_internalRead :
    decode ctxOn [0xC4, 0x10, 0x6C, 0xB2] = .ok (.internalRead 0x106C (some 0xB2), []) := rfl
theorem test_decode_terminate :
    decode ctxOn [0xC5, 0x01, 0x02, 0x03, 0x04, 0xCF] = .ok (.terminate, [0xCF]) := rfl
theorem test_decode_repeat :
    decode ctxOff [0xC6, 0xCA, 0xCA, 0xCA, 0xCA] = .ok (.repeatCmd, []) := rfl
theorem test_decode_dmaExtWrite :
    decode ctxOn [0xC7, 0x03, 0x00, 0x40, 0x01, 0x02, 0x06, 0x84] =
      .ok (.dmaExtWrite 0x030040 0x010206 (some 0x84), []) := rfl
theorem test_decode_dmaExtRead :
    decode ctxOff [0xC8, 0x02, 0x00, 0x01, 0xFF, 0x00, 0x06] =
      .ok (.dmaExtRead 0x020001 0xFF0006 none, []) := rfl
theorem test_decode_singleWrite :
    decode ctxOn [0xC9, 0x00, 0x10, 0x6C, 0x78, 0x56, 0x34, 0x12, 0xF4] =
      .ok (.singleWrite 0x00106C 0x12345678 (some 0xF4), []) := rfl
theorem test_decode_singleRead :
    decode ctxOn [0xCA, 0x0F, 0xFF, 0xFD, 0x0A] = .ok (.singleRead 0x0FFFFD (some 0x0A), []) := rfl
theorem test_decode_reset : decode ctxOn [0xCF, 0x5A] = .ok (.reset, [0x5A]) := rfl
theorem test_decode_idleSkip : decode ctxSkip [0x00, 0xCF] = .ok (.idleSkip, [0xCF]) := rfl
theorem test_decode_unknown :
    decode ctxOn [0xCB, 0x00, 0x00, 0x00, 0x00] = .ok (.unknown 0xCB, []) ∧
    decode ctxOn [0x00, 0x00, 0x00, 0x00, 0x00] = .ok (.unknown 0x00, []) := ⟨rfl, rfl⟩
theorem test_decode_rejects_by_name :
    decode ctxOn [] = .error .noOpcode ∧
    decode ctxOn [0xCA, 0x00, 0x10, 0x6C] = .error (.truncatedFrame 0xCA) ∧
    decode ctxOn [0x5A, 0x01, 0x02, 0x03] = .error (.truncatedFrame 0x5A) := ⟨rfl, rfl, rfl⟩

/-- The opcode map of R56, on all 256 values: eleven named opcodes and no other. -/
theorem test_opcode_map :
    [0xC1, 0xC2, 0xC3, 0xC4, 0xC5, 0xC6, 0xC7, 0xC8, 0xC9, 0xCA, 0xCF].map decodeOp =
      [.dmaWrite, .dmaRead, .internalWrite, .internalRead, .terminate, .repeatCmd, .dmaExtWrite, .dmaExtRead,
        .singleWrite, .singleRead, .reset] ∧
    (∀ op : Byte, decodeOp op = .unknown ↔ op ∉ namedOpcodes) := by decide +kernel

theorem test_table_words :
    decodeTableWord 8 0xCA = some (.singleRead 0 (some 0)) ∧
    decodeTableWord 40 0xBE6C1000CA = some (.singleRead 0x00106C (some 0xBE)) ∧
    decodeTableWord 8 0x00 = some .idleSkip ∧ decodeTableWord 8 0x5A = some (.unknown 0x5A) := by
  decide +kernel

/-! ### Checksums (R85 to R88; the values with the table of R86) -/

theorem test_table_rows_00_to_30 :
  (referenceTable.toList.drop 0x00).take 16 =
    [0x00, 0x12, 0x24, 0x36, 0x48, 0x5A, 0x6C, 0x7E, 0x90, 0x82, 0xB4, 0xA6, 0xD8, 0xCA, 0xFC, 0xEE] ∧
  (referenceTable.toList.drop 0x10).take 16 =
    [0x32, 0x20, 0x16, 0x04, 0x7A, 0x68, 0x5E, 0x4C, 0xA2, 0xB0, 0x86, 0x94, 0xEA, 0xF8, 0xCE, 0xDC] ∧
  (referenceTable.toList.drop 0x20).take 16 =
    [0x64, 0x76, 0x40, 0x52, 0x2C, 0x3E, 0x08, 0x1A, 0xF4, 0xE6, 0xD0, 0xC2, 0xBC, 0xAE, 0x98, 0x8A] ∧
  (referenceTable.toList.drop 0x30).take 16 =
    [0x56, 0x44, 0x72, 0x60, 0x1E, 0x0C, 0x3A, 0x28, 0xC6, 0xD4, 0xE2, 0xF0, 0x8E, 0x9C, 0xAA, 0xB8] := by
  decide +kernel

theorem test_table_rows_40_to_70 :
  (referenceTable.toList.drop 0x40).take 16 =
    [0xC8, 0xDA, 0xEC, 0xFE, 0x80, 0x92, 0xA4, 0xB6, 0x58, 0x4A, 0x7C, 0x6E, 0x10, 0x02, 0x34, 0x26] ∧
  (referenceTable.toList.drop 0x50).take 16 =
    [0xFA, 0xE8, 0xDE, 0xCC, 0xB2, 0xA0, 0x96, 0x84, 0x6A, 0x78, 0x4E, 0x5C, 0x22, 0x30, 0x06, 0x14] ∧
  (referenceTable.toList.drop 0x60).take 16 =
    [0xAC, 0xBE, 0x88, 0x9A, 0xE4, 0xF6, 0xC0, 0xD2, 0x3C, 0x2E, 0x18, 0x0A, 0x74, 0x66, 0x50, 0x42] ∧
  (referenceTable.toList.drop 0x70).take 16 =
    [0x9E, 0x8C, 0xBA, 0xA8, 0xD6, 0xC4, 0xF2, 0xE0, 0x0E, 0x1C, 0x2A, 0x38, 0x46, 0x54, 0x62, 0x70] := by
  decide +kernel

theorem test_table_rows_80_to_B0 :
  (referenceTable.toList.drop 0x80).take 16 =
    [0x82, 0x90, 0xA6, 0xB4, 0xCA, 0xD8, 0xEE, 0xFC, 0x12, 0x00, 0x36, 0x24, 0x5A, 0x48, 0x7E, 0x6C] ∧
  (referenceTable.toList.drop 0x90).take 16 =
    [0xB0, 0xA2, 0x94, 0x86, 0xF8, 0xEA, 0xDC, 0xCE, 0x20, 0x32, 0x04, 0x16, 0x68, 0x7A, 0x4C, 0x5E] ∧
  (referenceTable.toList.drop 0xA0).take 16 =
    [0xE6, 0xF4, 0xC2, 0xD0, 0xAE, 0xBC, 0x8A, 0x98, 0x76, 0x64, 0x52, 0x40, 0x3E, 0x2C, 0x1A, 0x08] ∧
  (referenceTable.toList.drop 0xB0).take 16 =
    [0xD4, 0xC6, 0xF0, 0xE2, 0x9C, 0x8E, 0xB8, 0xAA, 0x44, 0x56, 0x60, 0x72, 0x0C, 0x1E, 0x28, 0x3A] := by
  decide +kernel

theorem test_table_rows_C0_to_F0 :
  (referenceTable.toList.drop 0xC0).take 16 =
    [0x4A, 0x58, 0x6E, 0x7C, 0x02, 0x10, 0x26, 0x34, 0xDA, 0xC8, 0xFE, 0xEC, 0x92, 0x80, 0xB6, 0xA4] ∧
  (referenceTable.toList.drop 0xD0).take 16 =
    [0x78, 0x6A, 0x5C, 0x4E, 0x30, 0x22, 0x14, 0x06, 0xE8, 0xFA, 0xCC, 0xDE, 0xA0, 0xB2, 0x84, 0x96] ∧
  (referenceTable.toList.drop 0xE0).take 16 =
    [0x2E, 0x3C, 0x0A, 0x18, 0x66, 0x74, 0x42, 0x50, 0xBE, 0xAC, 0x9A, 0x88, 0xF6, 0xE4, 0xD2, 0xC0] ∧
  (referenceTable.toList.drop 0xF0).take 16 =
    [0x1C, 0x0E, 0x38, 0x2A, 0x54, 0x46, 0x70, 0x62, 0x8C, 0x9E, 0xA8, 0xBA, 0xC4, 0xD6, 0xE0, 0xF2] := by
  decide +kernel

/-- C4, C5: the table self-checks. -/
theorem test_checksum_self_checks :
    compute referenceTable 0x00 [0x40, 0, 0, 0, 0] = 0x94 ∧
    compute referenceTable 0x00 [0x48, 0, 0, 0x01, 0xAA] = 0x86 := by decide +kernel

/-- C8, C10, C12, C13, C15, C16. -/
theorem test_checksum_vectors :
    checksum referenceConfig [0x11] = 0xC0 ∧
    checksum referenceConfig [0xCA, 0x00, 0x10, 0x8C] = 0x90 ∧
    checksum referenceConfig [0x36, 0x26, 0x53, 0x02] = 0x92 ∧
    checksum referenceConfig (zeros 4) = 0x20 ∧
    checksum referenceConfig [0xFF, 0xFF, 0xFF, 0xFF] = 0x0A ∧
    checksum referenceConfig ((List.range 256).map (BitVec.ofNat 8)) = 0xDE := by decide +kernel

/-- C17 to C20. -/
theorem test_verify_vectors :
    verify referenceConfig [0xCA, 0x00, 0x10, 0x8C, 0x90] = true ∧
    verify referenceConfig [0xCA, 0x00, 0x10, 0x8C, 0x91] = false ∧
    verify referenceConfig [0xCA, 0x00, 0x10, 0x8D, 0x90] = false ∧
    verify referenceConfig [0xFE] = true := by decide +kernel

/-! ### Resolve (M1 to M18, the map of R38) -/

theorem test_resolve_low_and_general :
    resolve referenceConfig 0x000000 4 = .range .low 0 4 ∧
    resolve referenceConfig 0x0000FC 4 = .range .low 0xFC 4 ∧
    resolve referenceConfig 0x0000FE 4 = .outOfRange ∧
    resolve referenceConfig 0x000100 4 = .range .general 0x100 4 ∧
    resolve referenceConfig 0x000FFE 4 = .range .general 0xFFE 4 ∧
    resolve referenceConfig 0x020000 5000 = .range .general 0x20000 5000 := by decide +kernel

theorem test_resolve_other_regions :
    resolve referenceConfig 0x00106C 4 = .range .periph 0x6C 4 ∧
    resolve referenceConfig 0x001FFE 4 = .outOfRange ∧
    resolve referenceConfig 0x00E824 4 = .range .spictl 0x24 4 ∧
    resolve referenceConfig 0x0C0000 0x1000 = .range .bootrom 0 0x1000 ∧
    resolve referenceConfig 0x0C0000 0x1001 = .outOfRange := by decide +kernel

theorem test_resolve_ends :
    resolve referenceConfig 0x0FFFFC 4 = .range .general 0xFFFFC 4 ∧
    resolve referenceConfig 0x0FFFFD 4 = .outOfRange ∧
    resolve referenceConfig 0x100000 1 = .outOfRange ∧
    resolve referenceConfig 0x100000 0 = .outOfRange ∧
    resolve referenceConfig 0x0FFFFF 0 = .range .general 0xFFFFF 0 ∧
    resolve referenceConfig 0xFFFFFF 0xFFFFFF = .outOfRange := by decide +kernel

/-- R59, the chunk counts and markers listed below E14. -/
theorem test_chunks :
    (List.range 3).map (chunkLength 4 9) = [4, 4, 1] ∧ (List.range 2).map (chunkLength 4 5) = [4, 1] ∧
    (List.range 2).map (chunkLength 4096 5000) = [4096, 904] ∧
    [0, 1, 4, 5, 8, 9].map (chunkCount 4) = [0, 1, 1, 2, 2, 3] ∧
    (List.range 4).map (chunkMarker · 4) = [0xF1, 0xF2, 0xF2, 0xF3] ∧ chunkMarker 0 1 = 0xF3 := by
  decide +kernel

/-! ### One step -/

/-- The reference configuration with the `MAX_CHUNK = 4` of most vectors. -/
def cfg4 : Config := { referenceConfig with maxChunk := 4 }

def put (m : Memory) (a : Nat) (bytes : List Byte) : Memory := (m.write cfg4 a bytes).getD m

/-- The start memory of W1 to W11 and of D1 to D14 together. -/
def mem0 : Memory :=
  put (put (put (put (put Memory.zeroed 0x00106C [0x78, 0x56, 0x34, 0x12]) 0x0000FC [0x0A, 0x0B, 0x0C, 0x0D])
    0x000100 [1, 2, 3, 4, 5, 6, 7, 8]) 0x020000 [0x11, 0x22, 0x33, 0x44, 0x55, 0x66, 0x77, 0x88, 0x99])
    0x00108C [0xDD, 0xCC, 0xBB, 0xAA]

/-- `AwaitOpcode` over the start memory, the flags as given, the master about to clock `bytes`. -/
def ready (crc pending : Bool) (bytes : List Byte) : State :=
  { State.startup cfg4 with crcEnabled := crc, resetPending := pending, mem := mem0, inbox := clocks bytes }

/-- The state after one step that answers a next state. -/
def ran (s : State) : Option State :=
  match step s with
  | .next t => some t
  | .fault _ => none
  | .refused _ => none

/-- The master sees exactly `bytes`, and the memory, notifier and diagnostics events are exactly `evs`. -/
def saw (bytes : List Byte) (evs : List Event) (t : State) : Bool :=
  sentBytes t.trace == bytes && t.trace.filter (fun e => !isRx e && !isTx e) == evs &&
    t.phase == .awaitOpcode && t.inbox.isEmpty

theorem test_step_runs_the_table_words :
    ∀ w ∈ [0xC1, 0xC2, 0xC3, 0xC4, 0xC5, 0xC6, 0xC7, 0xC8, 0xC9, 0xCA, 0xCF, 0x00, 0x5A],
      (ran (State.reset.withFetchWord 8 w)).map
        (fun t => t.phase == .awaitOpcode && t.inbox.isEmpty &&
          t.trace.head? == some (.rx (BitVec.ofNat 8 w))) = some true := by
  decide +kernel

/-- W1 (and S3's instance). -/
theorem test_singleRead :
    (ran (ready true false ([0xCA, 0x00, 0x10, 0x6C, 0xBE] ++ zeros 8))).map
      (saw [0xCA, 0x00, 0xF3, 0x78, 0x56, 0x34, 0x12, 0x5A] [.memRd 0x00106C [0x78, 0x56, 0x34, 0x12]]) =
        some true := by decide +kernel

/-- W5 and W9: out of range, and a wrong checksum. -/
theorem test_singleRead_errors :
    (ran (ready true false ([0xCA, 0x00, 0x00, 0xFE, 0x58] ++ zeros 8))).map
      (saw [0xCA, 0xFF, 0xF3, 0x00, 0x00, 0x00, 0x00, 0x20] [.diag (.outOfRange 0x0000FE 4)]) = some true ∧
    (ran (ready true false ([0xCA, 0x00, 0x10, 0x6C, 0xBF] ++ zeros 8))).map
      (saw (zeros 8) [.diag .crcMismatch]) = some true := by decide +kernel

/-- W11 and W10: the last internal addresses, in GENERAL; a plain register. -/
theorem test_internalRead :
    (ran (ready true false ([0xC4, 0xFF, 0xFE, 0x6C] ++ zeros 8))).map
      (saw [0xC4, 0x00, 0xF3, 0x00, 0x00, 0x00, 0x00, 0x20] [.memRd 0x00FFFE (zeros 4)]) = some true ∧
    (ran (ready true false ([0xC4, 0x10, 0x6C, 0xB2] ++ zeros 8))).map
      (saw [0xC4, 0x00, 0xF3, 0x78, 0x56, 0x34, 0x12, 0x5A] [.memRd 0x00106C [0x78, 0x56, 0x34, 0x12]]) =
        some true := by decide +kernel

/-- W25: the state-register override. -/
theorem test_internalRead_override :
    (ran (ready true true ([0xC4, 0x10, 0x8C, 0x9C] ++ zeros 8))).map
      (fun t => saw [0xC4, 0x00, 0xF3, 0x36, 0x26, 0x53, 0x02, 0x92] [] t && !t.resetPending) = some true := by
  decide +kernel

/-- W12. -/
theorem test_singleWrite :
    (ran (ready true false ([0xC9, 0x00, 0x10, 0x6C, 0x78, 0x56, 0x34, 0x12, 0xF4] ++ zeros 2))).map
      (fun t => saw [0xC9, 0x00] [.memWr 0x00106C [0x78, 0x56, 0x34, 0x12], .notify 0x00106C] t &&
        t.queue == [0x00106C] && t.mem.read cfg4 0x00106C 4 == some [0x78, 0x56, 0x34, 0x12]) = some true := by
  decide +kernel

/-- W16: an overlapping write that does not start at the identity register; W14: a wrong checksum. -/
theorem test_singleWrite_overlap_and_bad_checksum :
    (ran (ready true false ([0xC9, 0x00, 0x00, 0x01, 0x44, 0x33, 0x22, 0x11, 0xAA] ++ zeros 2))).map
      (fun t => saw [0xC9, 0x00] [.memWr 0x000001 [0x44, 0x33, 0x22, 0x11]] t && !t.resetPending &&
        t.mem.read cfg4 0x000000 4 == some [0x00, 0x44, 0x33, 0x22]) = some true ∧
    (ran (ready true false ([0xC9, 0x00, 0x10, 0x6C, 0xFF, 0xFF, 0xFF, 0xFF, 0x00] ++ zeros 2))).map
      (fun t => saw [0xC9, 0x00] [.diag .crcMismatch] t && t.mem == mem0) = some true := by decide +kernel

/-- W22: bits 11:10 set, bits 3:2 clear; W20: bits 3:2 are 01. -/
theorem test_internalWrite_protocol_config :
    (ran (ready true false ([0xC3, 0xE8, 0x24, 0x00, 0x0C, 0x00, 0x00, 0x2E] ++ zeros 2))).map
      (fun t => saw [0xC3, 0x00] [.memWr 0x00E824 [0x00, 0x0C, 0x00, 0x00]] t && !t.crcEnabled) = some true ∧
    (ran (ready true false ([0xC3, 0xE8, 0x24, 0x54, 0x00, 0x00, 0x00, 0x7A] ++ zeros 2))).map
      (fun t => saw [0xC3, 0x00] [.memWr 0x00E824 [0x54, 0x00, 0x00, 0x00]] t && t.crcEnabled) = some true := by
  decide +kernel

/-- W18: intercepted. -/
theorem test_internalWrite_identity :
    (ran (ready true false ([0xC3, 0x00, 0x00, 0x05, 0x00, 0x00, 0x00, 0x96] ++ zeros 2))).map
      (fun t => saw [0xC3, 0x00] [] t && t.resetPending && t.mem == mem0) = some true := by decide +kernel

/-- D7: three chunks. -/
theorem test_dmaRead :
    (ran (ready true false ([0xC2, 0x02, 0x00, 0x00, 0x00, 0x09, 0x4C] ++ zeros 17))).map
      (saw [0xC2, 0x00, 0xF1, 0x11, 0x22, 0x33, 0x44, 0xB0, 0xF2, 0x55, 0x66, 0x77, 0x88, 0x8C, 0xF3, 0x99, 0xD2]
        [.memRd 0x020000 [0x11, 0x22, 0x33, 0x44], .memRd 0x020004 [0x55, 0x66, 0x77, 0x88],
          .memRd 0x020008 [0x99]]) = some true := by decide +kernel

/-- D9 and D12: out of range, and a wrong checksum. -/
theorem test_dmaRead_errors :
    (ran (ready true false ([0xC2, 0x0F, 0xFF, 0xFE, 0x00, 0x06, 0x84] ++ zeros 12))).map
      (saw [0xC2, 0xFF, 0xF1, 0x00, 0x00, 0x00, 0x00, 0x20, 0xF3, 0x00, 0x00, 0x2E]
        [.diag (.outOfRange 0x0FFFFE 6)]) = some true ∧
    (ran (ready true false ([0xC2, 0x02, 0x00, 0x00, 0x00, 0x06, 0xA3] ++ zeros 12))).map
      (saw (zeros 12) [.diag .crcMismatch]) = some true := by decide +kernel

/-- D13 and D15. -/
theorem test_dmaExtRead :
    (ran (ready true false ([0xC8, 0x02, 0x00, 0x00, 0x00, 0x00, 0x06, 0xB8] ++ zeros 12))).map
      (saw [0xC8, 0x00, 0xF1, 0x11, 0x22, 0x33, 0x44, 0xB0, 0xF3, 0x55, 0x66, 0x08]
        [.memRd 0x020000 [0x11, 0x22, 0x33, 0x44], .memRd 0x020004 [0x55, 0x66]]) = some true ∧
    (ran (ready false false ([0xC8, 0x02, 0x00, 0x00, 0x00, 0x00, 0x06] ++ zeros 10))).map
      (saw [0xC8, 0x00, 0xF1, 0x11, 0x22, 0x33, 0x44, 0xF3, 0x55, 0x66]
        [.memRd 0x020000 [0x11, 0x22, 0x33, 0x44], .memRd 0x020004 [0x55, 0x66]]) = some true := by
  decide +kernel

/-- D21: chunk 0 out of range, chunk 1 good. -/
theorem test_dmaWrite_one_chunk_out_of_range :
    (ran (ready true false ([0xC1, 0x00, 0x00, 0xFE, 0x00, 0x06, 0x7E, 0xF1, 0x01, 0x02, 0x03, 0x04, 0xE8,
        0xF3, 0x05, 0x06, 0x0C] ++ zeros 2))).map
      (saw [0xC1, 0xFF] [.diag (.outOfRange 0x0000FE 4), .memWr 0x000102 [0x05, 0x06]]) = some true := by
  decide +kernel

/-- D18 and D17: a wrong chunk checksum; wrong markers. -/
theorem test_dmaWrite_bad_chunk_and_markers :
    (ran (ready true false ([0xC1, 0x03, 0x00, 0x20, 0x00, 0x06, 0x34, 0xF1, 0xA1, 0xA2, 0xA3, 0xA4, 0x56,
        0xF3, 0xB1, 0xB2, 0x00] ++ zeros 2))).map
      (fun t => saw [0xC1, 0x00] [.memWr 0x030020 [0xA1, 0xA2, 0xA3, 0xA4], .diag .crcMismatch] t &&
        t.mem.read cfg4 0x030020 6 == some [0xA1, 0xA2, 0xA3, 0xA4, 0x00, 0x00]) = some true ∧
    (ran (ready true false ([0xC1, 0x03, 0x00, 0x10, 0x00, 0x06, 0xE8, 0x00, 0x11, 0x22, 0x33, 0x44, 0xB0,
        0xAB, 0x55, 0x66, 0x08] ++ zeros 2))).map
      (fun t => saw [0xC1, 0x00]
          [.memWr 0x030010 [0x11, 0x22, 0x33, 0x44], .memWr 0x030014 [0x55, 0x66]] t &&
        t.mem.read cfg4 0x030010 6 == some [0x11, 0x22, 0x33, 0x44, 0x55, 0x66]) = some true := by
  decide +kernel

/-- D27 and D28. -/
theorem test_dmaExtWrite :
    (ran (ready true false ([0xC7, 0x03, 0x00, 0x40, 0x00, 0x00, 0x06, 0x84, 0xF1, 0x11, 0x22, 0x33, 0x44, 0xB0,
        0xF3, 0x55, 0x66, 0x08] ++ zeros 2))).map
      (saw [0xC7, 0x00] [.memWr 0x030040 [0x11, 0x22, 0x33, 0x44], .memWr 0x030044 [0x55, 0x66]]) = some true ∧
    (ran (ready false false ([0xC7, 0x0F, 0xFF, 0xFC, 0x00, 0x00, 0x08, 0xF1, 0xA1, 0xA2, 0xA3, 0xA4,
        0xF3, 0xB1, 0xB2, 0xB3, 0xB4] ++ zeros 2))).map
      (saw [0xC7, 0xFF] [.memWr 0x0FFFFC [0xA1, 0xA2, 0xA3, 0xA4], .diag (.outOfRange 0x100000 4)]) =
        some true := by decide +kernel

/-- K1. -/
theorem test_reset :
    (ran (ready true true ([0xCF] ++ zeros 2))).map
      (fun t => saw [0xCF, 0x00] [] t && t.resetPending && t.crcEnabled && t.mem == mem0) = some true := by
  decide +kernel

/-- K3. -/
theorem test_terminate :
    (ran (ready true false ([0xC5] ++ zeros 6))).map
      (saw [0xC5, 0xFF] [.diag (.unknownOpcode 0xC5)]) = some true := by decide +kernel

/-- K4. -/
theorem test_repeat :
    (ran (ready false false ([0xC6, 0xCA, 0xCA, 0xCA, 0xCA] ++ zeros 2))).map
      (saw [0xC6, 0xFF] [.diag (.unknownOpcode 0xC6)]) = some true := by decide +kernel

/-- K2. -/
theorem test_unknown :
    (ran (ready true false ([0x5A, 0x01, 0x02, 0x03, 0x04] ++ zeros 2))).map
      (saw [0x5A, 0xFF] [.diag (.unknownOpcode 0x5A)]) = some true := by decide +kernel

/-- K10: `STATUS_ERR = 01`, `UNKNOWN_DRAIN = 2`. -/
theorem test_unknown_other_parameters :
    (ran { ready true false ([0x5A, 0x00, 0x00] ++ zeros 2) with
        cfg := { cfg4 with statusErr := 0x01, unknownDrain := 2 } }).map
      (saw [0x5A, 0x01] [.diag (.unknownOpcode 0x5A)]) = some true := by decide +kernel

/-- The first byte of K11, and K12: a 0x00 is skipped in AwaitOpcode only. -/
theorem test_idleSkip :
    (ran { ready true false [0x00, 0x00, 0x00, 0xCF] with cfg := { cfg4 with idleZeroSkip := true } }).map
      (fun t => t.inbox == clocks [0x00, 0x00, 0xCF] && t.trace == [.rx 0x00] && t.phase == .awaitOpcode) =
        some true ∧
    (ran { ready true false ([0x5A, 0x00, 0x00, 0x00, 0x00] ++ zeros 2) with
        cfg := { cfg4 with idleZeroSkip := true } }).map
      (saw [0x5A, 0xFF] [.diag (.unknownOpcode 0x5A)]) = some true := by decide +kernel

/-- The end of P4 (b): the master stops inside a frame, and the transaction is left unfinished in ReadParams. -/
theorem test_unfinished_frame :
    (ran (ready true false [0x00])).map (fun t => t.phase == .readParams && t.trace == [.rx 0x00]) =
      some true := by decide +kernel

/-- The third write of P5: the queue is full, the newest is dropped, the store stands. -/
theorem test_notifier_queue_overflow :
    (ran { ready true false ([0xC9, 0x00, 0x10, 0x6C, 0x03, 0x00, 0x00, 0x00, 0x84] ++ zeros 2) with
        cfg := { cfg4 with notifyCap := 2 }, queue := [0x00106C, 0x00106C] }).map
      (fun t => saw [0xC9, 0x00]
          [.memWr 0x00106C [0x03, 0x00, 0x00, 0x00], .drop 0x00106C, .diag (.queueOverflow 0x00106C)] t &&
        t.queue == [0x00106C, 0x00106C]) = some true := by decide +kernel

/-- D29: a chunk is a snapshot, a transfer is not. -/
theorem test_environment_between_chunks :
    (ran { ready false false [] with
        inbox := clocks ([0xC2, 0x02, 0x00, 0x00, 0x00, 0x08] ++ zeros 5) ++
          [.env (.write 0x020000 (List.replicate 8 0xFF))] ++ clocks (zeros 7) }).map
      (saw [0xC2, 0x00, 0xF1, 0x11, 0x22, 0x33, 0x44, 0xF3, 0xFF, 0xFF, 0xFF, 0xFF]
        [.memRd 0x020000 [0x11, 0x22, 0x33, 0x44], .memRd 0x020004 [0xFF, 0xFF, 0xFF, 0xFF]]) = some true := by
  decide +kernel

/-- R24, R46: `INIT_IMAGE` is in memory at startup. -/
theorem test_init_image :
    (State.startup { referenceConfig with initImage := [(0x000000, [0x36, 0x26])] }).mem.read
      referenceConfig 0x000000 4 = some [0x36, 0x26, 0x00, 0x00] := by decide +kernel

/-! ### Witnesses: states and operands that meet the hypotheses of the statements -/

/-- The state of the vectors after the command frame: the master is about to clock `n` more bytes. -/
def readyFor (crc pending : Bool) (n : Nat) : State := ready crc pending (zeros n)

/-- An entry of `INIT_IMAGE` that can be stored: the last word of the map. -/
theorem witness_StartupState :
    Memory.zeroed.write cfg4 0x0FFFFC [0x01, 0x02, 0x03, 0x04] =
      some (put Memory.zeroed 0x0FFFFC [0x01, 0x02, 0x03, 0x04]) := by decide +kernel

/-- BOOTROM with no byte (R4 (c): "every length is at least 1"). -/
def emptyBootrom : RegionTable := { referenceRegions with bootrom := { base := 0x0C0000, length := 0 } }

/-- Every region long enough, but 0x00E824 to 0x00E827 in none of them (R4 (c)). -/
def unmappedRegister : RegionTable :=
  { referenceRegions with
    spictl := { base := 0x00E825, length := 0x100 }
    general := { base := 0x000000, length := 0x00E827 } }

/-- Every clause of R4 that the statement names, one inadmissible configuration each. -/
theorem witness_InadmissibleConfigurationIsRefused :
    ({ cfg4 with statusErr := 0 } : Config).statusErr = 0 ∧
    ({ cfg4 with maxChunk := 0 } : Config).maxChunk = 0 ∧
    (({ cfg4 with regions := emptyBootrom } : Config).span .bootrom).length = 0 ∧
    resolve { cfg4 with regions := unmappedRegister } 0x00E824 4 = .outOfRange ∧
    resolve cfg4 0x0FFFFF [0x00, (0x00 : Byte)].length = .outOfRange ∧
    ({ cfg4 with callbackCap := 0 } : Config).callbackCap < cfg4.subscribed.length := by decide +kernel

theorem witness_DecodeAfterEncode :
    WellFormed ctxOn (.dmaExtRead 0xFFFFFF 0xFFFFFF (some 0xFF)) = true ∧ WellFormed ctxSkip .idleSkip = true ∧
    WellFormed ctxOff (.unknown 0xFF) = true ∧ WellFormed ctxOff (.internalWrite 0xFFFF 0xFFFFFFFF none) = true := by
  decide

theorem witness_EncodeAfterDecode :
    decode ctxOn [0xC5, 0x01, 0x02, 0x03, 0x04, 0xCF] = .ok (.terminate, [0xCF]) := rfl

theorem witness_EveryOpcodeByteIsHandled :
    1 + [0x00, 0x10, 0x6C, (0xBE : Byte)].length = frameLength ctxOn 0xCA ∧
    1 + ([] : List Byte).length = frameLength ctxOn 0xCF ∧
    1 + [0x01, 0x02, 0x03, (0x04 : Byte)].length = frameLength ctxOff 0xFF := by decide

/-- The third clause: a frame that verifies, and another checksum byte. -/
theorem witness_VerifyComparesTheChecksum :
    verify referenceConfig ([0xCA, 0x00, 0x10, 0x8C] ++ [0x90]) = true ∧ (0x91 : Byte) ≠ 0x90 := by decide +kernel

/-- Both directions of R32: a range that ends with its region, and an earlier region that does not contain its
start although the range reaches into it (M6). -/
theorem witness_ResolveTakesFirstContainingRegion :
    resolve cfg4 0x000FFE 4 = .range .general 0xFFE 4 ∧ Contains cfg4 .general 0x000FFE ∧
    ¬ Contains cfg4 .periph 0x000FFE ∧ 0x000FFE + 4 ≤ (cfg4.span .general).base + (cfg4.span .general).length := by
  refine ⟨by decide +kernel, ⟨by decide, by decide⟩, fun h => ?_, by decide⟩
  exact absurd h.1 (by decide)

/-- The four clauses: an unresolved read and write, a read of the last word, a write of the last word over a
memory in canonical form. -/
theorem witness_MemWriteThenMemRead :
    resolve cfg4 0x0FFFFD 4 = .outOfRange ∧ resolve cfg4 0x0FFFFD [0x01, 0x02, 0x03, (0x04 : Byte)].length = .outOfRange ∧
    resolve cfg4 0x0FFFFC 4 = .range .general 0xFFFFC 4 ∧ mem0.wf := by decide +kernel

theorem witness_WordsAreLittleEndian :
    mem0.wf ∧ mem0.write cfg4 0x0FFFFC (bytesLe32 0x02532636) =
      some (put mem0 0x0FFFFC [0x36, 0x26, 0x53, 0x02]) := by decide +kernel

/-- `MAX_CHUNK = 4`: sizes 0, 8 (no short last chunk) and 9; the command at the start of the last chunk. -/
theorem witness_ChunkCutting :
    chunkCount 4 0 = 0 ∧ chunkCount 4 8 = 2 ∧ chunkCount 4 9 = 3 ∧ 1 + 1 < chunkCount 4 9 ∧ 2 < chunkCount 4 9 ∧
    cfg4.maxChunk = 4 ∧ ({ Command.start 0xC2 with size := 9, offset := 8 } : Command).size.toNat = 9 ∧
    ({ Command.start 0xC2 with size := 9, offset := 8 } : Command).offset = 2 * 4 := by decide

theorem witness_StepRunsTheDecodedFrame :
    (ready true false ([0xCA, 0x00, 0x10, 0x6C, 0xBE] ++ zeros 8)).cfg.Admissible ∧
    (ready true false ([0xCA, 0x00, 0x10, 0x6C, 0xBE] ++ zeros 8)).phase = .awaitOpcode ∧
    (ready true false ([0xCA, 0x00, 0x10, 0x6C, 0xBE] ++ zeros 8)).cmd = none ∧
    (ready true false ([0xCA, 0x00, 0x10, 0x6C, 0xBE] ++ zeros 8)).inbox =
      clocks [0xCA, 0x00, 0x10, 0x6C, 0xBE] ++ clocks (zeros 8) ∧
    decode (ready true false ([0xCA, 0x00, 0x10, 0x6C, 0xBE] ++ zeros 8)).frameContext
      [0xCA, 0x00, 0x10, 0x6C, 0xBE] = .ok (.singleRead 0x00106C (some 0xBE), []) :=
  ⟨by decide +kernel, rfl, rfl, by decide +kernel, rfl⟩

/-- Inside a DMA read, between the end of chunk 0 and the marker of chunk 1: work is pending and the inbox is
empty. -/
def betweenChunks : State :=
  { ready false false [] with
    phase := .writeResponse
    cmd := some { Command.start 0xC2 with
      cmdBytes := [0xC2, 0x02, 0x00, 0x00, 0x00, 0x08], addr := 0x020000, size := 8, offset := 4,
      cmdCrcOk := true } }

theorem witness_StepWaitsForTheMaster :
    betweenChunks.Inv ∧ betweenChunks.inbox = [] ∧
    (ran betweenChunks).map (fun t => t.trace == [.memRd 0x020004 [0x55, 0x66, 0x77, 0x88]]) = some true := by
  decide +kernel

theorem witness_IdleFillerByte :
    let s : State := { ready true false [0x00, 0xCF] with cfg := { cfg4 with idleZeroSkip := true } }
    s.cfg.Admissible ∧ s.cfg.idleZeroSkip = true ∧ s.phase = .awaitOpcode ∧ s.cmd = none ∧ s.respOe = false ∧
    s.inbox = .clock 0 :: clocks [0xCF] ∧ clocks [0xCF] = .clock 0xCF :: [] ∧
    ctxOn.skip = false ∧ ctxOn.drain ≤ [0x00, 0x00, 0x00, (0x00 : Byte)].length := by decide +kernel

/-- A state inside a transaction, not only a state at rest. -/
theorem witness_StepKeepsInvariant :
    betweenChunks.Inv ∧ (ran betweenChunks).isSome = true ∧ (ready true true [0xCF, 0x00]).Inv ∧
    (ran (ready true true [0xCF, 0x00])).isSome = true := by decide +kernel

theorem witness_TransportLoopGoesOn : betweenChunks.cfg.Admissible ∧ betweenChunks.Inv := by decide +kernel

theorem witness_ChecksumFlagIsNeverSetAgain :
    betweenChunks.crcEnabled = false ∧ (ran betweenChunks).isSome = true := by decide +kernel

theorem witness_ConfigurationAndPastTraceAreKept :
    (ran { ready true false ([0xCF] ++ zeros 2) with trace := [.rx 0x00] }).isSome = true := by decide +kernel

/-- A store that resolves, one that does not, a state that still receives its frame, one after it. -/
theorem witness_EnvironmentReachesMemoryAndQueueOnly :
    mem0.write cfg4 0x00108C [0x19, 0x00, 0x00, 0x00] = some (put mem0 0x00108C [0x19, 0x00, 0x00, 0x00]) ∧
    mem0.write cfg4 0x0FFFFE [0x19, 0x00, 0x00, 0x00] = none ∧
    ((readyFor true false 0).receiveOpcode 0xCA).frameComplete = false ∧
    ((readyFor true false 0).receiveOpcode 0xCA).phase = .readParams ∧
    betweenChunks.phase ≠ .awaitOpcode := by decide +kernel

/-- Each shape of transaction: a word read, a two-chunk DMA write with its payload, and the idle byte. -/
theorem witness_FramingInvariance :
    (readyFor true false 8).cfg.Admissible ∧
    conversationLength cfg4 true (.singleRead 0x00106C (some 0xBE)) ≤ byteTimes (readyFor true false 8).inbox ∧
    conversationLength cfg4 true (.dmaWrite 0x030000 6 (some 0x52)) ≤ byteTimes (readyFor true false 12).inbox ∧
    conversationLength cfg4 true .idleSkip ≤ byteTimes (readyFor true false 0).inbox := by decide +kernel

/-- AwaitOpcode; ReadParams inside a frame; Execute of a word read, and of a DMA write, which stays there. -/
theorem witness_PhaseFollowsTheCycle :
    (readyFor true false 0).phase = .awaitOpcode ∧ (readyFor true false 0).cmd = none ∧
    ((readyFor true false 0).receiveOpcode 0xCA).phase = .readParams ∧
    ((readyFor true false 0).receiveOpcode 0xCA).cmd ≠ none ∧
    (Instr.singleRead 0x00106C (some 0xBE)) ≠ .idleSkip ∧
    ({ readyFor true false 0 with phase := .execute } : State).phase = .execute ∧
    (executionOf (.dmaWrite 0x030000 6 (some 0x52))
      ((readyFor true false 0).load (.dmaWrite 0x030000 6 (some 0x52)))
      { readyFor true false 0 with phase := .execute }).phase = .execute := by decide +kernel

/-! The word accesses. -/

theorem wordReadOf_single (a : Addr) (crc : Option Byte) : WordReadOf a (.singleRead a crc) := .inl ⟨_, rfl⟩
theorem wordReadOf_internal (b : InternalAddr) (crc : Option Byte) :
    WordReadOf (zext24 b) (.internalRead b crc) := .inr ⟨_, _, rfl, rfl⟩
theorem wordWriteOf_single (a : Addr) (v : Word) (crc : Option Byte) : WordWriteOf a v (.singleWrite a v crc) :=
  .inl ⟨_, rfl⟩
theorem wordWriteOf_internal (b : InternalAddr) (v : Word) (crc : Option Byte) :
    WordWriteOf (zext24 b) v (.internalWrite b v crc) := .inr ⟨_, _, rfl, rfl⟩
theorem dmaReadOf_narrow (a : Addr) (n : BitVec 16) (crc : Option Byte) :
    DmaReadOf a n.toNat (.dmaRead a n crc) := .inl ⟨_, _, rfl, rfl⟩
theorem dmaReadOf_wide (a : Addr) (n : BitVec 24) (crc : Option Byte) :
    DmaReadOf a n.toNat (.dmaExtRead a n crc) := .inr ⟨_, _, rfl, rfl⟩
theorem dmaWriteOf_narrow (a : Addr) (n : BitVec 16) (crc : Option Byte) :
    DmaWriteOf a n.toNat (.dmaWrite a n crc) := .inl ⟨_, _, rfl, rfl⟩
theorem dmaWriteOf_wide (a : Addr) (n : BitVec 24) (crc : Option Byte) :
    DmaWriteOf a n.toNat (.dmaExtWrite a n crc) := .inr ⟨_, _, rfl, rfl⟩

/-- W6, W10 and, while the soft reset is armed, W26. -/
theorem witness_WordReadAnswersStoredBytes :
    (WordReadOf 0x0FFFFC (.singleRead 0x0FFFFC (some 0x18)) ∧ WordReadOf 0x00106C (.internalRead 0x106C (some 0xB2))) ∧
    CommandGood (readyFor true false 8) (.singleRead 0x0FFFFC (some 0x18)) ∧
    CommandGood (readyFor true false 8) (.internalRead 0x106C (some 0xB2)) ∧
    mem0.read cfg4 0x0FFFFC 4 = some (zeros 4) ∧ mem0.read cfg4 0x00106C 4 = some [0x78, 0x56, 0x34, 0x12] ∧
    CommandGood (readyFor true true 8) (.singleRead 0x00108D (some 0x82)) ∧ (0x00108D : Addr) ≠ 0x00108C ∧
    (readyFor true false 8).inbox = clocks (zeros 8) ++ [] ∧ (zeros 8).length = 7 + true.toNat := by
  refine ⟨⟨wordReadOf_single _ _, wordReadOf_internal _ _⟩, ?_⟩
  simp only [CommandGood]; decide +kernel

/-- W25 and the first read of P1. -/
theorem witness_StateRegisterOverride :
    (WordReadOf 0x00108C (.internalRead 0x108C (some 0x9C)) ∧ WordReadOf 0x00108C (.singleRead 0x00108C (some 0x90))) ∧
    CommandGood (readyFor true true 8) (.internalRead 0x108C (some 0x9C)) ∧
    CommandGood (readyFor true true 8) (.singleRead 0x00108C (some 0x90)) ∧
    (readyFor true true 8).resetPending = true ∧ (readyFor true true 8).inbox = clocks (zeros 8) ++ [] := by
  refine ⟨⟨wordReadOf_internal _ _, wordReadOf_single _ _⟩, ?_⟩
  simp only [CommandGood]; decide +kernel

/-- W7: one byte past the last word. -/
theorem witness_WordReadOutOfRange :
    WordReadOf 0x0FFFFD (.singleRead 0x0FFFFD (some 0x0A)) ∧
    CommandGood (readyFor true false 8) (.singleRead 0x0FFFFD (some 0x0A)) ∧
    (readyFor true false 8).resetPending = false ∧ resolve cfg4 0x0FFFFD 4 = .outOfRange ∧
    (readyFor true false 8).inbox = clocks (zeros 8) ++ [] := by
  refine ⟨wordReadOf_single _ _, ?_⟩
  simp only [CommandGood]; decide +kernel

/-- W9 and D12. -/
theorem witness_ReadWithBadChecksumAnswersZeros :
    (MemoryRead (.singleRead 0x00106C (some 0xBF)) ∧ MemoryRead (.dmaRead 0x020000 6 (some 0xA3))) ∧
    ¬ CommandGood (readyFor true false 8) (.singleRead 0x00106C (some 0xBF)) ∧
    ¬ CommandGood (readyFor true false 12) (.dmaRead 0x020000 6 (some 0xA3)) ∧
    (zeros 8).length = responseLength cfg4 true (.singleRead 0x00106C (some 0xBF)) ∧
    (zeros 12).length = responseLength cfg4 true (.dmaRead 0x020000 6 (some 0xA3)) ∧
    (readyFor true false 12).inbox = clocks (zeros 12) ++ [] := by
  refine ⟨⟨.inl ⟨_, wordReadOf_single _ _⟩, .inr ⟨_, _, dmaReadOf_narrow _ _ _⟩⟩, ?_⟩
  simp only [CommandGood]; decide +kernel

/-- W12; W22, which clears the flag; W20, which does not. -/
theorem witness_WordWriteStores :
    (WordWriteOf 0x00106C 0x12345678 (.singleWrite 0x00106C 0x12345678 (some 0xF4)) ∧
      WordWriteOf 0x00E824 0x00000C00 (.internalWrite 0xE824 0x00000C00 (some 0x2E))) ∧
    CommandGood (readyFor true false 2) (.singleWrite 0x00106C 0x12345678 (some 0xF4)) ∧
    CommandGood (readyFor true false 2) (.internalWrite 0xE824 0x00000C00 (some 0x2E)) ∧
    (0x00106C : Addr) ≠ 0x000000 ∧
    mem0.write cfg4 0x00106C (bytesLe32 0x12345678) = some (put mem0 0x00106C [0x78, 0x56, 0x34, 0x12]) ∧
    mem0.write cfg4 0x00E824 (bytesLe32 0x00000C00) = some (put mem0 0x00E824 [0x00, 0x0C, 0x00, 0x00]) ∧
    Bits32Clear 0x00000C00 ∧ ¬ Bits32Clear 0x00000054 ∧
    (readyFor true false 2).inbox = clocks (zeros 2) ++ [] := by
  refine ⟨⟨wordWriteOf_single _ _ _, wordWriteOf_internal _ _ _⟩, ?_⟩
  simp only [CommandGood, Bits32Clear]; decide +kernel

/-- W15 and W18; W16, the first address that is not intercepted, and 0x000003. -/
theorem witness_IdentityWriteArmsTheSoftReset :
    (WordWriteOf 0x000000 0xDEADBEEF (.singleWrite 0x000000 0xDEADBEEF (some 0xB0)) ∧
      WordWriteOf 0x000000 5 (.internalWrite 0x0000 5 (some 0x96)) ∧
      WordWriteOf 0x000001 0x11223344 (.singleWrite 0x000001 0x11223344 (some 0xAA)) ∧
      WordWriteOf 0x000003 0x11223344 (.singleWrite 0x000003 0x11223344 none)) ∧
    CommandGood (readyFor true false 2) (.singleWrite 0x000000 0xDEADBEEF (some 0xB0)) ∧
    CommandGood (readyFor true false 2) (.internalWrite 0x0000 5 (some 0x96)) ∧
    CommandGood (readyFor true false 2) (.singleWrite 0x000001 0x11223344 (some 0xAA)) ∧
    CommandGood (readyFor false false 2) (.singleWrite 0x000003 0x11223344 none) ∧
    mem0.write cfg4 0x000001 (bytesLe32 0x11223344) = some (put mem0 0x000001 [0x44, 0x33, 0x22, 0x11]) ∧
    mem0.write cfg4 0x000003 (bytesLe32 0x11223344) = some (put mem0 0x000003 [0x44, 0x33, 0x22, 0x11]) ∧
    (readyFor true false 2).inbox = clocks (zeros 2) ++ [] := by
  refine ⟨⟨wordWriteOf_single _ _ _, wordWriteOf_internal _ _ _, wordWriteOf_single _ _ _,
    wordWriteOf_single _ _ _⟩, ?_⟩
  simp only [CommandGood]; decide +kernel

/-- W13. -/
theorem witness_WordWriteOutOfRange :
    WordWriteOf 0x200000 1 (.singleWrite 0x200000 1 (some 0xDA)) ∧
    CommandGood (readyFor true false 2) (.singleWrite 0x200000 1 (some 0xDA)) ∧ (0x200000 : Addr) ≠ 0x000000 ∧
    resolve cfg4 0x200000 4 = .outOfRange ∧ (readyFor true false 2).inbox = clocks (zeros 2) ++ [] := by
  refine ⟨wordWriteOf_single _ _ _, ?_⟩
  simp only [CommandGood]; decide +kernel

/-- W14 and D19, with its payload. -/
theorem witness_WriteWithBadChecksumIsIgnored :
    (WordWriteOf 0x00106C 0xFFFFFFFF (.singleWrite 0x00106C 0xFFFFFFFF (some 0x00)) ∧
      DmaWriteOf 0x030030 6 (.dmaWrite 0x030030 6 (some 0x00))) ∧
    ¬ CommandGood (readyFor true false 2) (.singleWrite 0x00106C 0xFFFFFFFF (some 0x00)) ∧
    ¬ CommandGood (readyFor true false 2) (.dmaWrite 0x030030 6 (some 0x00)) ∧ 1 ≤ cfg4.maxChunk ∧
    (zeros 0).length = payloadLength cfg4 true (.singleWrite 0x00106C 0xFFFFFFFF (some 0x00)) ∧
    [0xF1, 0x11, 0x22, 0x33, 0x44, 0xB0, 0xF3, 0x55, 0x66, (0x08 : Byte)].length =
      payloadLength cfg4 true (.dmaWrite 0x030030 6 (some 0x00)) := by
  refine ⟨⟨wordWriteOf_single _ _ _, dmaWriteOf_narrow 0x030030 6 _⟩, ?_⟩
  simp only [CommandGood]; decide +kernel

/-- Both outcomes of R92: a run that clears the flag (W24), and one that does not (W19). -/
theorem witness_ChecksumSwitchOff :
    (ran (ready true false ([0xC9, 0x00, 0xE8, 0x24, 0x50, 0x00, 0x00, 0x00, 0x70] ++ zeros 2))).map
      (·.crcEnabled) = some false ∧
    (ran (ready true false ([0xC9, 0x00, 0xE8, 0x24, 0x5C, 0x00, 0x00, 0x00, 0x58] ++ zeros 2))).map
      (·.crcEnabled) = some true := by decide +kernel

/-- The queue one below its capacity, and at it. -/
theorem witness_NotifyQueuesOrDropsTheNewest :
    let s : State := { readyFor true false 0 with queue := List.replicate 15 0x00106C }
    let t : State := { readyFor true false 0 with queue := List.replicate 16 0x00106C }
    s.queue.length < s.cfg.notifyCap ∧ t.cfg.notifyCap ≤ t.queue.length := by decide +kernel

/-! The transfers. -/

/-- D7 and D13. -/
theorem witness_DmaReadStreamsTheRange :
    (DmaReadOf 0x020000 9 (.dmaRead 0x020000 9 (some 0x4C)) ∧
      DmaReadOf 0x020000 6 (.dmaExtRead 0x020000 6 (some 0xB8))) ∧
    CommandGood (readyFor true false 17) (.dmaRead 0x020000 9 (some 0x4C)) ∧
    CommandGood (readyFor true false 12) (.dmaExtRead 0x020000 6 (some 0xB8)) ∧ 1 ≤ cfg4.maxChunk ∧
    mem0.read cfg4 0x020000 9 = some [0x11, 0x22, 0x33, 0x44, 0x55, 0x66, 0x77, 0x88, 0x99] ∧
    (zeros 17).length = responseLength cfg4 true (.dmaRead 0x020000 9 (some 0x4C)) ∧
    (readyFor true false 17).inbox = clocks (zeros 17) ++ [] := by
  refine ⟨⟨dmaReadOf_narrow 0x020000 9 _, dmaReadOf_wide 0x020000 6 _⟩, ?_⟩
  simp only [CommandGood]; decide +kernel

/-- D9. -/
theorem witness_DmaReadOutOfRange :
    DmaReadOf 0x0FFFFE 6 (.dmaRead 0x0FFFFE 6 (some 0x84)) ∧
    CommandGood (readyFor true false 12) (.dmaRead 0x0FFFFE 6 (some 0x84)) ∧
    resolve cfg4 0x0FFFFE 6 = .outOfRange ∧
    (zeros 12).length = responseLength cfg4 true (.dmaRead 0x0FFFFE 6 (some 0x84)) ∧
    (readyFor true false 12).inbox = clocks (zeros 12) ++ [] := by
  refine ⟨dmaReadOf_narrow 0x0FFFFE 6 _, ?_⟩
  simp only [CommandGood]; decide +kernel

/-- D11, the last address of a region; D10, the first address outside; D23. -/
theorem witness_ZeroSizeTransfers :
    (DmaReadOf 0x0FFFFF 0 (.dmaRead 0x0FFFFF 0 (some 0xB6)) ∧ (∃ r, Contains cfg4 r 0x0FFFFF)) ∧
    (DmaReadOf 0x100000 0 (.dmaRead 0x100000 0 (some 0xBA)) ∧ ¬ ∃ r, Contains cfg4 r 0x100000) ∧
    DmaWriteOf 0x200000 0 (.dmaWrite 0x200000 0 (some 0xC0)) ∧
    CommandGood (readyFor true false 2) (.dmaRead 0x0FFFFF 0 (some 0xB6)) ∧
    CommandGood (readyFor true false 2) (.dmaRead 0x100000 0 (some 0xBA)) ∧
    CommandGood (readyFor true false 2) (.dmaWrite 0x200000 0 (some 0xC0)) ∧
    (readyFor true false 2).inbox = clocks (zeros 2) ++ [] := by
  refine ⟨⟨dmaReadOf_narrow _ 0 _, .general, by decide, by decide⟩, ⟨dmaReadOf_narrow _ 0 _, ?_⟩,
    dmaWriteOf_narrow _ 0 _, ?_⟩
  · rintro ⟨r, -, h⟩; cases r <;> exact absurd h (by decide)
  · simp only [CommandGood]; decide +kernel

/-- D21: one chunk out of range and one stored; D18: a chunk with a bad checksum; D19: a bad command. -/
theorem witness_DmaWriteIsTheChunkLoop :
    DmaWriteOf 0x0000FE 6 (.dmaWrite 0x0000FE 6 (some 0x7E)) ∧
    CommandGood (readyFor true false 12) (.dmaWrite 0x0000FE 6 (some 0x7E)) ∧
    ¬ CommandGood (readyFor true false 12) (.dmaWrite 0x030030 6 (some 0x00)) ∧ 1 ≤ cfg4.maxChunk ∧
    (ready true false ([0xF1, 0x01, 0x02, 0x03, 0x04, 0xE8, 0xF3, 0x05, 0x06, 0x0C] ++ zeros 2)).inbox =
      clocks ([0xF1, 0x01, 0x02, 0x03, 0x04, 0xE8, 0xF3, 0x05, 0x06, 0x0C] ++ zeros 2) ++ [] ∧
    [0xF1, 0x01, 0x02, 0x03, 0x04, 0xE8, 0xF3, 0x05, 0x06, (0x0C : Byte)].length =
      payloadLength cfg4 true (.dmaWrite 0x0000FE 6 (some 0x7E)) := by
  refine ⟨dmaWriteOf_narrow 0x0000FE 6 _, ?_⟩
  simp only [CommandGood]; decide +kernel

/-- The loop of R125 on D21's payload, as the vector gives it: chunk 0 discarded, chunk 1 stored. -/
theorem test_receiveChunks :
    (receiveChunks (readyFor true false 0) true 0x0000FE 6
      [0xF1, 0x01, 0x02, 0x03, 0x04, 0xE8, 0xF3, 0x05, 0x06, 0x0C]).1 = put mem0 0x000102 [0x05, 0x06] ∧
    (receiveChunks (readyFor true false 0) true 0x0000FE 6
      [0xF1, 0x01, 0x02, 0x03, 0x04, 0xE8, 0xF3, 0x05, 0x06, 0x0C]).2.1 = true := by decide +kernel

/-- D16. -/
theorem witness_DmaWriteDeliversThePayload :
    DmaWriteOf 0x030000 6 (.dmaWrite 0x030000 6 (some 0x52)) ∧
    CommandGood (readyFor true false 12) (.dmaWrite 0x030000 6 (some 0x52)) ∧ mem0.wf ∧
    resolve cfg4 0x030000 6 = .range .general 0x30000 6 ∧
    (∀ j, j < chunkCount 4 6 → resolve cfg4 (0x030000 + j * 4) (chunkLength 4 6 j) =
      .range .general (0x30000 + j * 4) (chunkLength 4 6 j)) ∧
    payloadOf (readyFor true false 0) (fun j => if j = 0 then 0xF1 else 0xF3) [0x11, 0x22, 0x33, 0x44, 0x55, 0x66] =
      [0xF1, 0x11, 0x22, 0x33, 0x44, 0xB0, 0xF3, 0x55, 0x66, 0x08] := by
  refine ⟨dmaWriteOf_narrow 0x030000 6 _, ?_⟩
  simp only [CommandGood]; decide +kernel

/-! Control. -/

theorem witness_ResetAcknowledgesOnly :
    (readyFor true true 2).inbox = clocks (zeros 2) ++ [] ∧ (zeros 2).length = 2 := by decide +kernel

theorem witness_UnknownOpcodesAnswerAnError :
    decodeOp 0x00 = .unknown ∧ isIdleFiller ctxOn 0x00 = false ∧ isIdleFiller ctxSkip 0xC5 = false ∧
    decodeOp 0xFF = .unknown ∧ (readyFor true false 2).inbox = clocks (zeros 2) ++ [] := by decide +kernel

/-- Checksums off and on; C17's and D5's frames are good, with another checksum byte (C18) they are not. -/
theorem witness_CommandChecksumIsVerified :
    (readyFor false false 0).crcEnabled = false ∧ Control .repeatCmd ∧ (readyFor true false 0).crcEnabled = true ∧
    CommandGood (readyFor true false 0) (.singleRead (be3 0x00 0x10 0x8C) (some 0x90)) ∧
    ¬ CommandGood (readyFor true false 0) (.singleRead (be3 0x00 0x10 0x8C) (some 0x91)) ∧
    CommandGood (readyFor true false 0) (.dmaRead (be3 0x02 0x00 0x00) (be2 0x00 0x06) (some 0xA2)) := by
  refine ⟨rfl, .inr (.inr (.inl rfl)), rfl, ?_⟩
  simp only [CommandGood]; decide +kernel

/-! Frames, equivalences, programs. -/

theorem ran_exec {i : Instr} {s : State}
    (h : (match exec i s with | .next _ => true | .fault _ => false | .refused _ => false) = true) :
    ∃ t, exec i s = .next t := by
  cases h' : exec i s with
  | next t => exact ⟨t, rfl⟩
  | fault f => rw [h'] at h; cases h
  | refused r => rw [h'] at h; cases h

theorem undisturbed_clocks (bytes : List Byte) : undisturbed (clocks bytes) := by
  intro st hst e h
  subst h
  simp [clocks] at hst

theorem witness_ReadAndControlFrame :
    MemoryRead (.singleRead 0x00106C (some 0xBE)) ∧ Control .terminate ∧ undisturbed (readyFor true false 8).inbox ∧
    ∃ t, exec (.singleRead 0x00106C (some 0xBE)) (readyFor true false 8) = .next t :=
  ⟨.inl ⟨_, wordReadOf_single _ _⟩, .inr (.inl rfl), undisturbed_clocks _, ran_exec (by decide +kernel)⟩

theorem witness_WordWriteFrame :
    WordWriteOf 0x0000FC 0x12345678 (.internalWrite 0x00FC 0x12345678 none) ∧
    undisturbed (readyFor false false 2).inbox ∧
    ∃ t, exec (.internalWrite 0x00FC 0x12345678 none) (readyFor false false 2) = .next t :=
  ⟨wordWriteOf_internal _ _ _, undisturbed_clocks _, ran_exec (by decide +kernel)⟩

theorem witness_DmaWriteFrame :
    DmaWriteOf 0x0FFFFC 8 (.dmaExtWrite 0x0FFFFC 8 none) ∧ undisturbed (readyFor false false 12).inbox ∧
    ∃ t, exec (.dmaExtWrite 0x0FFFFC 8 none) (readyFor false false 12) = .next t :=
  ⟨dmaWriteOf_wide 0x0FFFFC 8 _, undisturbed_clocks _, ran_exec (by decide +kernel)⟩

/-- The setter (W15), the clearer (W25), and a command that is neither (W27: a bad checksum). -/
theorem witness_ResetPendingHasOneSetterAndOneClearer :
    (∃ t, exec (.singleWrite 0x000000 0xDEADBEEF (some 0xB0)) (readyFor true false 2) = .next t) ∧
    CommandGood (readyFor true false 2) (.singleWrite 0x000000 0xDEADBEEF (some 0xB0)) ∧
    (∃ t, exec (.internalRead 0x108C (some 0x9C)) (readyFor true true 8) = .next t) ∧
    CommandGood (readyFor true true 8) (.internalRead 0x108C (some 0x9C)) ∧
    (∃ t, exec (.singleRead 0x00108C (some 0x00)) (readyFor true true 8) = .next t) ∧
    ¬ CommandGood (readyFor true true 8) (.singleRead 0x00108C (some 0x00)) := by
  refine ⟨ran_exec (by decide +kernel), ?_, ran_exec (by decide +kernel), ?_, ran_exec (by decide +kernel), ?_⟩ <;>
    simp only [CommandGood] <;> decide +kernel

/-- W1 and W10; W23 and W24. -/
theorem witness_AddressWidthsAgree :
    CommandGood (readyFor true false 8) (.internalRead 0x106C (some 0xB2)) ∧
    CommandGood (readyFor true false 8) (.singleRead (zext24 0x106C) (some 0xBE)) ∧
    CommandGood (readyFor true false 2) (.internalWrite 0xE824 0x00000050 (some 0x62)) ∧
    CommandGood (readyFor true false 2) (.singleWrite (zext24 0xE824) 0x00000050 (some 0x70)) ∧
    (zeros 8).length = responseLength cfg4 true (.internalRead 0x106C (some 0xB2)) ∧
    (zeros 2).length = responseLength cfg4 true (.internalWrite 0xE824 0x00000050 (some 0x62)) := by
  simp only [CommandGood]; decide +kernel

/-- D5 and D13; a write with checksums off (R122 and R123's examples). -/
theorem witness_SizeWidthsAgree :
    CommandGood (readyFor true false 12) (.dmaRead 0x020000 6 (some 0xA2)) ∧
    CommandGood (readyFor true false 12) (.dmaExtRead 0x020000 (sizeOf16 6) (some 0xB8)) ∧
    CommandGood (readyFor false false 12) (.dmaWrite 0x0FFFFC 8 none) ∧
    CommandGood (readyFor false false 12) (.dmaExtWrite 0x0FFFFC (sizeOf16 8) none) ∧ 1 ≤ cfg4.maxChunk ∧
    (zeros 12).length = conversationLength cfg4 true (.dmaRead 0x020000 6 (some 0xA2)) ∧
    (zeros 12).length = conversationLength cfg4 false (.dmaWrite 0x0FFFFC 8 none) := by
  simp only [CommandGood]; decide +kernel

/-- D3 beside a word read of the same address, with checksums off. -/
theorem witness_WordAndDmaReadsAgree :
    WordReadOf 0x020000 (.singleRead 0x020000 none) ∧ DmaReadOf 0x020000 4 (.dmaRead 0x020000 4 none) ∧
    CommandGood (readyFor false false 7) (.singleRead 0x020000 none) ∧
    CommandGood (readyFor false false 7) (.dmaRead 0x020000 4 none) ∧ 4 ≤ cfg4.maxChunk ∧
    (readyFor false false 7).resetPending = false ∧ (zeros 7).length = 7 + false.toNat := by
  refine ⟨wordReadOf_single _ _, dmaReadOf_narrow 0x020000 4 _, ?_⟩
  simp only [CommandGood]; decide +kernel

/-- P1. -/
theorem witness_SoftResetHandshake :
    WordWriteOf 0x000000 0xDEADBEEF (.singleWrite 0x000000 0xDEADBEEF (some 0xB0)) ∧
    WordReadOf 0x00108C (.singleRead 0x00108C (some 0x90)) ∧
    CommandGood (readyFor true false 18) (.singleWrite 0x000000 0xDEADBEEF (some 0xB0)) ∧
    CommandGood (readyFor true false 18) (.singleRead 0x00108C (some 0x90)) ∧
    mem0.read cfg4 0x00108C 4 = some [0xDD, 0xCC, 0xBB, 0xAA] ∧
    (readyFor true false 18).inbox = clocks (zeros 2 ++ zeros 8 ++ zeros 8) ++ [] := by
  refine ⟨wordWriteOf_single _ _ _, wordReadOf_single _ _, ?_⟩
  simp only [CommandGood]; decide +kernel

/-- S3: W1 sent twice. -/
theorem witness_RepeatedReadsAgree :
    MemoryRead (.singleRead 0x00106C (some 0xBE)) ∧ (readyFor true false 16).resetPending = false ∧
    1 ≤ cfg4.maxChunk ∧ (readyFor true false 16).inbox = clocks (zeros 8 ++ zeros 8) ++ [] ∧
    (zeros 8).length = responseLength cfg4 true (.singleRead 0x00106C (some 0xBE)) := by
  refine ⟨.inl ⟨_, wordReadOf_single _ _⟩, ?_⟩
  decide +kernel

end Sys2Proof.Tests
end

section
/-! The statements about the scope of the model (`00_scope.md`): the configuration and the trace of the past stand
through every step (R3, R9), and an inadmissible configuration has no meaning (R4). -/

namespace Sys2Proof.Machine

/-! ### What the past of a run keeps -/

/-- `t` can lie in the future of `s`: the configuration is the same (R3) and the trace of `s` is a beginning of
the trace of `t` (R9). -/
def State.KeepsPast (s t : State) : Prop := t.cfg = s.cfg ∧ ∃ evs, t.trace = s.trace ++ evs

theorem State.KeepsPast.trans {s t u : State} (hst : s.KeepsPast t) (htu : t.KeepsPast u) : s.KeepsPast u := by
  obtain ⟨hcfg, evs, htrace⟩ := hst
  obtain ⟨hcfg', evs', htrace'⟩ := htu
  exact ⟨hcfg'.trans hcfg, evs ++ evs', by rw [htrace', htrace, List.append_assoc]⟩

/-- A state with the same configuration and the same trace keeps the past. -/
theorem State.keepsPast_of_eq {s t : State} (hcfg : t.cfg = s.cfg) (htrace : t.trace = s.trace) : s.KeepsPast t :=
  ⟨hcfg, [], by rw [htrace, List.append_nil]⟩

theorem fetch_keepsPast (l : List Stimulus) (s : State) : s.KeepsPast (fetch l s) :=
  ⟨fetch_cfg l s, fetch_trace l s⟩

theorem settleEnvironment_keepsPast (l : List Stimulus) (s : State) : s.KeepsPast (settleEnvironment l s) :=
  State.keepsPast_of_eq (settleEnvironment_cfg l s) (settleEnvironment_trace l s)

theorem converse_keepsPast (l : List Stimulus) (s : State) : s.KeepsPast (converse l s) :=
  ⟨converse_cfg l s, converse_trace l s⟩

theorem ExecuteFrame.keepsPast {c : Command} {s s' : State} (h : ExecuteFrame c s s') : s.KeepsPast s' := by
  obtain ⟨_, _, _, _, _, _, evs, rfl, -⟩ := h
  exact ⟨rfl, evs, rfl⟩

/-- Every meaning keeps the past: its Execute part does, and so does the rest of the transaction. -/
theorem exec_keepsPast {i : Instr} {s t : State} (h : exec i s = .next t) : s.KeepsPast t := by
  rw [exec_eq] at h
  cases hf : executePart i with
  | none =>
    rw [hf] at h
    cases h
    exact State.keepsPast_of_eq (State.finish_cfg s) (State.finish_trace s)
  | some f =>
    rw [hf] at h
    cases h
    have executed : s.KeepsPast (f (s.load i) { s with phase := .execute, cmd := some (s.load i) }) :=
      (executePart_frame hf rfl).keepsPast
    exact executed.trans (converse_keepsPast _ _)

theorem fetchAndRun_keepsPast {s t : State} (h : fetchAndRun s = .next t) : s.KeepsPast t := by
  have fetched := fetch_keepsPast s.inbox s
  rcases fetchAndRun_next h with ⟨-, rfl⟩ | ⟨c, i, r, -, -, -, hrun⟩
  · exact fetched
  · exact (fetched.trans (settleEnvironment_keepsPast _ _)).trans (exec_keepsPast hrun)

theorem step_keepsPast {s t : State} (h : step s = .next t) : s.KeepsPast t := by
  obtain ⟨-, ⟨-, hfetch⟩ | ⟨-, -, rfl⟩⟩ := step_next h
  · exact fetchAndRun_keepsPast hfetch
  · exact converse_keepsPast _ _

/-! ### Inadmissible configurations -/

theorem step_of_not_admissible {s : State} (h : ¬ s.cfg.Admissible) : step s = .refused .inadmissibleConfig :=
  if_neg h

theorem mem_regionPriority (r : Region) : r ∈ regionPriority := by cases r <;> decide

theorem mem_documentedRegisters {a : Nat} : a ∈ documentedRegisters ↔
    a = 0x000000 ∨ a = 0x00106C ∨ a = 0x001070 ∨ a = 0x001084 ∨ a = 0x00108C ∨ a = 0x00E824 := by
  simp [documentedRegisters]

end Sys2Proof.Machine

namespace Sys2Proof

open Machine

/-- Settles O21: fetching a frame, the environment's steps, every Execute part and the run against the schedule
each keep the past, so a step does. -/
theorem configurationAndPastTraceAreKept : Obligations.ConfigurationAndPastTraceAreKept :=
  fun _ _ h => step_keepsPast h

/-- Settles O4: each of the six conditions contradicts one clause of admissibility, and `step` asks for that
first. -/
theorem inadmissibleConfigurationIsRefused : Obligations.InadmissibleConfigurationIsRefused := by
  intro s h
  refine step_of_not_admissible ?_
  rintro ⟨hstatus, hchunk, hlength, hregister, himage, hsubscribed, -, -⟩
  rcases h with h | h | ⟨r, h⟩ | ⟨a, ha, h⟩ | ⟨e, he, h⟩ | h
  · exact hstatus h
  · omega
  · have := hlength r (mem_regionPriority r)
    omega
  · exact hregister a (mem_documentedRegisters.mpr ha) h
  · exact himage e he h
  · omega

end Sys2Proof
end

section
/-! The invariant of every run (`10_state.md` R10, R11, R14, R21, R22; `20_memory.md` R31): one part of it speaks
of what the block reads and writes at its edge, the other of the working registers. Each operation keeps the first;
the second holds whenever the block waits for a byte time. -/

namespace Sys2Proof.Machine

variable {s t : State} {c : Command}

/-! ### Memory Map, queue and response line -/

/-- The part of the invariant that does not look at the working registers: the Memory Map in canonical form and
inside its regions, the notifier queue within its capacity (R21), the response line released (R22). -/
structure State.EdgeFits (s : State) : Prop where
  memWf : s.mem.wf
  memFits : s.mem.fits s.cfg
  queueFits : s.queue.length ≤ s.cfg.notifyCap
  lineReleased : s.respOe = false

theorem State.inv_iff : s.Inv ↔ s.EdgeFits ∧ s.cmdFits = true :=
  ⟨fun ⟨hwf, hfits, hqueue, hline, hcmd⟩ => ⟨⟨hwf, hfits, hqueue, hline⟩, hcmd⟩,
    fun ⟨⟨hwf, hfits, hqueue, hline⟩, hcmd⟩ => ⟨hwf, hfits, hqueue, hline, hcmd⟩⟩

/-- A state reached by at most one store, with the queue within its capacity and the line released, fits again. -/
theorem State.EdgeFits.of_store (h : s.EdgeFits) (hcfg : t.cfg = s.cfg)
    (hmem : t.mem = s.mem ∨ ∃ a d, s.mem.write s.cfg a d = some t.mem)
    (hqueue : t.queue.length ≤ s.cfg.notifyCap) (hline : t.respOe = false) : t.EdgeFits := by
  rcases hmem with hmem | ⟨a, d, hmem⟩
  · exact ⟨hmem ▸ h.memWf, by rw [hmem, hcfg]; exact h.memFits, hcfg ▸ hqueue, hline⟩
  · exact ⟨Memory.write_wf h.memWf hmem, hcfg ▸ Memory.write_fits h.memFits hmem, hcfg ▸ hqueue, hline⟩

/-- Memory and queue untouched: only the line is still to be released. -/
theorem State.EdgeFits.of_eq (h : s.EdgeFits) (hcfg : t.cfg = s.cfg) (hmem : t.mem = s.mem)
    (hqueue : t.queue = s.queue) (hline : t.respOe = false) : t.EdgeFits :=
  h.of_store hcfg (.inl hmem) (hqueue ▸ h.queueFits) hline

theorem State.EdgeFits.environment (h : s.EdgeFits) (e : EnvStep) : (s.environment e).EdgeFits := by
  refine h.of_store (by simp) ?_ ?_ (by simpa using h.lineReleased)
  · exact (s.environment_mem e).imp_right fun ⟨a, d, _, hw⟩ => ⟨a, d, hw⟩
  · have := h.queueFits
    rcases s.environment_queue e with hq | hq
    · rwa [hq]
    · rw [hq, List.length_tail]; omega

theorem State.EdgeFits.work (h : s.EdgeFits) : s.work.EdgeFits := by
  obtain ⟨p, k, m, evs, hw, -, -, -, hmem, -⟩ := s.work_frame
  rw [hw]
  exact h.of_store rfl (hmem.imp_right fun ⟨_, _, _, hm⟩ => ⟨_, _, hm⟩) h.queueFits h.lineReleased

theorem State.byteTime_respOe (b : Byte) (h : s.respOe = false) : (s.byteTime b).respOe = false := by
  rcases s.byteTime_cases b with e | ⟨c, -, -, e⟩ | ⟨c, r, q, -, -, -, ⟨-, -, e⟩ | ⟨-, e⟩⟩ <;> simp [e, h]

theorem State.EdgeFits.byteTime (h : s.EdgeFits) (b : Byte) : (s.byteTime b).EdgeFits :=
  h.of_eq (by simp) (by simp) (by simp) (State.byteTime_respOe b h.lineReleased)

theorem State.EdgeFits.receive (h : s.EdgeFits) (st : Stimulus) : (s.receive st).EdgeFits := by
  rcases s.receive_cases st with ⟨b, -, -, e⟩ | ⟨b, c, -, -, e⟩ | ⟨x, -, e⟩ | ⟨-, e⟩ <;> rw [e]
  · exact h.of_eq rfl rfl rfl rfl
  · exact h.of_eq rfl rfl rfl rfl
  · exact h.environment x
  · exact h

theorem State.EdgeFits.settleEnvironment (h : s.EdgeFits) (l : List Stimulus) :
    (settleEnvironment l s).EdgeFits := by
  induction l generalizing s with
  | nil => exact h.of_eq rfl rfl rfl h.lineReleased
  | cons st l ih =>
    cases st with
    | clock b => exact h.of_eq rfl rfl rfl h.lineReleased
    | env e => exact ih (h.environment e)
    | turn => exact h.of_eq rfl rfl rfl h.lineReleased

theorem ExecuteFrame.edgeFits (hf : ExecuteFrame c s t) (h : s.EdgeFits) : t.EdgeFits := by
  obtain ⟨p, crcEnabled, resetPending, k, m, q, evs, rfl, -, -, hmem, hqueue, -⟩ := hf
  refine h.of_store rfl (hmem.imp_right fun hw => ⟨_, _, hw⟩) ?_ h.lineReleased
  rcases hqueue with rfl | ⟨rfl, hroom⟩
  · exact h.queueFits
  · rw [List.length_append, List.length_singleton]; exact hroom

/-! ### The working registers after the Execute part -/

@[simp] theorem State.cmdFits_respond (s : State) (c : Command) (st : Byte) (d : List Byte) :
    (s.respond c st d).cmdFits = true := by simp [State.cmdFits]

theorem State.cmdFits_respondZero (s : State) (c : Command) {n : Nat} (hn : n ≠ 0) :
    (s.respondZero c n).cmdFits = true := by simp [State.cmdFits, hn]

theorem wordRead_cmdFits : (wordRead c s).cmdFits = true := by
  rcases wordRead_cases c s with ⟨-, h⟩ | ⟨-, -, -, h⟩ | ⟨-, -, d, -, h⟩ | ⟨-, -, -, h⟩ <;> rw [h]
  · exact State.cmdFits_respondZero _ _ (by omega)
  all_goals exact State.cmdFits_respond ..

theorem wordWrite_cmdFits : (wordWrite c s).cmdFits = true := by
  rcases wordWrite_cases c s with ⟨-, h⟩ | ⟨-, -, h⟩ | ⟨-, -, m, -, q, evs, h, -⟩ | ⟨-, -, -, h⟩ <;> rw [h] <;>
    exact State.cmdFits_respond ..

theorem streamRead_cmdFits : (streamRead c s).cmdFits = true := by
  rcases streamRead_cases c s with ⟨-, h⟩ | ⟨-, -, h⟩ | ⟨-, -, h⟩ <;> rw [h]
  · exact State.cmdFits_respondZero _ _ (by omega)
  all_goals exact State.cmdFits_respond ..

/-- The payload intake of a DMA write begins at offset 0 of a transfer that is not empty (R125, R126). -/
theorem streamWrite_cmdFits (hp : s.phase = .execute) (hop : (decodeOp c.op).isStreamWrite = true) :
    (streamWrite c s).cmdFits = true := by
  obtain ⟨evs, -, ⟨-, h⟩ | ⟨hsize, h⟩⟩ := streamWrite_cases c s <;> rw [h]
  · exact State.cmdFits_respond ..
  · simp [State.cmdFits, hp, hop]; omega

theorem executePart_cmdFits {i : Instr} {f : Command → State → State} (hf : executePart i = some f)
    (hp : s.phase = .execute) (hop : c.op = i.opcode) : (f c s).cmdFits = true := by
  cases i <;> cases hf
  case dmaWrite | dmaExtWrite => exact streamWrite_cmdFits hp (by rw [hop]; rfl)
  case dmaRead | dmaExtRead => exact streamRead_cmdFits
  case singleWrite | internalWrite => exact wordWrite_cmdFits
  case singleRead | internalRead => exact wordRead_cmdFits
  case reset | terminate | repeatCmd | unknown => exact State.cmdFits_respond ..

/-! ### A transaction -/

theorem State.Inv.work (h : s.Inv) : s.work.Inv :=
  State.inv_iff.mpr ⟨(State.inv_iff.mp h).1.work, (State.ready_work (State.inv_iff.mp h).2).1⟩

theorem State.Inv.work_byteTime (h : s.Inv) (b : Byte) : (s.work.byteTime b).Inv := by
  obtain ⟨hedge, hcmd⟩ := State.inv_iff.mp h
  exact State.inv_iff.mpr ⟨hedge.work.byteTime b, State.cmdFits_byteTime b (State.ready_work hcmd)⟩

theorem State.Inv.environment (h : s.Inv) (e : EnvStep) : (s.environment e).Inv := by
  obtain ⟨hedge, hcmd⟩ := State.inv_iff.mp h
  exact State.inv_iff.mpr ⟨hedge.environment e, by rw [State.cmdFits_environment, hcmd]⟩

/-- The run of a transaction keeps the invariant, to its end or as far as the schedule reaches. -/
theorem converse_inv (h : s.Inv) (l : List Stimulus) : (converse l s).Inv :=
  converse_induction (P := State.Inv) (fun _ _ h => h) (fun _ h => h.work) (fun _ b h => h.work_byteTime b)
    (fun _ e h => h.environment e) l h

/-- Every meaning ends in a coherent state, whatever phase and working registers it began with: it writes both
(R14). -/
theorem exec_inv {i : Instr} (h : s.EdgeFits) (he : exec i s = .next t) : t.Inv := by
  rw [exec_eq] at he
  cases hf : executePart i with
  | none =>
    rw [hf] at he
    cases he
    exact State.inv_iff.mpr ⟨h.of_eq rfl rfl rfl h.lineReleased, rfl⟩
  | some f =>
    rw [hf] at he
    cases he
    have begun : State.EdgeFits { s with phase := .execute, cmd := some (s.load i) } :=
      h.of_eq rfl rfl rfl h.lineReleased
    have executed := (executePart_frame (c := s.load i) hf rfl).edgeFits begun
    exact converse_inv (State.inv_iff.mpr ⟨executed, executePart_cmdFits hf rfl rfl⟩) _

/-! ### Receiving a frame -/

theorem frameLength_pos (ctx : FrameContext) (op : Byte) : 1 ≤ frameLength ctx op := by
  unfold frameLength
  split_ifs
  · exact le_rfl
  · cases (decodeOp op).format <;> simp only [FrameFormat.length] <;> omega

/-- What `cmdFits` asks of the registers in ReadParams, the length of the frame apart: dummy bytes are counted for
format U only, and nothing else is kept of that format but the opcode (R72). -/
structure Command.Receiving (ctx : FrameContext) (c : Command) : Prop where
  head : c.cmdBytes.head? = some c.op
  notIdle : isIdleFiller ctx c.op = false
  layout : if (decodeOp c.op).format = .U then c.cmdBytes.length = 1 else c.drained = 0

theorem State.cmdFits_readParams (hp : s.phase = .readParams) (hc : s.cmd = some c) :
    s.cmdFits = true ↔
      c.Receiving s.frameContext ∧ c.cmdBytes.length + c.drained < frameLength s.frameContext c.op := by
  have layout : (if (decodeOp c.op).format = .U then c.cmdBytes.length == 1 else c.drained == 0) = true ↔
      if (decodeOp c.op).format = .U then c.cmdBytes.length = 1 else c.drained = 0 := by split_ifs <;> simp
  simp only [State.cmdFits, hp, hc, Bool.and_eq_true, layout, beq_iff_eq, Bool.not_eq_true', decide_eq_true_eq]
  exact ⟨fun ⟨⟨⟨hhead, hidle⟩, hlen⟩, hlay⟩ => ⟨⟨hhead, hidle, hlay⟩, hlen⟩,
    fun ⟨⟨hhead, hidle, hlay⟩, hlen⟩ => ⟨⟨⟨hhead, hidle⟩, hlen⟩, hlay⟩⟩

theorem State.frameComplete_eq_false (hc : s.cmd = some c) :
    s.frameComplete = false ↔ c.cmdBytes.length + c.drained ≠ frameLength s.frameContext c.op := by
  simp [State.frameComplete, hc]

theorem Command.receiving_start {ctx : FrameContext} {b : Byte} (h : isIdleFiller ctx b = false) :
    (Command.start b).Receiving ctx := ⟨rfl, h, by split_ifs <;> rfl⟩

/-- The registers after a further byte of the frame. -/
def Command.param (c : Command) (b : Byte) : Command :=
  if (decodeOp c.op).format = .U then { c with drained := c.drained + 1 }
  else { c with cmdBytes := c.cmdBytes ++ [b] }

@[simp] theorem State.receiveParam_cmd (s : State) (c : Command) (b : Byte) :
    (s.receiveParam c b).cmd = some (c.param b) := rfl

@[simp] theorem Command.param_op (c : Command) (b : Byte) : (c.param b).op = c.op := by
  unfold Command.param; split_ifs <;> rfl

theorem Command.param_length (c : Command) (b : Byte) :
    (c.param b).cmdBytes.length + (c.param b).drained = c.cmdBytes.length + c.drained + 1 := by
  unfold Command.param
  split_ifs
  · rfl
  · simp only [List.length_append, List.length_singleton]; omega

theorem Command.Receiving.param {ctx : FrameContext} (h : c.Receiving ctx) (b : Byte) :
    (c.param b).Receiving ctx := by
  obtain ⟨hhead, hidle, hlay⟩ := h
  unfold Command.param
  split_ifs at hlay ⊢ with hu
  · exact ⟨hhead, hidle, by simpa [hu] using hlay⟩
  · exact ⟨by simp [List.head?_append, hhead], hidle, by simpa [hu] using hlay⟩

/-- What holds while a frame is received. A complete frame fits no phase (the next thing is its Execute part), so
the registers are asked to fit only until then. -/
structure State.Fetching (s : State) : Prop where
  edge : s.EdgeFits
  phase : s.phase = .awaitOpcode ∨ s.phase = .readParams
  fits : s.frameComplete = false → s.cmdFits = true

/-- The opcode byte: idle filler is a complete frame, any other byte begins one (R61, R70, R71). -/
theorem State.Fetching.receiveOpcode (h : s.Fetching) (b : Byte) : (s.receiveOpcode b).Fetching := by
  refine ⟨h.edge.of_eq rfl rfl rfl rfl, ?_, fun hn => ?_⟩
  · cases hi : isIdleFiller s.frameContext b <;> simp [State.receiveOpcode, hi]
  · rw [State.frameComplete_eq_false (State.receiveOpcode_cmd b s), State.receiveOpcode_frameContext] at hn
    change 1 ≠ frameLength s.frameContext b at hn
    cases hi : isIdleFiller s.frameContext b with
    | true => simp [frameLength, hi] at hn
    | false =>
      have hp : (s.receiveOpcode b).phase = .readParams := by simp [State.receiveOpcode, hi]
      have := frameLength_pos s.frameContext b
      exact (State.cmdFits_readParams hp rfl).mpr
        ⟨Command.receiving_start hi, show 1 < frameLength s.frameContext b by omega⟩

/-- A further byte of a frame that is not complete (R72). -/
theorem State.Fetching.receiveParam (h : s.Fetching) (hn : s.frameComplete = false) (hc : s.cmd = some c)
    (b : Byte) : (s.receiveParam c b).Fetching := by
  have hfits := h.fits hn
  have hp : s.phase = .readParams := by
    refine h.phase.resolve_left fun hp => ?_
    simp [State.cmdFits, hp, hc] at hfits
  refine ⟨h.edge.of_eq rfl rfl rfl rfl, .inr hp, fun hn' => ?_⟩
  obtain ⟨hrec, hlen⟩ := (State.cmdFits_readParams hp hc).mp hfits
  rw [State.frameComplete_eq_false (State.receiveParam_cmd s c b), State.receiveParam_frameContext, c.param_op,
    c.param_length] at hn'
  refine (State.cmdFits_readParams (s := s.receiveParam c b) hp (State.receiveParam_cmd s c b)).mpr
    ⟨hrec.param b, ?_⟩
  rw [State.receiveParam_frameContext, c.param_op, c.param_length]
  omega

theorem State.frameComplete_environment (s : State) (e : EnvStep) :
    (s.environment e).frameComplete = s.frameComplete := by cases e <;> rfl

theorem State.Fetching.receive (h : s.Fetching) (hn : s.frameComplete = false) (st : Stimulus) :
    (s.receive st).Fetching := by
  rcases s.receive_cases st with ⟨b, -, -, e⟩ | ⟨b, c, -, hc, e⟩ | ⟨x, -, e⟩ | ⟨-, e⟩ <;> rw [e]
  · exact h.receiveOpcode b
  · exact h.receiveParam hn hc b
  · refine ⟨h.edge.environment x, by simpa using h.phase, fun hn' => ?_⟩
    rw [State.cmdFits_environment, h.fits hn]
  · exact h

theorem State.Fetching.with_inbox (h : s.Fetching) (l : List Stimulus) :
    State.Fetching { s with inbox := l } :=
  ⟨h.edge.of_eq rfl rfl rfl h.edge.lineReleased, h.phase, h.fits⟩

theorem fetch_fetching (h : s.Fetching) (l : List Stimulus) : (fetch l s).Fetching :=
  fetch_induction (P := State.Fetching) (fun _ l h => h.with_inbox l)
    (fun _ st hn h => h.receive hn st) l h

theorem fetchAndRun_inv (h : s.Fetching) (hr : fetchAndRun s = .next t) : t.Inv := by
  have fetched := fetch_fetching h s.inbox
  rcases fetchAndRun_next hr with ⟨hn, rfl⟩ | ⟨c, i, r, -, -, -, he⟩
  · exact State.inv_iff.mpr ⟨fetched.edge, fetched.fits hn⟩
  · exact exec_inv (fetched.edge.settleEnvironment _) he

theorem step_inv (h : s.Inv) (hs : step s = .next t) : t.Inv := by
  obtain ⟨-, ⟨hp, hr⟩ | ⟨-, -, rfl⟩⟩ := step_next hs
  · obtain ⟨hedge, hfits⟩ := State.inv_iff.mp h
    exact fetchAndRun_inv ⟨hedge, hp.imp And.left And.left, fun _ => hfits⟩ hr
  · exact converse_inv h _

end Sys2Proof.Machine

namespace Sys2Proof

open Machine

/-- Settles O18: a fetch keeps the invariant until the frame is complete, the command then writes phase and working
registers anew, and the run of a transaction keeps it at every byte time. -/
theorem stepKeepsInvariant : Obligations.StepKeepsInvariant :=
  fun _ _ h hs => step_inv h hs

end Sys2Proof
end

section
/-! The state at startup (`10_state.md` R24), and that a command sees neither phase nor working registers of an
earlier one (R14). -/

namespace Sys2Proof.Machine

theorem Memory.applyImage_cons {cfg : Config} {a : Nat} {bytes : List Byte} {m m' : Memory}
    (entries : List (Nat × List Byte)) (h : m.write cfg a bytes = some m') :
    Memory.applyImage cfg ((a, bytes) :: entries) m = Memory.applyImage cfg entries m' := by
  rw [Memory.applyImage, h, Option.getD_some]

theorem startup_inv (cfg : Config) : (State.startup cfg).Inv :=
  ⟨Memory.applyImage_wf _ Memory.zeroed_wf, Memory.applyImage_fits _ (Memory.zeroed_fits cfg), Nat.zero_le _, rfl,
    rfl⟩

theorem exec_with_phase_cmd (i : Instr) (s : State) (p : Phase) (k : Option Command) :
    exec i { s with phase := p, cmd := k } = exec i s := by
  rw [exec_eq, exec_eq]
  cases executePart i with
  | none => rfl
  | some f => rfl

end Sys2Proof.Machine

namespace Sys2Proof

open Machine

/-- Settles O1: `startup` writes every field, and the image is applied entry by entry over zeroed buffers. -/
theorem startupState : Obligations.StartupState :=
  fun cfg => ⟨rfl, rfl, fun _ => rfl, fun _ _ entries _ _ h => Memory.applyImage_cons entries h,
    Memory.zeroed_get, rfl, rfl, rfl, rfl, rfl, rfl⟩

/-- Settles O3: the image is stored over zeroed buffers, and every store keeps memory canonical and inside its
regions. -/
theorem startupStateIsCoherent : Obligations.StartupStateIsCoherent := startup_inv

/-- Settles O2: reset is startup under the reference configuration, whose admissibility is decided. -/
theorem resetStateIsCoherent : Obligations.ResetStateIsCoherent :=
  ⟨startup_inv referenceConfig, show referenceConfig.Admissible by decide⟩

/-- Settles O24: every meaning writes phase and working registers before it reads them. -/
theorem nothingLeaksFromAnEarlierCommand : Obligations.NothingLeaksFromAnEarlierCommand :=
  exec_with_phase_cmd

end Sys2Proof
end

section
/-! How a command moves the phase along its cycle (`10_state.md` R11, `40_protocol_fsm.md` R70 to R74), and which
commands change `reset_pending` (`10_state.md` R13). -/

namespace Sys2Proof.Machine

open Claims

variable {s t : State} {c : Command} {i : Instr}

/-! ### The meaning of a command is its Execute part and the rest of the transaction -/

theorem executePart_eq_executionOf (h : i ≠ .idleSkip) : executePart i = some (executionOf i) := by
  cases i
  case idleSkip => exact absurd rfl h
  all_goals rfl

theorem exec_eq_converse (s : State) (h : i ≠ .idleSkip) :
    exec i s = .next (converse s.inbox
      (executionOf i (s.load i) { s with phase := .execute, cmd := some (s.load i) })) := by
  rw [exec_eq, executePart_eq_executionOf h]
  rfl

/-! ### The phase -/

theorem State.receive_clock_phase (b : Byte) (hc : s.cmd = none) :
    (s.receive (.clock b)).phase = if isIdleFiller s.frameContext b then .awaitOpcode else .readParams := by
  simp only [State.receive, hc, State.receiveOpcode]

theorem fetch_readParams (hp : s.phase = .readParams) (hc : s.cmd ≠ none) (l : List Stimulus) :
    (fetch l s).phase = .readParams := by
  have kept : (fetch l s).phase = .readParams ∧ (fetch l s).cmd ≠ none :=
    fetch_induction (P := fun t => t.phase = .readParams ∧ t.cmd ≠ none) (fun _ _ h => h)
      (fun _ st _ h => State.receive_readParams st h.1 h.2) l ⟨hp, hc⟩
  exact kept.1

theorem wordRead_phase : (wordRead c s).phase = .writeResponse := by
  rcases wordRead_cases c s with ⟨-, h⟩ | ⟨-, -, -, h⟩ | ⟨-, -, d, -, h⟩ | ⟨-, -, -, h⟩ <;> rw [h] <;> rfl

theorem wordWrite_phase : (wordWrite c s).phase = .writeResponse := by
  rcases wordWrite_cases c s with ⟨-, h⟩ | ⟨-, -, h⟩ | ⟨-, -, m, -, q, evs, h, -⟩ | ⟨-, -, -, h⟩ <;> rw [h] <;> rfl

theorem streamRead_phase : (streamRead c s).phase = .writeResponse := by
  rcases streamRead_cases c s with ⟨-, h⟩ | ⟨-, -, h⟩ | ⟨-, -, h⟩ <;> rw [h] <;> rfl

/-- The payload intake of a DMA write is part of Execute; with no payload the ACK is composed at once (R125,
R126). -/
theorem streamWrite_phase : (streamWrite c s).phase = .writeResponse ∨ (streamWrite c s).phase = s.phase := by
  obtain ⟨evs, -, ⟨-, h⟩ | ⟨-, h⟩⟩ := streamWrite_cases c s <;> rw [h]
  · exact .inl rfl
  · exact .inr rfl

theorem executionOf_phase (c : Command) (hi : i ≠ .idleSkip) (hp : s.phase = .execute) :
    (executionOf i c s).phase = .writeResponse ∨
      ((∃ a n, DmaWriteOf a n i) ∧ (executionOf i c s).phase = .execute) := by
  cases i
  case idleSkip => exact absurd rfl hi
  case dmaWrite a n crc =>
    exact streamWrite_phase.imp_right fun h => ⟨⟨a, _, .inl ⟨n, crc, rfl, rfl⟩⟩, h.trans hp⟩
  case dmaExtWrite a n crc =>
    exact streamWrite_phase.imp_right fun h => ⟨⟨a, _, .inr ⟨n, crc, rfl, rfl⟩⟩, h.trans hp⟩
  case dmaRead | dmaExtRead => exact .inl streamRead_phase
  case singleWrite | internalWrite => exact .inl wordWrite_phase
  case singleRead | internalRead => exact .inl wordRead_phase
  case reset | terminate | repeatCmd | unknown => exact .inl rfl

theorem State.work_phase (s : State) :
    s.work.phase = s.phase ∨ (s.phase = .execute ∧ s.work.phase = .writeResponse) := by
  obtain ⟨p, k, m, evs, hw, hp, -⟩ := s.work_frame
  rw [hw]
  exact hp

theorem State.byteTime_phase (s : State) (b : Byte) :
    (s.byteTime b).phase = s.phase ∨ (s.phase = .writeResponse ∧ (s.byteTime b).phase = .awaitOpcode) := by
  rcases s.byteTime_cases b with h | ⟨c, -, -, h⟩ | ⟨c, r, q, -, hp, -, ⟨-, -, h⟩ | ⟨-, h⟩⟩ <;> rw [h]
  · exact .inl rfl
  · exact .inl rfl
  · exact .inr ⟨hp, rfl⟩
  · exact .inl rfl

/-! ### `reset_pending` -/

/-- The intercept of the identity register is what sets the flag (R106). -/
theorem wordWrite_resetPending :
    (wordWrite c s).resetPending =
      if c.cmdCrcOk = true ∧ c.addr = identityAddr then true else s.resetPending := by
  rcases wordWrite_cases c s with ⟨hc, h⟩ | ⟨hc, ha, h⟩ | ⟨hc, ha, m, -, q, evs, h, -⟩ | ⟨hc, ha, -, h⟩
  · simp [h, hc]
  · simp [h, hc, ha]
  · simp [h, hc, ha]
  · simp [h, hc, ha]

/-- The override of the state register is what clears the flag (R107). -/
theorem wordRead_resetPending :
    (wordRead c s).resetPending =
      if c.cmdCrcOk = true ∧ c.addr = stateAddr then false else s.resetPending := by
  have untouched (hno : ¬ (s.resetPending = true ∧ c.addr = stateAddr)) :
      s.resetPending = if c.addr = stateAddr then false else s.resetPending := by
    split_ifs with ha
    · simpa [ha] using hno
    · rfl
  rcases wordRead_cases c s with ⟨hc, h⟩ | ⟨hc, -, ha, h⟩ | ⟨hc, hno, d, -, h⟩ | ⟨hc, hno, -, h⟩
  · simp [h, hc]
  · simp [h, hc, ha]
  · simpa [h, hc] using untouched hno
  · simpa [h, hc] using untouched hno

theorem streamRead_resetPending : (streamRead c s).resetPending = s.resetPending := by
  rcases streamRead_cases c s with ⟨-, h⟩ | ⟨-, -, h⟩ | ⟨-, -, h⟩ <;> rw [h] <;> rfl

theorem streamWrite_resetPending : (streamWrite c s).resetPending = s.resetPending := by
  obtain ⟨evs, -, ⟨-, h⟩ | ⟨-, h⟩⟩ := streamWrite_cases c s <;> simp [h]

theorem exec_resetPending (h : exec i s = .next t) :
    t.resetPending =
      (executionOf i (s.load i) { s with phase := .execute, cmd := some (s.load i) }).resetPending := by
  by_cases hi : i = .idleSkip
  · subst hi
    cases h
    rfl
  · rw [exec_eq_converse s hi] at h
    cases h
    exact converse_resetPending _ _

variable {a : Addr} {v : Word}

theorem exec_resetPending_of_wordWrite (hw : WordWriteOf a v i) (h : exec i s = .next t) :
    t.resetPending =
      if commandCrcOk s.cfg s.crcEnabled i = true ∧ a = identityAddr then true else s.resetPending := by
  rw [exec_resetPending h]
  rcases hw with ⟨crc, rfl⟩ | ⟨b, crc, rfl, rfl⟩ <;> exact wordWrite_resetPending

theorem exec_resetPending_of_wordRead (hr : WordReadOf a i) (h : exec i s = .next t) :
    t.resetPending =
      if commandCrcOk s.cfg s.crcEnabled i = true ∧ a = stateAddr then false else s.resetPending := by
  rw [exec_resetPending h]
  rcases hr with ⟨crc, rfl⟩ | ⟨b, crc, rfl, rfl⟩ <;> exact wordRead_resetPending

/-- No other command touches the flag. -/
theorem exec_resetPending_of_not_word (hw : ∀ a v, ¬ WordWriteOf a v i) (hr : ∀ a, ¬ WordReadOf a i)
    (h : exec i s = .next t) : t.resetPending = s.resetPending := by
  rw [exec_resetPending h]
  cases i
  case singleWrite a v crc => exact absurd (.inl ⟨crc, rfl⟩) (hw a v)
  case internalWrite b v crc => exact absurd (.inr ⟨b, crc, rfl, rfl⟩) (hw (zext24 b) v)
  case singleRead a crc => exact absurd (.inl ⟨crc, rfl⟩) (hr a)
  case internalRead b crc => exact absurd (.inr ⟨b, crc, rfl, rfl⟩) (hr (zext24 b))
  case dmaWrite | dmaExtWrite => exact streamWrite_resetPending
  case dmaRead | dmaExtRead => exact streamRead_resetPending
  case reset | terminate | repeatCmd | unknown | idleSkip => rfl

end Sys2Proof.Machine

namespace Sys2Proof

open Machine Claims

/-- Settles O25: each clause is what one operation of the block does to the phase. -/
theorem phaseFollowsTheCycle : Obligations.PhaseFollowsTheCycle :=
  ⟨fun s b _ hc => State.receive_clock_phase b hc, fun s st hp hc => (State.receive_readParams st hp hc).1,
    fun s l hp hc => ⟨fetch_readParams hp hc l, (settleEnvironment_phase l s).trans hp⟩,
    fun i s hi => exec_eq_converse s hi, fun i c s hi hp => executionOf_phase c hi hp, State.work_phase,
    State.byteTime_phase, State.environment_phase⟩

/-- Settles O46: word writes by the intercept of R106, word reads by the override of R107, and every other command
not at all. -/
theorem resetPendingHasOneSetterAndOneClearer : Obligations.ResetPendingHasOneSetterAndOneClearer := by
  intro i s t h
  refine ⟨fun hgood ⟨v, hw⟩ => ?_, fun hgood hr => ?_, fun hneither => ?_⟩
  · rw [exec_resetPending_of_wordWrite hw h, if_pos ⟨hgood, rfl⟩]
  · rw [exec_resetPending_of_wordRead hr h, if_pos ⟨hgood, rfl⟩]
  · by_cases hw : ∃ a v, WordWriteOf a v i
    · obtain ⟨a, v, hw⟩ := hw
      rw [exec_resetPending_of_wordWrite hw h, if_neg]
      rintro ⟨hgood, rfl⟩
      exact hneither ⟨hgood, .inl ⟨v, hw⟩⟩
    · by_cases hr : ∃ a, WordReadOf a i
      · obtain ⟨a, hr⟩ := hr
        rw [exec_resetPending_of_wordRead hr h, if_neg]
        rintro ⟨hgood, rfl⟩
        exact hneither ⟨hgood, .inr hr⟩
      · exact exec_resetPending_of_not_word (fun a v hv => hw ⟨a, v, hv⟩) (fun a ha => hr ⟨a, ha⟩) h

end Sys2Proof
end

section
/-! The Memory Map and its bytes (`20_memory.md` R31 to R34), and what the environment agent does to it (R42). -/

namespace Sys2Proof.Machine

open Claims

/-! ### Resolution -/

theorem resolveAmong_cons_of_contains {cfg : Config} {a n : Nat} {r : Region} (rs : List Region)
    (h : Contains cfg r a) : resolveAmong cfg a n (r :: rs) =
      if a + n ≤ (cfg.span r).base + (cfg.span r).length then .range r (a - (cfg.span r).base) n else .outOfRange :=
  if_pos h

theorem resolveAmong_cons_of_not_contains {cfg : Config} {a n : Nat} {r : Region} (rs : List Region)
    (h : ¬ Contains cfg r a) : resolveAmong cfg a n (r :: rs) = resolveAmong cfg a n rs :=
  if_neg h

/-- The search of R32 finds the first listed region that contains the start address, if the range ends inside it. -/
theorem resolveAmong_eq_range {cfg : Config} {a n o k : Nat} {r : Region} {rs : List Region} :
    resolveAmong cfg a n rs = .range r o k ↔
      r ∈ rs ∧ k = n ∧ o = a - (cfg.span r).base ∧ Contains cfg r a ∧
        a + n ≤ (cfg.span r).base + (cfg.span r).length ∧
        ∀ r', rs.idxOf r' < rs.idxOf r → ¬ Contains cfg r' a := by
  induction rs with
  | nil => simp [resolveAmong]
  | cons r₀ rs ih =>
    by_cases h₀ : Contains cfg r₀ a
    · rw [resolveAmong_cons_of_contains rs h₀]
      constructor
      · intro h
        split_ifs at h with hfits
        cases h
        exact ⟨List.mem_cons_self, rfl, rfl, h₀, hfits, fun r' hr' => by simp at hr'⟩
      · rintro ⟨-, rfl, rfl, -, hfits, hfirst⟩
        have head_found : r₀ = r := by
          by_contra hne
          exact hfirst r₀ (by rw [List.idxOf_cons_self, List.idxOf_cons_ne _ hne]; omega) h₀
        subst head_found
        rw [if_pos hfits]
    · rw [resolveAmong_cons_of_not_contains rs h₀, ih]
      have not_head {r' : Region} (hr' : Contains cfg r' a) : r₀ ≠ r' := fun h => h₀ (h ▸ hr')
      have index {r' : Region} (hr' : Contains cfg r' a) : (r₀ :: rs).idxOf r' = rs.idxOf r' + 1 :=
        List.idxOf_cons_ne _ (not_head hr')
      constructor
      · rintro ⟨hmem, hk, ho, hr, hfits, hfirst⟩
        refine ⟨List.mem_cons_of_mem _ hmem, hk, ho, hr, hfits, fun r' hlt hr' => hfirst r' ?_ hr'⟩
        rwa [index hr, index hr', Nat.add_lt_add_iff_right] at hlt
      · rintro ⟨hmem, hk, ho, hr, hfits, hfirst⟩
        refine ⟨List.mem_of_ne_of_mem (not_head hr).symm hmem, hk, ho, hr, hfits,
          fun r' hlt hr' => hfirst r' ?_ hr'⟩
        rwa [index hr, index hr', Nat.add_lt_add_iff_right]

/-! ### Reads and stores that resolve -/

theorem Memory.read_of_resolve {cfg : Config} {m : Memory} {a n : Nat} {r : Region} {o : Nat}
    (h : resolve cfg a n = .range r o n) : m.read cfg a n = some ((m.buffer r).slice o n) := by
  rw [Memory.read, h]

theorem Memory.write_of_resolve {cfg : Config} {m : Memory} {a : Nat} {d : List Byte} {r : Region} {o : Nat}
    (h : resolve cfg a d.length = .range r o d.length) :
    m.write cfg a d = some (m.setBuffer ((m.buffer r).store o d) r) := by
  rw [Memory.write, h]

/-! ### Words -/

theorem bytesLe32_eq (w : Word) : ∃ b0 b1 b2 b3, bytesLe32 w = [b0, b1, b2, b3] ∧ le32 b0 b1 b2 b3 = w ∧
    b0.toNat = w.toNat % 256 ∧ b3.toNat = w.toNat / 16777216 := by
  refine ⟨_, _, _, _, rfl, le32_bytes w, BitVec.toNat_ofNat .., ?_⟩
  rw [BitVec.toNat_ofNat]
  exact Nat.mod_eq_of_lt (by omega)

/-! ### The environment agent -/

theorem State.environment_write_some {s : State} {a : Nat} {d : List Byte} {m : Memory}
    (h : s.mem.write s.cfg a d = some m) : s.environment (.write a d) = { s with mem := m } := by
  rw [State.environment, h, Option.getD_some]

theorem State.environment_write_none {s : State} {a : Nat} {d : List Byte}
    (h : s.mem.write s.cfg a d = none) : s.environment (.write a d) = s := by
  rw [State.environment, h, Option.getD_none]

/-- Memory is changed by a store only, the queue by a pop only, and nothing else is changed. -/
theorem State.environment_frame (s : State) (e : EnvStep) :
    ∃ m q, s.environment e = { s with mem := m, queue := q } ∧
      (q = s.queue ∨ (e = .popQueue ∧ q = s.queue.tail)) ∧
      (m = s.mem ∨ ∃ a d, e = .write a d ∧ s.mem.write s.cfg a d = some m) := by
  cases e with
  | read a n => exact ⟨s.mem, s.queue, rfl, .inl rfl, .inl rfl⟩
  | write a d =>
    cases h : s.mem.write s.cfg a d with
    | none => exact ⟨s.mem, s.queue, State.environment_write_none h, .inl rfl, .inl rfl⟩
    | some m => exact ⟨m, s.queue, State.environment_write_some h, .inl rfl, .inr ⟨a, d, rfl, h⟩⟩
  | popQueue => exact ⟨s.mem, s.queue.tail, rfl, .inr ⟨rfl, rfl⟩, .inl rfl⟩

theorem fetch_env {s : State} (h : s.frameComplete = false) (e : EnvStep) (l : List Stimulus) :
    fetch (.env e :: l) s = fetch l (s.environment e) := by
  simp only [fetch, h, Bool.false_eq_true, if_false, State.receive]

end Sys2Proof.Machine

namespace Sys2Proof

open Machine

/-- Settles O11: the search of R32, over a list in which every region stands. -/
theorem resolveTakesFirstContainingRegion : Obligations.ResolveTakesFirstContainingRegion :=
  fun _ _ _ r _ _ => resolveAmong_eq_range.trans (and_iff_right (mem_regionPriority r))

/-- Settles O12: a read is a run of one buffer, and a store replaces such a run. -/
theorem memWriteThenMemRead : Obligations.MemWriteThenMemRead := by
  intro cfg m a
  refine ⟨fun n h => Memory.read_eq_none.mpr h, fun d h => Memory.write_eq_none.mpr h, fun n r o h => ?_,
    fun hm d r o h => ?_⟩
  · exact ⟨_, Memory.read_of_resolve h, Buffer.slice_length .., fun i hi => Buffer.slice_getElem? hi⟩
  · have stored := Memory.write_of_resolve (m := m) h
    exact ⟨_, stored, Memory.write_wf hm stored, Memory.read_write hm stored,
      fun r' o' ho => Memory.write_get_other stored h ho⟩

/-- Settles O13: the bytes of a word are its digits to the base 256, lowest first, and a store keeps their order. -/
theorem wordsAreLittleEndian : Obligations.WordsAreLittleEndian := by
  refine ⟨bytesLe32_eq, rfl, fun cfg m m' a w hm hw => ?_⟩
  obtain ⟨b0, b1, b2, b3, hbytes, hle, -⟩ := bytesLe32_eq w
  exact ⟨b0, b1, b2, b3, hbytes ▸ Memory.read_write hm hw, hle.symm⟩

/-- Settles O22: what each environment step does, and that each of the three runs over the schedule takes it at once
where it stands. -/
theorem environmentReachesMemoryAndQueueOnly : Obligations.EnvironmentReachesMemoryAndQueueOnly :=
  ⟨State.environment_frame, State.environment_read, fun _ _ _ _ h => State.environment_write_some h,
    fun _ _ _ h => State.environment_write_none h, fun _ => rfl, fun _ e l h => fetch_env h e l, fun _ _ _ => rfl,
    fun _ e _ h => converse_env h e⟩

end Sys2Proof
end

section
/-! What a command leaves unchanged in a schedule without environment steps (`20_memory.md` R37): its Execute part
first, then the rest of the transaction, in which only the payload intake of a DMA write still stores. -/

namespace Sys2Proof.Machine

open Claims

variable {s t : State} {c : Command} {i : Instr} {a : Addr} {v : Word} {l : List Stimulus}

/-! ### The state after the Execute part -/

/-- The state in which the Execute part of `i` begins. -/
abbrev State.begun (s : State) (i : Instr) : State := { s with phase := .execute, cmd := some (s.load i) }

/-- The state in which the transaction of `i` goes on after its Execute part. -/
def State.executed (s : State) (i : Instr) : State := executionOf i (s.load i) (s.begun i)

theorem exec_next_eq (hi : i ≠ .idleSkip) (h : exec i s = .next t) : t = converse s.inbox (s.executed i) := by
  rw [exec_eq_converse s hi] at h
  exact (Host.Outcome.next.inj h).symm

theorem exec_cfg (h : exec i s = .next t) : t.cfg = s.cfg := (exec_keepsPast h).1

/-! ### The rest of the transaction -/

theorem converse_queue (hl : undisturbed l) (s : State) : (converse l s).queue = s.queue :=
  converse_induction_undisturbed (P := fun t => t.queue = s.queue) (fun _ _ h => h) (by simp) (by simp) hl rfl

theorem State.work_mem (hp : s.phase ≠ .execute) : s.work.mem = s.mem := by
  obtain ⟨p, k, m, evs, hw, -, -, -, hm | ⟨c, -, hp', -⟩, -⟩ := s.work_frame
  · rw [hw, ← hm]
  · exact absurd hp' hp

theorem State.work_phase_ne_execute (hp : s.phase ≠ .execute) : s.work.phase ≠ .execute := by
  rcases s.work_phase with h | ⟨hp', -⟩
  · rwa [h]
  · exact absurd hp' hp

theorem State.byteTime_phase_ne_execute (hp : s.phase ≠ .execute) (b : Byte) :
    (s.byteTime b).phase ≠ .execute := by
  rcases s.byteTime_phase b with h | ⟨-, h⟩
  · rwa [h]
  · simp [h]

/-- Sending a response stores nothing. -/
theorem converse_mem (hl : undisturbed l) (hp : s.phase ≠ .execute) : (converse l s).mem = s.mem := by
  have kept : (converse l s).phase ≠ .execute ∧ (converse l s).mem = s.mem := by
    refine converse_induction_undisturbed (P := fun t => t.phase ≠ .execute ∧ t.mem = s.mem) (fun _ _ h => h)
      (fun t h => ?_) (fun t b h => ?_) hl ⟨hp, rfl⟩
    · exact ⟨State.work_phase_ne_execute h.1, (State.work_mem h.1).trans h.2⟩
    · exact ⟨State.byteTime_phase_ne_execute (State.work_phase_ne_execute h.1) b,
        (State.byteTime_mem b t.work).trans ((State.work_mem h.1).trans h.2)⟩
  exact kept.2

/-- A command whose Execute part composes the response changes nothing more after it. -/
theorem exec_edge_eq_executed (hi : i ≠ .idleSkip) (hl : undisturbed s.inbox)
    (hp : (s.executed i).phase = .writeResponse) (h : exec i s = .next t) :
    t.mem = (s.executed i).mem ∧ t.queue = (s.executed i).queue ∧ t.crcEnabled = (s.executed i).crcEnabled := by
  obtain rfl := exec_next_eq hi h
  exact ⟨converse_mem hl (by simp [hp]), converse_queue hl _, converse_crcEnabled _ _⟩

/-! ### Reads and control commands -/

/-- `s'` differs from `s` in nothing but a response composed, its events and perhaps `reset_pending`. -/
structure State.OnlyResponds (s s' : State) : Prop where
  phase : s'.phase = .writeResponse
  mem : s'.mem = s.mem
  queue : s'.queue = s.queue
  crcEnabled : s'.crcEnabled = s.crcEnabled

theorem wordRead_onlyResponds : s.OnlyResponds (wordRead c s) := by
  rcases wordRead_cases c s with ⟨-, h⟩ | ⟨-, -, -, h⟩ | ⟨-, -, d, -, h⟩ | ⟨-, -, -, h⟩ <;> rw [h] <;>
    exact ⟨rfl, rfl, rfl, rfl⟩

theorem streamRead_onlyResponds : s.OnlyResponds (streamRead c s) := by
  rcases streamRead_cases c s with ⟨-, h⟩ | ⟨-, -, h⟩ | ⟨-, -, h⟩ <;> rw [h] <;> exact ⟨rfl, rfl, rfl, rfl⟩

theorem executed_onlyResponds (hk : MemoryRead i ∨ Control i) (hi : i ≠ .idleSkip) :
    s.OnlyResponds (s.executed i) := by
  have of_begun {s' : State} (h : (s.begun i).OnlyResponds s') :
      s.OnlyResponds s' := ⟨h.phase, h.mem, h.queue, h.crcEnabled⟩
  rcases hk with (⟨a, ⟨crc, rfl⟩ | ⟨b, crc, rfl, -⟩⟩ | ⟨a, n, ⟨size, crc, rfl, -⟩ | ⟨size, crc, rfl, -⟩⟩) |
    rfl | rfl | rfl | rfl | ⟨op, rfl⟩
  · exact of_begun wordRead_onlyResponds
  · exact of_begun wordRead_onlyResponds
  · exact of_begun streamRead_onlyResponds
  · exact of_begun streamRead_onlyResponds
  · exact ⟨rfl, rfl, rfl, rfl⟩
  · exact ⟨rfl, rfl, rfl, rfl⟩
  · exact ⟨rfl, rfl, rfl, rfl⟩
  · exact absurd rfl hi
  · exact ⟨rfl, rfl, rfl, rfl⟩

theorem exec_edge_of_read_or_control (hk : MemoryRead i ∨ Control i) (hl : undisturbed s.inbox)
    (h : exec i s = .next t) : t.mem = s.mem ∧ t.queue = s.queue ∧ t.crcEnabled = s.crcEnabled := by
  by_cases hi : i = .idleSkip
  · subst hi
    cases h
    exact ⟨rfl, rfl, rfl⟩
  · have only := executed_onlyResponds (s := s) hk hi
    obtain ⟨hm, hq, hc⟩ := exec_edge_eq_executed hi hl only.phase h
    exact ⟨hm.trans only.mem, hq.trans only.queue, hc.trans only.crcEnabled⟩

theorem exec_resetPending_of_read_or_control (hk : MemoryRead i ∨ Control i) (h : exec i s = .next t) :
    t.resetPending = s.resetPending ∨ WordReadOf stateAddr i := by
  rcases hk with (⟨a, hr⟩ | ⟨a, n, hd⟩) | hc
  · rw [exec_resetPending_of_wordRead hr h]
    by_cases ha : a = stateAddr
    · exact .inr (ha ▸ hr)
    · exact .inl (if_neg fun hg => ha hg.2)
  · rw [exec_resetPending h]
    rcases hd with ⟨size, crc, rfl, -⟩ | ⟨size, crc, rfl, -⟩ <;> exact .inl streamRead_resetPending
  · rw [exec_resetPending h]
    rcases hc with rfl | rfl | rfl | rfl | ⟨op, rfl⟩ <;> exact .inl rfl

/-! ### Word writes -/

theorem operandAddr_of_wordWrite (hw : WordWriteOf a v i) : operandAddr i = a := by
  rcases hw with ⟨crc, rfl⟩ | ⟨b, crc, rfl, rfl⟩ <;> rfl

theorem executed_of_wordWrite (hw : WordWriteOf a v i) :
    s.executed i = wordWrite (s.load i) (s.begun i) := by
  rcases hw with ⟨crc, rfl⟩ | ⟨b, crc, rfl, rfl⟩ <;> rfl

theorem wordWrite_byteAt {x : Nat} (hx : x < c.addr.toNat ∨ c.addr.toNat + 4 ≤ x) :
    (wordWrite c s).mem.byteAt s.cfg x = s.mem.byteAt s.cfg x := by
  rcases wordWrite_cases c s with ⟨-, h⟩ | ⟨-, -, h⟩ | ⟨-, -, m, hm, q, evs, h, -⟩ | ⟨-, -, -, h⟩ <;> rw [h]
  · rfl
  · rfl
  · exact Memory.byteAt_write_other hm hx
  · rfl

theorem wordWrite_queue :
    (wordWrite c s).queue = s.queue ∨
      ((wordWrite c s).queue = s.queue ++ [c.addr] ∧ c.addr.toNat ∈ s.cfg.subscribed) := by
  rcases wordWrite_cases c s with ⟨-, h⟩ | ⟨-, -, h⟩ | ⟨-, -, m, -, q, evs, h, hq⟩ | ⟨-, -, -, h⟩ <;> rw [h]
  · exact .inl rfl
  · exact .inl rfl
  · rcases hq with ⟨hsub, -, rfl, -⟩ | ⟨-, -, rfl, -⟩ | ⟨-, rfl, -⟩
    · exact .inr ⟨rfl, hsub⟩
    · exact .inl rfl
    · exact .inl rfl
  · exact .inl rfl

theorem wordWrite_crcEnabled :
    (wordWrite c s).crcEnabled = s.crcEnabled ∨ c.addr = protocolConfigAddr := by
  rcases wordWrite_cases c s with ⟨-, h⟩ | ⟨-, -, h⟩ | ⟨-, -, m, -, q, evs, h, -⟩ | ⟨-, -, -, h⟩ <;> rw [h]
  · exact .inl rfl
  · exact .inl rfl
  · by_cases ha : c.addr = protocolConfigAddr
    · exact .inr ha
    · exact .inl (by simp [ha])
  · exact .inl rfl

/-! ### DMA writes -/

/-- The state `t`, inside a DMA write to the `n` bytes at `a` that began in `s`: the registers hold that range, and
every byte outside it reads as in `s`. -/
structure State.StoresWithin (s : State) (a : Addr) (n : Nat) (t : State) : Prop where
  cfg : t.cfg = s.cfg
  registers : ∀ c, t.cmd = some c → c.addr = a ∧ c.size.toNat = n
  bytes : ∀ x, x < a.toNat ∨ a.toNat + n ≤ x → t.mem.byteAt s.cfg x = s.mem.byteAt s.cfg x

theorem State.work_registers {c' : Command} (h : s.work.cmd = some c') :
    ∃ c, s.cmd = some c ∧ c'.addr = c.addr ∧ c'.size = c.size := by
  rcases s.work_cases with hw | ⟨c, hc, -, -, hw⟩ | ⟨c, hc, -, -, -, hw⟩
  · exact ⟨c', by rwa [hw] at h, rfl, rfl⟩
  · refine ⟨c, hc, ?_⟩
    obtain ⟨m, evs, err, -, -, ⟨-, ht⟩ | ⟨-, ht⟩⟩ := State.takeChunk_cases c s <;>
      (rw [hw, ht] at h; cases h; exact ⟨rfl, rfl⟩)
  · refine ⟨c, hc, ?_⟩
    obtain ⟨d, evs, -, -, -, ht⟩ := State.sendChunk_eq c s
    rw [hw, ht] at h
    cases h
    exact ⟨rfl, rfl⟩

theorem State.byteTime_registers {b : Byte} {c' : Command} (h : (s.byteTime b).cmd = some c') :
    ∃ c, s.cmd = some c ∧ c'.addr = c.addr ∧ c'.size = c.size := by
  rcases s.byteTime_cases b with hb | ⟨c, hc, -, hb⟩ | ⟨c, r, q, hc, -, -, ⟨-, -, hb⟩ | ⟨-, hb⟩⟩ <;>
    rw [hb] at h
  · exact ⟨c', h, rfl, rfl⟩
  · cases h
    exact ⟨c, hc, rfl, rfl⟩
  · cases h
  · cases h
    exact ⟨c, hc, rfl, rfl⟩

variable {n : Nat}

/-- A received chunk lies inside the range (R59, R125). -/
theorem State.StoresWithin.work (h : s.StoresWithin a n t) : s.StoresWithin a n t.work := by
  refine ⟨t.work_cfg.trans h.cfg, fun c' hc' => ?_, fun x hx => ?_⟩
  · obtain ⟨c, hc, haddr, hsize⟩ := State.work_registers hc'
    rw [haddr, hsize]
    exact h.registers c hc
  · refine Eq.trans ?_ (h.bytes x hx)
    obtain ⟨p, k, m, evs, hw, -, -, -, hm, -⟩ := t.work_frame
    rw [hw]
    rcases hm with rfl | ⟨c, hc, -, hm⟩
    · rfl
    · obtain ⟨rfl, rfl⟩ := h.registers c hc
      rw [h.cfg] at hm
      refine Memory.byteAt_write_other hm ?_
      rw [List.length_take, Command.chunkLength, Command.remaining]
      omega

theorem State.StoresWithin.byteTime (h : s.StoresWithin a n t) (b : Byte) : s.StoresWithin a n (t.byteTime b) := by
  refine ⟨(State.byteTime_cfg b t).trans h.cfg, fun c' hc' => ?_, fun x hx => ?_⟩
  · obtain ⟨c, hc, haddr, hsize⟩ := State.byteTime_registers hc'
    rw [haddr, hsize]
    exact h.registers c hc
  · rw [State.byteTime_mem]
    exact h.bytes x hx

theorem converse_storesWithin (hl : undisturbed l) (h : s.StoresWithin a n t) :
    s.StoresWithin a n (converse l t) :=
  converse_induction_undisturbed (P := s.StoresWithin a n) (fun _ _ h => ⟨h.cfg, h.registers, h.bytes⟩)
    (fun _ h => h.work) (fun _ b h => h.work.byteTime b) hl h

theorem operandAddr_of_dmaWrite (hw : DmaWriteOf a n i) : operandAddr i = a := by
  rcases hw with ⟨size, crc, rfl, -⟩ | ⟨size, crc, rfl, -⟩ <;> rfl

theorem operandSize_of_dmaWrite (hw : DmaWriteOf a n i) : (operandSize i).toNat = n := by
  rcases hw with ⟨size, crc, rfl, rfl⟩ | ⟨size, crc, rfl, rfl⟩
  · exact sizeOf16_toNat size
  · rfl

theorem executed_of_dmaWrite (hw : DmaWriteOf a n i) :
    s.executed i = streamWrite (s.load i) (s.begun i) := by
  rcases hw with ⟨size, crc, rfl, -⟩ | ⟨size, crc, rfl, -⟩ <;> rfl

/-- The Execute part of a DMA write, up to its first payload byte, touches neither memory nor queue nor a flag. -/
theorem streamWrite_keeps :
    (streamWrite c s).mem = s.mem ∧ (streamWrite c s).queue = s.queue ∧ (streamWrite c s).cfg = s.cfg ∧
      (streamWrite c s).crcEnabled = s.crcEnabled ∧
      ∀ c', (streamWrite c s).cmd = some c' → c'.addr = c.addr ∧ c'.size = c.size := by
  obtain ⟨evs, -, ⟨-, h⟩ | ⟨-, h⟩⟩ := streamWrite_cases c s <;> rw [h] <;>
    exact ⟨rfl, rfl, rfl, rfl, by rintro _ ⟨⟩; exact ⟨rfl, rfl⟩⟩

theorem executed_storesWithin (hw : DmaWriteOf a n i) : s.StoresWithin a n (s.executed i) := by
  rw [executed_of_dmaWrite hw]
  obtain ⟨hmem, -, hcfg, -, hcmd⟩ := streamWrite_keeps (c := s.load i) (s := s.begun i)
  refine ⟨hcfg, fun c hc => ?_, fun x _ => by rw [hmem]⟩
  obtain ⟨haddr, hsize⟩ := hcmd c hc
  rw [haddr, hsize]
  exact ⟨operandAddr_of_dmaWrite hw, operandSize_of_dmaWrite hw⟩

end Sys2Proof.Machine

namespace Sys2Proof

open Machine Claims

/-- Settles O43: the Execute part composes a response and stores nothing, and sending it stores nothing either. -/
theorem readAndControlFrame : Obligations.ReadAndControlFrame := by
  intro i s t hk hl h
  obtain ⟨hmem, hqueue, hcrc⟩ := exec_edge_of_read_or_control hk hl h
  exact ⟨hmem, fun x => by rw [hmem, exec_cfg h], hqueue, hcrc, exec_cfg h,
    exec_resetPending_of_read_or_control hk h⟩

/-- Settles O44: the one store, the one notification and the two flags of a word write are all in its Execute part. -/
theorem wordWriteFrame : Obligations.WordWriteFrame := by
  intro i s t a v hw hl h
  have hi : i ≠ .idleSkip := by rcases hw with ⟨crc, rfl⟩ | ⟨b, crc, rfl, -⟩ <;> simp
  have haddr : (s.load i).addr = a := operandAddr_of_wordWrite hw
  have executed := executed_of_wordWrite (s := s) hw
  obtain ⟨hmem, hqueue, hcrc⟩ := exec_edge_eq_executed hi hl (executed ▸ wordWrite_phase) h
  rw [hmem, hqueue, hcrc, exec_cfg h, executed, ← haddr]
  refine ⟨fun x hx => wordWrite_byteAt (s := s.begun i) hx, wordWrite_queue, rfl, wordWrite_crcEnabled, ?_⟩
  rw [exec_resetPending_of_wordWrite hw h, haddr]
  by_cases ha : a = identityAddr
  · exact .inr ha
  · exact .inl (if_neg fun hg => ha hg.2)

/-- Settles O45: every chunk that the payload intake stores lies inside the range, and nothing else of memory, queue
and flags is touched. -/
theorem dmaWriteFrame : Obligations.DmaWriteFrame := by
  intro i s t a n hw hl h
  have hi : i ≠ .idleSkip := by rcases hw with ⟨size, crc, rfl, -⟩ | ⟨size, crc, rfl, -⟩ <;> simp
  have hreset : t.resetPending = s.resetPending := by
    calc t.resetPending = (s.executed i).resetPending := exec_resetPending h
      _ = (s.begun i).resetPending := by rw [executed_of_dmaWrite hw, streamWrite_resetPending]
  have hcfg := exec_cfg h
  obtain rfl := exec_next_eq hi h
  have within := converse_storesWithin hl (executed_storesWithin (s := s) hw)
  obtain ⟨-, hqueue, -, hcrc, -⟩ := streamWrite_keeps (c := s.load i) (s := s.begun i)
  rw [← executed_of_dmaWrite hw] at hqueue hcrc
  rw [operandAddr_of_dmaWrite hw]
  exact ⟨fun x hx => by rw [hcfg]; exact within.bytes x hx, (converse_queue hl _).trans hqueue, hcfg,
    (converse_crcEnabled _ _).trans hcrc, hreset⟩

end Sys2Proof
end

section
/-! What a read command answers when its whole response is clocked (`42_word_access.md` R104, `43_dma.md` R124): its
events depend on configuration, memory and flags alone, so a read that is issued twice answers the same twice
(`20_memory.md` R40). -/

namespace Sys2Proof.Machine

open Claims

variable {s : State} {c : Command} {i : Instr} {a : Addr} {n : Nat} {bytes : List Byte} {rest : List Stimulus}

/-! ### Events added to the trace -/

/-- `s` with the events `evs` added to the trace. -/
abbrev State.withEvents (s : State) (evs : List Event) : State := { s with trace := s.trace ++ evs }

@[simp] theorem State.withEvents_nil (s : State) : s.withEvents [] = s := by
  rw [State.withEvents, List.append_nil]

theorem after_withEvents (s : State) (evs evs' : List Event) (rest : List Stimulus) :
    after (s.withEvents evs) rest evs' = after s rest (evs ++ evs') := by
  simp only [after, List.append_assoc]

/-! ### Chunks of a run of bytes -/

theorem Buffer.drop_slice (b : Buffer) (o n k : Nat) : (b.slice o n).drop k = b.slice (o + k) (n - k) := by
  rcases le_total k n with h | h
  · obtain ⟨m, rfl⟩ := Nat.exists_eq_add_of_le h
    rw [Buffer.slice_add, List.drop_left' (Buffer.slice_length ..), Nat.add_sub_cancel_left]
  · rw [List.drop_eq_nil_of_le (by simpa using h), Nat.sub_eq_zero_of_le h, Buffer.slice]

theorem Buffer.take_slice (b : Buffer) (o n k : Nat) : (b.slice o n).take k = b.slice o (min k n) := by
  rcases le_total k n with h | h
  · obtain ⟨m, rfl⟩ := Nat.exists_eq_add_of_le h
    rw [Buffer.slice_add, List.take_left' (Buffer.slice_length ..), min_eq_left h]
  · rw [List.take_of_length_le (by simpa using h), min_eq_right h]

theorem chunkOf_slice (b : Buffer) (o n maxChunk j : Nat) :
    chunkOf maxChunk (b.slice o n) j = b.slice (o + j * maxChunk) (min maxChunk (n - j * maxChunk)) := by
  rw [chunkOf, Buffer.drop_slice, Buffer.take_slice]

theorem chunkOf_zeros (n maxChunk j : Nat) :
    chunkOf maxChunk (zeros n) j = zeros (min maxChunk (n - j * maxChunk)) := by
  rw [chunkOf, List.drop_replicate, List.take_replicate]

/-! ### One chunk of a STREAM response -/

/-- The data of a good read of `n` bytes at `a`: the bytes of the range, or zeros where it does not resolve. -/
def State.rangeData (s : State) (a n : Nat) : List Byte := (s.mem.read s.cfg a n).getD (zeros n)

/-- A good read of `n` bytes at `a` reads memory: the whole range resolves. -/
def State.rangeReads (s : State) (a n : Nat) : Bool := (s.mem.read s.cfg a n).isSome

theorem State.rangeData_length (s : State) (a n : Nat) : (s.rangeData a n).length = n := by
  cases h : s.mem.read s.cfg a n with
  | none => simp [State.rangeData, h]
  | some d => simpa [State.rangeData, h] using Memory.read_length h

/-- The data of chunk `j` of that read (R59). -/
def State.chunkData (s : State) (a n j : Nat) : List Byte := chunkOf s.cfg.maxChunk (s.rangeData a n) j

/-- The memory access of chunk `j` of that read, if it reads memory. -/
def State.chunkReads (s : State) (a n j : Nat) : List Event :=
  if s.rangeReads a n then [.memRd (a + j * s.cfg.maxChunk) (s.chunkData a n j)] else []

/-- The frame of chunk `j` of that read: marker, data, and checksum where checksums are on (R57). -/
def State.chunkFrame (s : State) (a n j : Nat) : List Byte :=
  chunkMarker j (chunkCount s.cfg.maxChunk n) :: (s.chunkData a n j ++ checksumOf s (s.chunkData a n j))

/-- The events of chunk `j` of that read. -/
def State.chunkEvents (s : State) (a n j : Nat) : List Event := s.chunkReads a n j ++ sends (s.chunkFrame a n j)

theorem streamEvents_rangeData (s : State) (a n : Nat) :
    streamEvents s a (s.rangeData a n) (s.rangeReads a n) =
      (List.range (chunkCount s.cfg.maxChunk n)).flatMap (s.chunkEvents a n) := by
  rw [streamEvents, State.rangeData_length]
  rfl

theorem checksumOf_length (s : State) (d : List Byte) : (checksumOf s d).length = s.crcEnabled.toNat :=
  dataChecksum_length s.cfg s.crcEnabled d

theorem State.chunkFrame_length (s : State) (a n j : Nat) :
    (s.chunkFrame a n j).length = 1 + min s.cfg.maxChunk (n - j * s.cfg.maxChunk) + s.crcEnabled.toNat := by
  rw [State.chunkFrame, List.length_cons, List.length_append, checksumOf_length, State.chunkData, chunkOf,
    List.length_take, List.length_drop, State.rangeData_length]
  omega

theorem Command.chunkLength_of_offset {cfg : Config} {j : Nat} (hoff : c.offset = j * cfg.maxChunk) :
    c.chunkLength cfg = min cfg.maxChunk (c.size.toNat - j * cfg.maxChunk) := by
  rw [Command.chunkLength, Command.remaining, hoff]

theorem State.readChunk_eq {j : Nat} (hoff : c.offset = j * s.cfg.maxChunk) :
    s.readChunk c = (s.chunkData c.addr.toNat c.size.toNat j,
      s.withEvents (s.chunkReads c.addr.toNat c.size.toNat j)) := by
  have hlen := Command.chunkLength_of_offset hoff
  rcases State.readChunk_cases c s with ⟨hr, h⟩ | ⟨r, o, d, hr, hd, h⟩
  · have unread := Memory.read_eq_none (m := s.mem).mpr hr
    simp [h, State.chunkReads, State.chunkData, State.rangeData, State.rangeReads, unread, chunkOf_zeros, hlen]
  · have read := Memory.read_of_resolve (m := s.mem) hr
    rw [hoff, hlen, ← chunkOf_slice] at hd
    simp [h, State.chunkReads, State.chunkData, State.rangeData, State.rangeReads, read, hd, hoff, State.emit]

/-! ### The rest of a STREAM response -/

/-- `s` inside a response, with the registers `c` and the events `evs` added to the trace. -/
abbrev State.sending (s : State) (c : Command) (evs : List Event) : State :=
  { s with cmd := some c, respOe := false, trace := s.trace ++ evs }

theorem after_sending (s : State) (c : Command) (evs evs' : List Event) (rest : List Stimulus) :
    after (s.sending c evs) rest evs' = after s rest (evs ++ evs') := by
  simp only [after, List.append_assoc]

/-- The registers when every composed byte has been sent. -/
abbrev Command.emptied (c : Command) : Command := { c with txQueue := [] }

/-- The registers at the start of chunk `j`, once its frame is composed. -/
def Command.withChunk (c : Command) (s : State) (j : Nat) : Command :=
  { c with
    offset := c.offset + c.chunkLength s.cfg
    txQueue := s.chunkFrame c.addr.toNat c.size.toNat j }

theorem State.sendChunk_eq_withChunk {j : Nat} (hmax : 1 ≤ s.cfg.maxChunk)
    (hoff : c.offset = j * s.cfg.maxChunk) :
    s.sendChunk c = { s with
      trace := s.trace ++ s.chunkReads c.addr.toNat c.size.toNat j, cmd := some (c.withChunk s j) } := by
  have hindex : c.chunkIndex s.cfg = j := by
    rw [Command.chunkIndex, hoff, Nat.mul_div_cancel _ hmax]
  simp only [State.sendChunk, State.readChunk_eq hoff, hindex]
  rfl

/-- The chunk that is pending when a byte time comes is composed before it. -/
theorem converse_sendChunk (hp : s.phase = .writeResponse) (hc : s.cmd = some c) (hq : c.txQueue = [])
    (hmore : c.moreChunks = true) (hne : bytes ≠ []) :
    converse (clocks bytes ++ rest) s = converse (clocks bytes ++ rest) (s.sendChunk c) := by
  obtain ⟨b, bytes, rfl⟩ := List.exists_cons_of_ne_nil hne
  have hwork : s.work = s.sendChunk c := by simp [State.work, hc, hp, hq, hmore]
  obtain ⟨d, evs, -, -, -, hsend⟩ := State.sendChunk_eq c s
  rw [hsend] at hwork ⊢
  rw [← hwork]
  refine converse_clock_work (by simp [hp]) (by simp [hwork, hp]) ?_
  rw [hwork]
  exact State.work_of_sending hp rfl rfl

/-- What is composed is sent, and the next chunk is composed. -/
theorem converse_nextChunk {j : Nat} {sent : List Byte} (hmax : 1 ≤ s.cfg.maxChunk) (hp : s.phase = .writeResponse)
    (hc : s.cmd = some c) (hne : c.txQueue ≠ []) (hmore : c.moreChunks = true)
    (hoff : c.offset = j * s.cfg.maxChunk) (hsent : sent.length = c.txQueue.length) (hbytes : bytes ≠ []) :
    converse (clocks (sent ++ bytes) ++ rest) s = converse (clocks bytes ++ rest)
      (s.sending (c.withChunk s j) (sends c.txQueue ++ s.chunkReads c.addr.toNat c.size.toNat j)) := by
  have empty : converse (clocks (sent ++ bytes) ++ rest) s =
      converse (clocks bytes ++ rest) (s.sending c.emptied (sends c.txQueue)) := by
    rw [clocks, List.map_append, List.append_assoc]
    exact converse_send_part hp hc rfl hne hmore hsent
  have composed : (s.sending c.emptied (sends c.txQueue)).sendChunk c.emptied =
      s.sending (c.withChunk s j) (sends c.txQueue ++ s.chunkReads c.addr.toNat c.size.toNat j) := by
    rw [State.sendChunk_eq_withChunk (s := s.sending c.emptied _) (c := c.emptied) hmax hoff]
    simp only [State.sending, List.append_assoc]
    rfl
  rw [empty, ← composed]
  exact converse_sendChunk hp rfl rfl hmore hbytes

theorem mul_lt_of_lt_chunkCount {maxChunk size j : Nat} (hmax : 1 ≤ maxChunk) (hj : j < chunkCount maxChunk size) :
    j * maxChunk < size := by
  have hle : (j + 1) * maxChunk ≤ chunkCount maxChunk size * maxChunk := Nat.mul_le_mul_right _ hj
  have := (chunkCount_bounds (size := size) hmax).2
  rw [Nat.succ_mul] at hle
  omega

/-- With `m` chunks still to compose, as many byte times as there are bytes left end the transaction. -/
theorem converse_stream {j m : Nat} (hmax : 1 ≤ s.cfg.maxChunk) (hop : (decodeOp c.op).isStreamRead = true)
    (hp : s.phase = .writeResponse) (hc : s.cmd = some c) (hne : c.txQueue ≠ [])
    (hcount : j + m = chunkCount s.cfg.maxChunk c.size.toNat)
    (hoff : c.offset = min (j * s.cfg.maxChunk) c.size.toNat)
    (hb : bytes.length = c.txQueue.length + (c.size.toNat - c.offset) + m * (1 + s.crcEnabled.toNat)) :
    converse (clocks bytes ++ rest) s = after s rest
      (sends c.txQueue ++ (List.range' j m).flatMap (s.chunkEvents c.addr.toNat c.size.toNat)) := by
  induction m generalizing j s c bytes with
  | zero =>
    have hle := (chunkCount_bounds (size := c.size.toNat) hmax).1
    rw [← hcount, Nat.add_zero] at hle
    have hend : c.offset = c.size.toNat := hoff.trans (min_eq_right hle)
    refine (converse_send hp hc rfl hne (by simp [Command.moreChunks, hend]) (by omega)).trans ?_
    simp [after, sends]
  | succ m ih =>
    have hlt : j * s.cfg.maxChunk < c.size.toNat := mul_lt_of_lt_chunkCount hmax (by omega)
    rw [min_eq_left hlt.le] at hoff
    have hmore : c.moreChunks = true := by simp [Command.moreChunks, hop, hoff, hlt]
    have hlen := Command.chunkLength_of_offset hoff
    have hframe := s.chunkFrame_length c.addr.toNat c.size.toNat j
    rw [Nat.succ_mul] at hb
    obtain ⟨sent, later, rfl, hsent⟩ : ∃ b1 b2, bytes = b1 ++ b2 ∧ b1.length = c.txQueue.length :=
      ⟨bytes.take c.txQueue.length, bytes.drop c.txQueue.length, (List.take_append_drop ..).symm,
        by rw [List.length_take]; omega⟩
    rw [List.length_append] at hb
    have hlater : later ≠ [] := by rintro rfl; rw [List.length_nil] at hb; omega
    rw [converse_nextChunk hmax hp hc hne hmore hoff hsent hlater]
    refine (ih (s := s.sending (c.withChunk s j) _) (j := j + 1) (c := c.withChunk s j) hmax hop hp rfl
      (by simp [Command.withChunk, State.chunkFrame]) ((Nat.succ_add_eq_add_succ j m).trans hcount) ?_ ?_).trans ?_
    · show c.offset + c.chunkLength s.cfg = min ((j + 1) * s.cfg.maxChunk) c.size.toNat
      rw [hoff, hlen, Nat.succ_mul]
      omega
    · show later.length = (s.chunkFrame c.addr.toNat c.size.toNat j).length +
        (c.size.toNat - (c.offset + c.chunkLength s.cfg)) + m * (1 + s.crcEnabled.toNat)
      rw [hframe, hlen]
      omega
    · rw [after_sending, List.range'_succ, List.flatMap_cons, List.append_assoc]
      simp only [State.chunkEvents, List.append_assoc]
      rfl

/-- The whole STREAM response, once its first two bytes are composed. -/
theorem converse_respond_stream (hmax : 1 ≤ s.cfg.maxChunk) (hop : (decodeOp c.op).isStreamRead = true)
    (hoff : c.offset = 0) (st : Byte)
    (hb : bytes.length = 2 + c.size.toNat +
      chunkCount s.cfg.maxChunk c.size.toNat * (1 + s.crcEnabled.toNat)) :
    converse (clocks bytes ++ rest) (s.respond c st []) = after s rest (sends [c.op, st] ++
      (List.range (chunkCount s.cfg.maxChunk c.size.toNat)).flatMap
        (s.chunkEvents c.addr.toNat c.size.toNat)) := by
  rw [List.range_eq_range']
  exact converse_stream (s := s.respond c st []) (c := { c with status := st, txQueue := [c.op, st] }) (j := 0)
    hmax hop rfl rfl (by simp) (Nat.zero_add _) (by simp [hoff]) (by simpa [hoff] using hb)

/-! ### The four read commands -/

/-- The status byte of a good read of `n` bytes at `a` (R58, R151). -/
def State.rangeStatus (s : State) (a n : Nat) : Byte := if s.rangeReads a n then statusOk else s.cfg.statusErr

/-- The diagnostic of a good read that does not resolve, and no event where it does (R151). -/
def State.rangeFault (s : State) (a n : Nat) : List Event :=
  if s.rangeReads a n then [] else [.diag (.outOfRange a n)]

/-- The events of a good word read at `a`, the override of R107 apart. -/
def State.wordReadEvents (s : State) (a : Addr) (op : Byte) : List Event :=
  (if s.rangeReads a.toNat 4 then .memRd a.toNat (s.rangeData a.toNat 4) else .diag (.outOfRange a.toNat 4)) ::
    sends (wordResponse s op (s.rangeStatus a.toNat 4) (s.rangeData a.toNat 4))

/-- The events of a good DMA read of `n` bytes at `a`. -/
def State.dmaReadEvents (s : State) (a : Addr) (n : Nat) (op : Byte) : List Event :=
  s.rangeFault a.toNat n ++ sends [op, s.rangeStatus a.toNat n] ++
    streamEvents s a.toNat (s.rangeData a.toNat n) (s.rangeReads a.toNat n)

theorem exec_of_wordRead (hr : WordReadOf a i) : exec i s = transact i wordRead s := by
  rcases hr with ⟨crc, rfl⟩ | ⟨b, crc, rfl, -⟩ <;> rfl

theorem exec_of_dmaRead (hd : DmaReadOf a n i) : exec i s = transact i streamRead s := by
  rcases hd with ⟨size, crc, rfl, -⟩ | ⟨size, crc, rfl, -⟩ <;> rfl

theorem load_of_wordRead (hr : WordReadOf a i) : (s.load i).addr = a ∧ (s.load i).size.toNat = 0 := by
  rcases hr with ⟨crc, rfl⟩ | ⟨b, crc, rfl, rfl⟩ <;> exact ⟨rfl, rfl⟩

theorem load_of_dmaRead (hd : DmaReadOf a n i) :
    (s.load i).addr = a ∧ (s.load i).size.toNat = n ∧ (decodeOp (s.load i).op).isStreamRead = true := by
  rcases hd with ⟨size, crc, rfl, rfl⟩ | ⟨size, crc, rfl, rfl⟩
  · exact ⟨rfl, sizeOf16_toNat size, rfl⟩
  · exact ⟨rfl, rfl, rfl⟩

theorem responseLength_of_wordRead (hr : WordReadOf a i) (cfg : Config) (crcEnabled : Bool) :
    responseLength cfg crcEnabled i = 7 + crcEnabled.toNat := by
  rcases hr with ⟨crc, rfl⟩ | ⟨b, crc, rfl, -⟩ <;> rfl

theorem responseLength_of_dmaRead (hd : DmaReadOf a n i) (cfg : Config) (crcEnabled : Bool) :
    responseLength cfg crcEnabled i = 2 + n + chunkCount cfg.maxChunk n * (1 + crcEnabled.toNat) := by
  rcases hd with ⟨size, crc, rfl, rfl⟩ | ⟨size, crc, rfl, rfl⟩ <;> rfl

/-- An Execute part that finds the checksum bad and composes `n` zeros runs to its end. -/
theorem transact_crcMismatch {f : Command → State → State} {k : Command}
    (he : f (s.load i) (s.begun i) = ((s.begun i).raise .crcMismatch).respondZero k n) (hm : k.moreChunks = false)
    (hn : n ≠ 0) (hin : s.inbox = clocks bytes ++ rest) (hb : bytes.length = n) :
    transact i f s = .next (after s rest (.diag .crcMismatch :: sends (zeros n))) := by
  rw [transact_respondZero he hm hin hb hn]
  simp [after, sends]

/-- A read with a bad checksum answers zeros only (R152). -/
theorem exec_read_of_bad (hk : MemoryRead i) (hbad : ¬ CommandGood s i) (hin : s.inbox = clocks bytes ++ rest)
    (hb : bytes.length = responseLength s.cfg s.crcEnabled i) :
    exec i s = .next (after s rest (.diag .crcMismatch :: sends (zeros (responseLength s.cfg s.crcEnabled i)))) := by
  have hc : (s.load i).cmdCrcOk = false := Bool.eq_false_of_not_eq_true hbad
  rcases hk with ⟨a, hr⟩ | ⟨a, n, hd⟩
  · rw [responseLength_of_wordRead hr] at hb ⊢
    rw [exec_of_wordRead hr]
    exact transact_crcMismatch (k := s.load i) (by simp [wordRead, hc])
      (Command.moreChunks_of_size (load_of_wordRead hr).2) (by omega) hin hb
  · rw [responseLength_of_dmaRead hd] at hb ⊢
    rw [exec_of_dmaRead hd]
    exact transact_crcMismatch (k := { s.load i with offset := (s.load i).size.toNat })
      (by simp [streamRead, hc, load_of_dmaRead hd]) (by simp [Command.moreChunks]) (by omega) hin hb

theorem wordRead_of_good (hg : c.cmdCrcOk = true) (hno : ¬ (s.resetPending = true ∧ c.addr = stateAddr)) :
    wordRead c s = (s.emit (if s.rangeReads c.addr.toNat 4 then .memRd c.addr.toNat (s.rangeData c.addr.toNat 4)
      else .diag (.outOfRange c.addr.toNat 4))).respondWord c (s.rangeStatus c.addr.toNat 4)
        (s.rangeData c.addr.toNat 4) := by
  rcases wordRead_cases c s with ⟨hbad, -⟩ | ⟨-, hp, ha, -⟩ | ⟨-, -, d, hd, h⟩ | ⟨-, -, hr, h⟩
  · simp [hbad] at hg
  · exact absurd ⟨hp, ha⟩ hno
  · simp [h, State.rangeReads, State.rangeStatus, State.rangeData, hd]
  · have unread := Memory.read_eq_none (m := s.mem).mpr hr
    simp [h, State.rangeReads, State.rangeStatus, State.rangeData, unread, State.raise]

theorem streamRead_of_good (hg : c.cmdCrcOk = true) :
    streamRead c s = State.respond { c with offset := 0 } (s.rangeStatus c.addr.toNat c.size.toNat) []
      (s.withEvents (s.rangeFault c.addr.toNat c.size.toNat)) := by
  rcases streamRead_cases c s with ⟨hbad, -⟩ | ⟨-, ⟨r, o, hr⟩, h⟩ | ⟨-, hr, h⟩
  · simp [hbad] at hg
  · have read := Memory.read_of_resolve (m := s.mem) hr
    simp [h, State.rangeFault, State.rangeReads, State.rangeStatus, read]
  · have unread := Memory.read_eq_none (m := s.mem).mpr hr
    simp [h, State.rangeFault, State.rangeReads, State.rangeStatus, unread, State.raise, State.emit]

/-- A good word read answers the bytes of the range, or the error status and zeros (R104, R151). -/
theorem exec_wordRead_of_good (hr : WordReadOf a i) (hg : CommandGood s i)
    (hno : ¬ (s.resetPending = true ∧ a = stateAddr)) (hin : s.inbox = clocks bytes ++ rest)
    (hb : bytes.length = 7 + s.crcEnabled.toNat) :
    exec i s = .next (after s rest (s.wordReadEvents a i.opcode)) := by
  obtain ⟨rfl, hsize⟩ := load_of_wordRead (s := s) hr
  have he : wordRead (s.load i) (s.begun i) = _ := wordRead_of_good hg hno
  rw [respondWord_eq] at he
  have hlen (d : List Byte) (hd : d.length = 4) :
      bytes.length = (wordFraming :: (d ++ dataChecksum s.cfg s.crcEnabled d)).length + 2 := by
    rw [hb, List.length_cons, List.length_append, hd, dataChecksum_length]
    omega
  rw [exec_of_wordRead hr, transact_respond he (Command.moreChunks_of_size hsize) hin
    (hlen _ (State.rangeData_length ..))]
  exact congrArg Host.Outcome.next (after_withEvents s [_] _ rest)

/-- A good DMA read announces in its status whether the whole range resolves, and streams its chunks (R124). -/
theorem exec_dmaRead_of_good (hd : DmaReadOf a n i) (hg : CommandGood s i) (hmax : 1 ≤ s.cfg.maxChunk)
    (hin : s.inbox = clocks bytes ++ rest) (hb : bytes.length = responseLength s.cfg s.crcEnabled i) :
    exec i s = .next (after s rest (s.dmaReadEvents a n i.opcode)) := by
  obtain ⟨rfl, rfl, hop⟩ := load_of_dmaRead (s := s) hd
  have he : streamRead (s.load i) (s.begun i) =
      (s.withEvents (s.rangeFault (s.load i).addr.toNat (s.load i).size.toNat)).respond (s.load i)
        (s.rangeStatus (s.load i).addr.toNat (s.load i).size.toNat) [] :=
    streamRead_of_good (s := s.begun i) hg
  rw [responseLength_of_dmaRead hd] at hb
  rw [exec_of_dmaRead hd, transact, he, hin,
    converse_respond_stream (s := s.withEvents _) hmax hop rfl _ hb, after_withEvents, State.dmaReadEvents,
    streamEvents_rangeData, List.append_assoc]
  rfl

/-! ### The same read again -/

/-- The state `s` with other registers, another phase, schedule and trace: what a read does not look at. -/
abbrev State.elsewhere (s : State) (p : Phase) (k : Option Command) (on : Bool) (l : List Stimulus)
    (tr : List Event) : State :=
  { s with phase := p, cmd := k, respOe := on, inbox := l, trace := tr }

/-- A command that adds the same events wherever it is issued, and changes nothing else, does so twice. -/
theorem exec_twice {evs : List Event} {b1 b2 : List Byte} {len : Nat}
    (h : ∀ p k on l tr bytes rest, l = clocks bytes ++ rest → bytes.length = len →
      exec i (s.elsewhere p k on l tr) = .next (after (s.elsewhere p k on l tr) rest evs))
    (hin : s.inbox = clocks (b1 ++ b2) ++ rest) (h1 : b1.length = len) (h2 : b2.length = len) :
    ∃ t u evs, exec i s = .next t ∧ exec i t = .next u ∧ t.trace = s.trace ++ evs ∧ u.trace = t.trace ++ evs := by
  have hin' : s.inbox = clocks b1 ++ (clocks b2 ++ rest) := by
    rw [hin, clocks, List.map_append, List.append_assoc]; rfl
  exact ⟨after s (clocks b2 ++ rest) evs, after (after s (clocks b2 ++ rest) evs) rest evs, evs,
    h s.phase s.cmd s.respOe s.inbox s.trace b1 _ hin' h1,
    h .awaitOpcode none false (clocks b2 ++ rest) (s.trace ++ evs) b2 rest rfl h2, rfl, rfl⟩

end Sys2Proof.Machine

namespace Sys2Proof

open Machine Claims

/-- Settles O51: the events of a read are a function of configuration, memory and flags, which it leaves alone. -/
theorem repeatedReadsAgree : Obligations.RepeatedReadsAgree := by
  intro s i b1 b2 rest hk hreset hmax hin h1 h2
  by_cases hg : CommandGood s i
  · rcases hk with ⟨a, hr⟩ | ⟨a, n, hd⟩
    · have hno : ¬ (s.resetPending = true ∧ a = stateAddr) := by simp [hreset]
      rw [responseLength_of_wordRead hr] at h1 h2
      exact exec_twice (evs := s.wordReadEvents a i.opcode) (fun p k on l tr _ _ hl hb =>
        exec_wordRead_of_good (s := s.elsewhere p k on l tr) hr hg hno hl hb) hin h1 h2
    · exact exec_twice (evs := s.dmaReadEvents a n i.opcode) (fun p k on l tr _ _ hl hb =>
        exec_dmaRead_of_good (s := s.elsewhere p k on l tr) hd hg hmax hl hb) hin h1 h2
  · exact exec_twice (evs := .diag .crcMismatch :: sends (zeros (responseLength s.cfg s.crcEnabled i)))
      (fun p k on l tr _ _ hl hb => exec_read_of_bad (s := s.elsewhere p k on l tr) hk hg hl hb) hin h1 h2

end Sys2Proof
end

section
/-! The command frames (`30_encoding.md` R51 to R56, R60 to R62): what the decoder answers to the frame of a
well-formed command, and that its answer to any byte list is such a frame or says that the list is too short. -/

namespace Sys2Proof

variable {ctx : FrameContext} {op : Byte} {bs rest dummies : List Byte} {i : Instr}

/-! ### Frames of well-formed commands -/

theorem takeCrc_append {make : Option Byte → Instr} {crc : Option Byte} (h : crc.isSome = ctx.crc) :
    takeCrc ctx op make (crc.toList ++ rest) = .ok (make crc, rest) := by
  cases crc <;> simp [takeCrc, ← h]

theorem takeDummies_append (h : dummies.length = ctx.drain) :
    takeDummies ctx op i (dummies ++ rest) = .ok (i, rest) := by
  simp [takeDummies, ← h]

/-- The decoder reads the frame of a well-formed command, whatever its dummy bytes (R60: they are "wholly
ignored"), and leaves what follows. -/
theorem decode_frame (h : WellFormed ctx i = true) (hdummies : dummies.length = i.dummies ctx) :
    decode ctx (i.cmdBytes ++ dummies ++ rest) = .ok (i, rest) := by
  cases i
  case idleSkip =>
    obtain rfl : dummies = [] := List.length_eq_zero_iff.mp hdummies
    simp [Instr.cmdBytes, Instr.body, Instr.crc, decode, isIdleFiller, show ctx.skip = true from h]
  case reset =>
    obtain rfl : dummies = [] := List.length_eq_zero_iff.mp hdummies
    simp [Instr.cmdBytes, Instr.body, Instr.crc, decode, isIdleFiller, decodeOp]
  case terminate | repeatCmd =>
    simp [Instr.cmdBytes, Instr.body, Instr.crc, decode, isIdleFiller, decodeOp, takeDummies_append hdummies]
  case unknown op =>
    obtain ⟨hop, hidle⟩ := wellFormed_unknown h
    simp [Instr.cmdBytes, Instr.body, Instr.crc, decode, hidle, hop, takeDummies_append hdummies]
  case dmaWrite _ _ crc | dmaRead _ _ crc | internalWrite _ _ crc | internalRead _ crc | dmaExtWrite _ _ crc
      | dmaExtRead _ _ crc | singleWrite _ _ crc | singleRead _ crc =>
    obtain rfl : dummies = [] := List.length_eq_zero_iff.mp hdummies
    have hcrc : crc.isSome = ctx.crc := by simpa [WellFormed, Instr.isReadWrite, Instr.crc] using h
    simp [-BitVec.ofNat_toNat, Instr.cmdBytes, Instr.body, Instr.crc, decode, isIdleFiller, decodeOp, bytesBe2,
      bytesBe3, bytesLe32, be2_bytes, be3_bytes, le32_bytes, takeCrc_append hcrc]

/-! ### Everything the decoder can answer -/

/-- The answers the decoder may give to the byte list `bs`: the list begins with the frame of a well-formed command,
and that command and what follows its frame are answered; or it is shorter than the frame its opcode begins. -/
def FrameAnswer (ctx : FrameContext) (bs : List Byte) : Except DecodeError (Instr × List Byte) → Prop
  | .ok (i, rest) => WellFormed ctx i = true ∧
      ∃ dummies, dummies.length = i.dummies ctx ∧ bs = i.cmdBytes ++ dummies ++ rest
  | .error _ => ∀ op ∈ bs.head?, bs.length < frameLength ctx op

theorem frameAnswer_truncated (h : 1 + bs.length < frameLength ctx op) (e : DecodeError) :
    FrameAnswer ctx (op :: bs) (.error e) := by
  rintro _ ⟨⟩
  rwa [List.length_cons, Nat.add_comm]

/-- A frame with fewer than its `n` parameter bytes. -/
theorem frameAnswer_short {n : Nat} (hlen : frameLength ctx op = n + 1 + ctx.crc.toNat) (h : ¬ n ≤ bs.length)
    (e : DecodeError) : FrameAnswer ctx (op :: bs) (.error e) :=
  frameAnswer_truncated (by omega) e

/-- A frame whose parameter bytes have been read, so that its checksum byte, where it has one, comes next. -/
theorem frameAnswer_takeCrc {make : Option Byte → Instr} {r : List Byte}
    (hlen : 1 + bs.length + ctx.crc.toNat = frameLength ctx op + r.length)
    (hmake : ∀ crc, WellFormed ctx (make crc) = (crc.isSome == ctx.crc) ∧ (make crc).dummies ctx = 0 ∧
      op :: bs = (make crc).body ++ r ∧ (make crc).crc = crc) :
    FrameAnswer ctx (op :: bs) (takeCrc ctx op make r) := by
  have complete {crc : Option Byte} {rest : List Byte} (hcrc : crc.isSome = ctx.crc)
      (hr : r = crc.toList ++ rest) : FrameAnswer ctx (op :: bs) (.ok (make crc, rest)) := by
    obtain ⟨hwf, hdummies, hbody, hrx⟩ := hmake crc
    exact ⟨by rw [hwf, hcrc, beq_self_eq_true], [], hdummies.symm, by simp [hbody, Instr.cmdBytes, hrx, hr]⟩
  cases hc : ctx.crc with
  | false => simpa [takeCrc, hc] using complete (crc := none) hc.symm rfl
  | true =>
    rw [hc] at hlen
    cases r with
    | nil =>
      rw [Bool.toNat_true, List.length_nil] at hlen
      simpa [takeCrc, hc] using frameAnswer_truncated (by omega) _
    | cons rx rest => simpa [takeCrc, hc] using complete (crc := some rx) hc.symm rfl

theorem frameAnswer_takeDummies (hlen : frameLength ctx op = 1 + ctx.drain) (hwf : WellFormed ctx i = true)
    (hdummies : i.dummies ctx = ctx.drain) (hbytes : i.cmdBytes = [op]) :
    FrameAnswer ctx (op :: bs) (takeDummies ctx op i bs) := by
  unfold takeDummies
  split_ifs with h
  · exact ⟨hwf, bs.take ctx.drain, by rw [hdummies, List.length_take, min_eq_left h], by simp [hbytes]⟩
  · exact frameAnswer_truncated (by omega) _

theorem wellFormed_unknown_iff : WellFormed ctx (.unknown op) = true ↔
    decodeOp op = .unknown ∧ isIdleFiller ctx op = false := by
  rw [decodeOp_unknown]
  simp [WellFormed, unknownOpcode, isIdleFiller, imp_iff_not_or]

theorem succ_le_length_iff {n : Nat} : n + 1 ≤ bs.length ↔ ∃ b r, n ≤ List.length r ∧ bs = b :: r := by
  cases bs <;> simp

/-- The decoder answers as it may: by the idle byte, and then by the format of the opcode's frame (R51, R56). -/
theorem decode_frameAnswer (ctx : FrameContext) (bs : List Byte) : FrameAnswer ctx bs (decode ctx bs) := by
  rcases bs with _ | ⟨op, bs⟩
  · rintro _ ⟨⟩
  cases hidle : isIdleFiller ctx op with
  | true =>
    obtain ⟨hskip, rfl⟩ : ctx.skip = true ∧ op = 0 := by simpa [isIdleFiller] using hidle
    simp only [decode, hidle, if_true]
    exact ⟨hskip, [], rfl, rfl⟩
  | false =>
    have hlen : frameLength ctx op = (decodeOp op).format.length ctx := by simp [frameLength, hidle]
    simp only [decode, hidle, Bool.false_eq_true, if_false]
    cases hop : decodeOp op <;> simp only [hop, Opcode.format, FrameFormat.length] at hlen
    case unknown => exact frameAnswer_takeDummies hlen (wellFormed_unknown_iff.mpr ⟨hop, hidle⟩) rfl rfl
    case terminate | repeatCmd =>
      simp only [decodeOp_terminate, decodeOp_repeatCmd] at hop
      subst hop
      exact frameAnswer_takeDummies hlen rfl rfl rfl
    case reset =>
      rw [decodeOp_reset] at hop
      subst hop
      exact ⟨rfl, [], rfl, rfl⟩
    case dmaWrite | dmaRead | internalWrite | internalRead | dmaExtWrite | dmaExtRead | singleWrite | singleRead =>
      simp only [decodeOp_dmaWrite, decodeOp_dmaRead, decodeOp_internalWrite, decodeOp_internalRead,
        decodeOp_dmaExtWrite, decodeOp_dmaExtRead, decodeOp_singleWrite, decodeOp_singleRead] at hop
      subst hop
      dsimp only
      split
      · exact frameAnswer_takeCrc (by simp only [List.length_cons]; omega) fun crc =>
          ⟨rfl, rfl, by simp [Instr.body], rfl⟩
      · next hshort => exact frameAnswer_short hlen (by simpa [succ_le_length_iff] using hshort) _

/-- The decoder answers a command exactly where a frame of that command stands. -/
theorem decode_eq_ok : decode ctx bs = .ok (i, rest) ↔
    WellFormed ctx i = true ∧ ∃ dummies, dummies.length = i.dummies ctx ∧ bs = i.cmdBytes ++ dummies ++ rest := by
  constructor
  · intro h
    have answer := decode_frameAnswer ctx bs
    rwa [h] at answer
  · rintro ⟨hwf, dummies, hdummies, rfl⟩
    exact decode_frame hwf hdummies

/-! ### The opcode byte fixes the length of the frame -/

theorem Instr.cmdBytes_head (i : Instr) : i.cmdBytes.head? = some i.opcode := by cases i <;> rfl

theorem frame_length (h : WellFormed ctx i = true) (hdummies : dummies.length = i.dummies ctx) :
    (i.cmdBytes ++ dummies).length = frameLength ctx i.opcode := by
  rw [← encode_length h, encode, List.length_append, List.length_append, hdummies, List.length_replicate]

/-- A byte list as long as the frame its first byte begins is such a frame (R60, R62). -/
theorem decode_of_length {params : List Byte} (hlen : 1 + params.length = frameLength ctx op) :
    ∃ i, decode ctx (op :: (params ++ rest)) = .ok (i, rest) ∧ i.opcode = op := by
  have answer := decode_frameAnswer ctx (op :: (params ++ rest))
  cases hd : decode ctx (op :: (params ++ rest)) with
  | error e =>
    rw [hd] at answer
    have short := answer op rfl
    simp only [List.length_cons, List.length_append] at short
    omega
  | ok result =>
    obtain ⟨i, rest'⟩ := result
    obtain ⟨hwf, dummies, hdummies, hbytes⟩ := decode_eq_ok.mp hd
    have hop : i.opcode = op := by
      have head := congrArg List.head? hbytes
      simpa [List.head?_append, i.cmdBytes_head] using head.symm
    have hsame : (op :: params).length = (i.cmdBytes ++ dummies).length := by
      rw [frame_length hwf hdummies, hop, ← hlen, List.length_cons, Nat.add_comm]
    obtain ⟨-, rfl⟩ := List.append_inj (s₁ := op :: params) hbytes hsame
    exact ⟨i, rfl, hop⟩

/-- Settles O5: the decoder reads every frame of a well-formed command, and the encoder writes one. -/
theorem decodeAfterEncode : Obligations.DecodeAfterEncode :=
  fun _ _ _ h => decode_frame h List.length_replicate

/-- Settles O6: everything the decoder answers is the frame of a well-formed command. -/
theorem encodeAfterDecode : Obligations.EncodeAfterDecode :=
  fun _ _ _ _ h => decode_eq_ok.mp h

/-- Settles O7: a list of the length of a frame is not too short, so it is decoded, and the frame found in it has
the length its opcode says. -/
theorem everyOpcodeByteIsHandled : Obligations.EveryOpcodeByteIsHandled :=
  fun _ _ _ _ hlen => decode_of_length hlen

/-- Settles O8: each frame is evaluated. -/
theorem sampleFramesDecode : Obligations.SampleFramesDecode :=
  ⟨rfl, rfl, rfl, rfl, rfl, rfl, rfl, rfl, rfl, rfl, rfl, rfl, rfl⟩

end Sys2Proof
end

section
/-! The idle filler byte (`30_encoding.md` R61): one byte time of a step from AwaitOpcode and nothing more, where
`IDLE_ZERO_SKIP` holds; the opcode of an unknown command, where it does not. -/

namespace Sys2Proof.Machine

variable {s : State} {c : Command} {i : Instr} {rest : List Stimulus}

theorem runFrame_of_decode {l : List Byte} (hc : s.cmd = some c) (hd : decode s.frameContext c.frame = .ok (i, l)) :
    runFrame s = exec i s := by
  simp only [runFrame, hc, hd]

/-- Without an environment step or a `turn` at its head the schedule is left as it is. -/
theorem settleEnvironment_of_clock (h : rest = [] ∨ ∃ b l, rest = .clock b :: l) (s : State) :
    settleEnvironment rest s = { s with inbox := rest } := by
  rcases h with rfl | ⟨b, l, rfl⟩ <;> rfl

/-- A byte that is idle filler is a whole frame (R61). -/
theorem State.frameComplete_receiveOpcode {b : Byte} (hidle : isIdleFiller s.frameContext b = true) :
    (s.receiveOpcode b).frameComplete = true := by
  simp [State.frameComplete, Command.start, frameLength, hidle]

theorem fetch_idleFiller {b : Byte} (hc : s.cmd = none) (hidle : isIdleFiller s.frameContext b = true) :
    fetch (.clock b :: rest) s = { s.receiveOpcode b with inbox := rest } := by
  have hn : s.frameComplete = false := by simp only [State.frameComplete, hc]
  simp only [fetch, hn, Bool.false_eq_true, if_false, State.receive, hc]
  exact fetch_complete (State.frameComplete_receiveOpcode hidle)

theorem step_idleFiller (ha : s.cfg.Admissible) (hskip : s.cfg.idleZeroSkip = true) (hp : s.phase = .awaitOpcode)
    (hc : s.cmd = none) (hline : s.respOe = false) (hin : s.inbox = .clock 0 :: rest)
    (hrest : rest = [] ∨ ∃ b l, rest = .clock b :: l) :
    step s = .next { s with inbox := rest, trace := s.trace ++ [.rx 0] } := by
  have hidle : isIdleFiller s.frameContext 0 = true := by simp [isIdleFiller, State.frameContext, hskip]
  have complete : State.frameComplete { s.receiveOpcode 0 with inbox := rest } = true :=
    State.frameComplete_receiveOpcode hidle
  have hframe : decode s.frameContext (Command.start 0).frame = .ok (.idleSkip, []) :=
    decode_frame (i := .idleSkip) (dummies := []) hskip rfl
  rw [step_awaitOpcode ha hp hc, fetchAndRun, hin, fetch_idleFiller hc hidle]
  simp only [complete, if_true, settleEnvironment_of_clock hrest]
  refine (runFrame_of_decode (s := { s.receiveOpcode 0 with inbox := rest }) rfl hframe).trans ?_
  simp [exec, execIdleSkip, State.finish, State.receiveOpcode, State.busRead, State.drive, State.emit, hp, hc, hline]

end Sys2Proof.Machine

namespace Sys2Proof

open Machine

/-- Settles O17: under `IDLE_ZERO_SKIP` the byte is a frame of its own with an empty meaning; without it, an opcode
that no row names. -/
theorem idleFillerByte : Obligations.IdleFillerByte := by
  refine ⟨fun s rest ha hskip hp hc hline hin hrest => step_idleFiller ha hskip hp hc hline hin hrest,
    fun s => rfl, fun ctx bs hskip hlen => ?_⟩
  have hwf : WellFormed ctx (.unknown 0x00) = true :=
    wellFormed_unknown_iff.mpr ⟨by decide, by simp [isIdleFiller, hskip]⟩
  have hdummies : (bs.take ctx.drain).length = ctx.drain := List.length_take_of_le hlen
  simpa [Instr.cmdBytes, Instr.body, Instr.crc] using decode_frame (rest := bs.drop ctx.drain) hwf hdummies

end Sys2Proof
end

section
/-! How a transfer is cut into chunks (`30_encoding.md` R59): the quotient rounded up, chunk lengths, and which bytes
each chunk covers. -/

namespace Sys2Proof.Machine

variable {maxChunk size i p : Nat}

theorem chunkCount_eq_zero_iff (h : 1 ≤ maxChunk) : chunkCount maxChunk size = 0 ↔ size = 0 := by
  constructor
  · intro hk
    have := (chunkCount_bounds (size := size) h).1
    rw [hk] at this
    omega
  · rintro rfl
    exact chunkCount_zero h

/-- Chunk `i` exists exactly when it starts inside the transfer. -/
theorem lt_chunkCount_iff (h : 1 ≤ maxChunk) : i < chunkCount maxChunk size ↔ i * maxChunk < size := by
  refine ⟨mul_lt_of_lt_chunkCount h, fun hi => ?_⟩
  exact Nat.lt_of_mul_lt_mul_right (hi.trans_le (chunkCount_bounds h).1)

/-- A chunk before the last is full. -/
theorem chunkLength_of_succ_lt (h : 1 ≤ maxChunk) (hi : i + 1 < chunkCount maxChunk size) :
    chunkLength maxChunk size i = maxChunk := by
  have := (lt_chunkCount_iff h).mp hi
  rw [Nat.succ_mul] at this
  rw [chunkLength]
  omega

/-- The last chunk has the rest. -/
theorem chunkLength_last (h : 1 ≤ maxChunk) (hi : i + 1 = chunkCount maxChunk size) :
    chunkLength maxChunk size i = size - i * maxChunk := by
  have := (chunkCount_bounds (size := size) h).1
  rw [← hi, Nat.succ_mul] at this
  rw [chunkLength]
  omega

theorem chunkLength_pos (h : 1 ≤ maxChunk) (hi : i < chunkCount maxChunk size) :
    1 ≤ chunkLength maxChunk size i := by
  have := (lt_chunkCount_iff h).mp hi
  rw [chunkLength]
  omega

/-- The chunks cover the transfer and nothing else: byte `p` lies in chunk `p / maxChunk`. -/
theorem lt_size_iff_covered (h : 1 ≤ maxChunk) : p < size ↔
    ∃ i, i < chunkCount maxChunk size ∧ i * maxChunk ≤ p ∧ p < i * maxChunk + chunkLength maxChunk size i := by
  constructor
  · intro hp
    have hle : p / maxChunk * maxChunk ≤ p := Nat.div_mul_le_self p maxChunk
    have hlt : p < p / maxChunk * maxChunk + maxChunk := Nat.lt_div_mul_add h
    refine ⟨p / maxChunk, (lt_chunkCount_iff h).mpr (hle.trans_lt hp), hle, ?_⟩
    rw [chunkLength]
    omega
  · rintro ⟨i, -, hle, hlt⟩
    rw [chunkLength] at hlt
    omega

theorem chunkMarker_eq {k : Nat} (hi : i < k) :
    chunkMarker i k = if i = k - 1 then 0xF3 else if i = 0 then 0xF1 else 0xF2 := by
  have hlast : i + 1 = k ↔ i = k - 1 := by omega
  simp only [chunkMarker, hlast]

/-- The command at the start of chunk `i` is in chunk `i`. -/
theorem Command.chunkIndex_of_offset {cfg : Config} {c : Command} (h : 1 ≤ cfg.maxChunk)
    (hoff : c.offset = i * cfg.maxChunk) : c.chunkIndex cfg = i := by
  rw [Command.chunkIndex, hoff, Nat.mul_div_cancel _ h]

end Sys2Proof.Machine

namespace Sys2Proof

open Machine

/-- Settles O14: all of it from one fact, that chunk `i` exists exactly when it starts inside the transfer. -/
theorem chunkCutting : Obligations.ChunkCutting := by
  intro maxChunk size h
  refine ⟨chunkCount_eq_zero_iff h, (chunkCount_bounds h).1, fun hsize => ?_, fun i => chunkLength_of_succ_lt h,
    fun hk => ?_, fun p => lt_size_iff_covered h, fun i => chunkMarker_eq, ?_⟩
  · have := (chunkCount_eq_zero_iff h).not.mpr hsize
    exact (lt_chunkCount_iff h).mp (by omega)
  · exact ⟨chunkLength_last h (by omega), chunkLength_pos h (by omega), min_le_left _ _⟩
  · rintro cfg c i rfl rfl hoff
    exact ⟨Command.chunkIndex_of_offset h hoff, Command.chunkLength_of_offset hoff⟩

end Sys2Proof
end

section
/-! How many byte times a transaction takes (`30_encoding.md` R57, R62, R64, R65): the payload bytes still to be
received and the response bytes still to be sent are a number of the state, which the work between two byte times
and the environment leave alone and every byte time lowers by one. -/

namespace Sys2Proof.Machine

open Claims

variable {s t : State} {c : Command} {i : Instr} {l : List Stimulus} {a : Addr} {n p r : Nat}

/-! ### What a transaction still has to receive and to send -/

/-- Bytes on the wire of `n` bytes of data cut into chunk frames: the data, and for each chunk its marker and its
checksum where checksums are on (R57, R65). -/
def chunkedLength (maxChunk : Nat) (crcEnabled : Bool) (n : Nat) : Nat :=
  n + chunkCount maxChunk n * (1 + crcEnabled.toNat)

theorem chunkedLength_zero {maxChunk : Nat} (h : 1 ≤ maxChunk) (crcEnabled : Bool) :
    chunkedLength maxChunk crcEnabled 0 = 0 := by
  rw [chunkedLength, chunkCount_zero h, Nat.zero_mul]

/-- The first chunk frame, and the rest. -/
theorem chunkedLength_step {maxChunk n : Nat} (h : 1 ≤ maxChunk) (hn : 0 < n) (crcEnabled : Bool) :
    chunkedLength maxChunk crcEnabled n =
      1 + min maxChunk n + crcEnabled.toNat + chunkedLength maxChunk crcEnabled (n - min maxChunk n) := by
  rw [chunkedLength, chunkedLength, chunkCount_step h hn, Nat.add_mul, Nat.one_mul]
  omega

/-- Bytes of the chunk frames of the command's transfer from its `offset` on. -/
def Command.chunksLeft (cfg : Config) (crcEnabled : Bool) (c : Command) : Nat :=
  chunkedLength cfg.maxChunk crcEnabled c.remaining

/-- Bytes of the chunk frames that a STREAM response has still to compose. -/
def Command.streamLeft (cfg : Config) (crcEnabled : Bool) (c : Command) : Nat :=
  if (decodeOp c.op).isStreamRead then c.chunksLeft cfg crcEnabled else 0

theorem Command.streamLeft_of_ended {cfg : Config} (hmax : 1 ≤ cfg.maxChunk) (hend : c.size.toNat ≤ c.offset)
    (crcEnabled : Bool) : c.streamLeft cfg crcEnabled = 0 := by
  rw [Command.streamLeft, Command.chunksLeft, Command.remaining, Nat.sub_eq_zero_of_le hend, chunkedLength_zero hmax,
    ite_self]

theorem Command.streamLeft_of_no_more {cfg : Config} (hmax : 1 ≤ cfg.maxChunk) (hmore : c.moreChunks = false)
    (crcEnabled : Bool) : c.streamLeft cfg crcEnabled = 0 := by
  cases hop : (decodeOp c.op).isStreamRead with
  | false => simp [Command.streamLeft, hop]
  | true => exact Command.streamLeft_of_ended hmax (by simpa [Command.moreChunks, hop] using hmore) crcEnabled

/-- Payload bytes still to be received. -/
def State.payloadLeft (s : State) : Nat :=
  match s.phase, s.cmd with
  | .execute, some c => c.chunksLeft s.cfg s.crcEnabled - c.intake.length
  | _, _ => 0

/-- Response bytes still to be sent; during the payload intake, the two of the ACK. -/
def State.responseLeft (s : State) : Nat :=
  match s.phase, s.cmd with
  | .execute, some _ => 2
  | .writeResponse, some c => c.txQueue.length + c.streamLeft s.cfg s.crcEnabled
  | _, _ => 0

theorem State.payloadLeft_execute (hp : s.phase = .execute) (hc : s.cmd = some c) :
    s.payloadLeft = c.chunksLeft s.cfg s.crcEnabled - c.intake.length := by simp only [State.payloadLeft, hp, hc]

theorem State.payloadLeft_writeResponse (hp : s.phase = .writeResponse) : s.payloadLeft = 0 := by
  simp only [State.payloadLeft, hp]

theorem State.responseLeft_execute (hp : s.phase = .execute) (hc : s.cmd = some c) : s.responseLeft = 2 := by
  simp only [State.responseLeft, hp, hc]

theorem State.responseLeft_writeResponse (hp : s.phase = .writeResponse) (hc : s.cmd = some c) :
    s.responseLeft = c.txQueue.length + c.streamLeft s.cfg s.crcEnabled := by
  simp only [State.responseLeft, hp, hc]

theorem State.left_awaitOpcode (hp : s.phase = .awaitOpcode) : s.payloadLeft = 0 ∧ s.responseLeft = 0 := by
  simp only [State.payloadLeft, State.responseLeft, hp, and_self]

/-- A transaction is under way, or just over, with `p` payload bytes to receive and `r` response bytes to send. -/
structure State.Due (s : State) (p r : Nat) : Prop where
  maxChunk : 1 ≤ s.cfg.maxChunk
  fits : s.cmdFits = true
  phase : s.phase ≠ .readParams
  payload : s.payloadLeft = p
  response : s.responseLeft = r

theorem State.cmdFits_execute (h : s.cmdFits = true) (hp : s.phase = .execute) (hc : s.cmd = some c) :
    c.offset < c.size.toNat := by
  simp only [State.cmdFits, hp, hc, Bool.and_eq_true, decide_eq_true_eq] at h
  exact h.1.2

/-- Where a transaction can stand between two byte times. -/
theorem State.cmdFits_underway (h : s.cmdFits = true) (hp : s.phase ≠ .awaitOpcode) (hp' : s.phase ≠ .readParams) :
    ∃ c, s.cmd = some c ∧ (s.phase = .execute ∧ c.offset < c.size.toNat ∨
      s.phase = .writeResponse ∧ (c.txQueue ≠ [] ∨ c.moreChunks = true)) := by
  have fits := h
  unfold State.cmdFits at h
  split at h
  · next h' _ => exact absurd h' hp
  · next h' _ => exact absurd h' hp'
  · next c h' hc => exact ⟨c, hc, .inl ⟨h', State.cmdFits_execute fits h' hc⟩⟩
  · next c h' hc => exact ⟨c, hc, .inr ⟨h', by simpa using h⟩⟩
  · cases h

/-! ### The environment and the work between two byte times -/

theorem State.Due.environment (h : s.Due p r) (e : EnvStep) : (s.environment e).Due p r := by
  obtain ⟨hmax, hfits, hp, hpayload, hresponse⟩ := h
  cases e <;> exact ⟨hmax, hfits, hp, hpayload, hresponse⟩

/-- One chunk frame, and the chunk frames of the transfer past that chunk. -/
theorem Command.chunksLeft_step {cfg : Config} (hmax : 1 ≤ cfg.maxChunk) (hlt : c.offset < c.size.toNat)
    (crcEnabled : Bool) : c.chunksLeft cfg crcEnabled = c.chunkFrameLength cfg crcEnabled +
      chunkedLength cfg.maxChunk crcEnabled (c.size.toNat - (c.offset + c.chunkLength cfg)) := by
  rw [← Nat.sub_sub]
  exact chunkedLength_step hmax (Nat.sub_pos_of_lt hlt) crcEnabled

theorem State.takeChunk_left (hmax : 1 ≤ s.cfg.maxChunk) (hp : s.phase = .execute) (hc : s.cmd = some c)
    (hlt : c.offset < c.size.toNat) (hlen : c.intake.length = c.chunkFrameLength s.cfg s.crcEnabled) :
    (s.takeChunk c).payloadLeft = s.payloadLeft ∧ (s.takeChunk c).responseLeft = s.responseLeft := by
  have hstep := Command.chunksLeft_step hmax hlt s.crcEnabled
  rw [State.payloadLeft_execute hp hc, State.responseLeft_execute hp hc, hlen]
  obtain ⟨m, evs, err, -, -, ⟨-, h⟩ | ⟨hend, h⟩⟩ := State.takeChunk_cases c s <;> rw [h]
  · rw [hstep, Nat.add_sub_cancel_left]
    simp [State.payloadLeft, State.responseLeft, hp, Command.chunksLeft, Command.remaining]
  · rw [Nat.sub_eq_zero_of_le hend, chunkedLength_zero hmax] at hstep
    simp [State.payloadLeft, State.responseLeft, hstep, Command.streamLeft_of_ended hmax, hend]

theorem State.sendChunk_left (hmax : 1 ≤ s.cfg.maxChunk) (hp : s.phase = .writeResponse) (hc : s.cmd = some c)
    (hq : c.txQueue = []) (hmore : c.moreChunks = true) :
    (s.sendChunk c).payloadLeft = s.payloadLeft ∧ (s.sendChunk c).responseLeft = s.responseLeft := by
  obtain ⟨hop, hlt⟩ : (decodeOp c.op).isStreamRead = true ∧ c.offset < c.size.toNat := by
    simpa [Command.moreChunks] using hmore
  rw [State.payloadLeft_writeResponse hp, State.responseLeft_writeResponse hp hc, hq, Command.streamLeft,
    if_pos hop, Command.chunksLeft_step hmax hlt, Command.chunkFrameLength]
  obtain ⟨d, evs, hd, -, -, h⟩ := State.sendChunk_eq c s
  rw [h]
  refine ⟨by simp [State.payloadLeft, hp], ?_⟩
  simp only [State.responseLeft, hp, Command.streamLeft, hop, if_true, Command.chunksLeft,
    Command.remaining, List.length_cons, List.length_append, List.length_nil, dataChecksum_length, hd]
  omega

/-- The work between two byte times moves bytes from the transfer to the composed response, or from the intake to
memory; what is still to cross the bus stays the same (R77). -/
theorem State.work_left (hmax : 1 ≤ s.cfg.maxChunk) (hfits : s.cmdFits = true) :
    s.work.payloadLeft = s.payloadLeft ∧ s.work.responseLeft = s.responseLeft := by
  rcases s.work_cases with h | ⟨c, hc, hp, hlen, h⟩ | ⟨c, hc, hp, hq, hmore, h⟩
  · rw [h]; exact ⟨rfl, rfl⟩
  · rw [h]
    exact State.takeChunk_left hmax hp hc (State.cmdFits_execute hfits hp hc) hlen
  · rw [h]
    exact State.sendChunk_left hmax hp hc hq hmore

theorem State.Due.work (h : s.Due p r) : s.work.Due p r := by
  obtain ⟨hpayload, hresponse⟩ := State.work_left h.maxChunk h.fits
  refine ⟨by simpa using h.maxChunk, (State.ready_work h.fits).1, ?_, hpayload.trans h.payload,
    hresponse.trans h.response⟩
  rcases s.work_phase with hp | ⟨-, hp⟩ <;> rw [hp]
  · exact h.phase
  · simp

/-! ### One byte time -/

/-- A payload that is not complete has room for a byte. -/
theorem Command.intake_lt_chunksLeft {cfg : Config} {crcEnabled : Bool} (hmax : 1 ≤ cfg.maxChunk)
    (hlt : c.offset < c.size.toNat) (hlen : c.intake.length < c.chunkFrameLength cfg crcEnabled) :
    c.intake.length < c.chunksLeft cfg crcEnabled := by
  rw [Command.chunksLeft_step hmax hlt]
  omega

/-- A byte time of the payload intake (R65). -/
theorem State.Due.receive (h : s.Due p r) (ready : s.Ready) (hp : s.phase = .execute) (hc : s.cmd = some c)
    (b : Byte) : ∃ p', p = p' + 1 ∧ (s.byteTime b).Due p' r ∧ (s.byteTime b).trace = s.trace ++ [.rx b] := by
  obtain ⟨hmax, hfits, -, rfl, rfl⟩ := h
  have hroom := Command.intake_lt_chunksLeft hmax (State.cmdFits_execute hfits hp hc) (ready.2.1 c hc hp)
  have fits := State.cmdFits_byteTime b ready
  have hb : s.byteTime b = { s.busRead b with cmd := some { c with intake := c.intake ++ [b] } } := by
    simp only [State.byteTime, hc, hp]
  rw [hb] at fits ⊢
  have hleft : s.payloadLeft = c.chunksLeft s.cfg s.crcEnabled - (c.intake ++ [b]).length + 1 := by
    rw [State.payloadLeft_execute hp hc, List.length_append, List.length_singleton]
    omega
  rw [State.responseLeft_execute hp hc]
  refine ⟨_, hleft, ⟨hmax, fits, by simp [hp], ?_, by simp [State.responseLeft, hp]⟩, rfl⟩
  simp [State.payloadLeft, hp, Command.chunksLeft, Command.remaining]

/-- A byte time of the response; the last of them ends the transaction (R74, R75). -/
theorem State.Due.send (h : s.Due p r) (ready : s.Ready) (hp : s.phase = .writeResponse) (hc : s.cmd = some c)
    (b : Byte) : ∃ r' x, r = r' + 1 ∧ (s.byteTime b).Due p r' ∧ (s.byteTime b).trace = s.trace ++ [.tx x] := by
  obtain ⟨hmax, hfits, -, rfl, rfl⟩ := h
  have fits := State.cmdFits_byteTime b ready
  obtain ⟨x, q, hq⟩ := List.exists_cons_of_ne_nil (ready.2.2 c hc hp)
  have hleft : s.responseLeft = q.length + c.streamLeft s.cfg s.crcEnabled + 1 := by
    rw [State.responseLeft_writeResponse hp hc, hq, List.length_cons]
    omega
  rw [State.payloadLeft_writeResponse hp]
  refine ⟨_, x, hleft, ?_⟩
  by_cases hend : q = [] ∧ c.moreChunks = false
  · obtain ⟨rfl, hmore⟩ := hend
    have hb : s.byteTime b = (s.busWrite x).finish := by simp [State.byteTime, hc, hp, hq, hmore]
    rw [hb] at fits ⊢
    rw [Command.streamLeft_of_no_more hmax hmore]
    obtain ⟨hpayload, hresponse⟩ := State.left_awaitOpcode (s.busWrite x).finish_phase
    exact ⟨⟨hmax, fits, by simp, hpayload, hresponse⟩, rfl⟩
  · have hb : s.byteTime b = { s.busWrite x with cmd := some { c with txQueue := q } } := by
      simp [State.byteTime, hc, hp, hq, hend]
    rw [hb] at fits ⊢
    refine ⟨⟨hmax, fits, by simp [hp], by simp [State.payloadLeft, hp], ?_⟩, rfl⟩
    simp [State.responseLeft, hp, Command.streamLeft, Command.chunksLeft, Command.remaining]

/-! ### The run to the end of the transaction -/

theorem State.Due.of_awaitOpcode (h : s.Due p r) (hp : s.phase = .awaitOpcode) : s.cmd = none ∧ p = 0 ∧ r = 0 := by
  obtain ⟨-, hfits, -, rfl, rfl⟩ := h
  refine ⟨?_, State.left_awaitOpcode hp⟩
  cases hc : s.cmd with
  | none => rfl
  | some c => simp [State.cmdFits, hp, hc] at hfits

/-- Something is to be received or to be sent until the transaction is over. -/
theorem State.Due.pos (h : s.Due p r) (hp : s.phase ≠ .awaitOpcode) : 0 < p + r := by
  obtain ⟨hmax, hfits, hread, rfl, rfl⟩ := h
  obtain ⟨c, hc, ⟨hp, -⟩ | ⟨hp, hq | hmore⟩⟩ := State.cmdFits_underway hfits hp hread
  · rw [State.responseLeft_execute hp hc]
    omega
  · have := List.length_pos_iff.mpr hq
    rw [State.responseLeft_writeResponse hp hc]
    omega
  · obtain ⟨hop, hlt⟩ : (decodeOp c.op).isStreamRead = true ∧ c.offset < c.size.toNat := by
      simpa [Command.moreChunks] using hmore
    have hleft := Command.chunksLeft_step hmax hlt s.crcEnabled
    rw [Command.chunkFrameLength] at hleft
    rw [State.responseLeft_writeResponse hp hc, Command.streamLeft, if_pos hop]
    omega

/-- From `s` a run against the schedule `l` ends in `t`, the transaction over, having received `p` bytes and sent
`r` in `p + r` byte times. -/
def State.Completes (s t : State) (l : List Stimulus) (p r : Nat) : Prop :=
  ∃ used evs, t.phase = .awaitOpcode ∧ t.cmd = none ∧ l = used ++ t.inbox ∧ byteTimes used = p + r ∧
    t.trace = s.trace ++ evs ∧ evs.countP isRx = p ∧ evs.countP isTx = r

theorem State.Due.completes_of_awaitOpcode (h : s.Due p r) (hp : s.phase = .awaitOpcode) (l : List Stimulus) :
    s.Completes (converse l s) l p r := by
  obtain ⟨hc, rfl, rfl⟩ := h.of_awaitOpcode hp
  rw [converse_finished hp hc]
  exact ⟨[], [], hp, hc, rfl, rfl, (List.append_nil _).symm, rfl, rfl⟩

/-- One more entry of the schedule in front, or none, and its events. -/
theorem State.Completes.cons {s' : State} {first : List Stimulus} {evs : List Event} (h : s'.Completes t l p r)
    (htrace : s'.trace = s.trace ++ evs) (hfirst : byteTimes first = evs.countP isRx + evs.countP isTx) :
    s.Completes t (first ++ l) (evs.countP isRx + p) (evs.countP isTx + r) := by
  obtain ⟨used, evs', hp, hc, rfl, hused, htrace', rfl, rfl⟩ := h
  refine ⟨first ++ used, evs ++ evs', hp, hc, (List.append_assoc ..).symm, ?_,
    by rw [htrace', htrace, List.append_assoc], List.countP_append, List.countP_append⟩
  rw [byteTimes, List.countP_append]
  rw [byteTimes] at hused hfirst
  omega

/-- Events that move no byte on the bus. -/
theorem countP_of_silent {evs : List Event} (h : ∀ e ∈ evs, ∀ b, e ≠ .rx b ∧ e ≠ .tx b) :
    evs.countP isRx = 0 ∧ evs.countP isTx = 0 := by
  refine ⟨List.countP_eq_zero.mpr fun e he hrx => ?_, List.countP_eq_zero.mpr fun e he htx => ?_⟩
  · cases e with
    | rx b => exact (h _ he b).1 rfl
    | _ => cases hrx
  · cases e with
    | tx b => exact (h _ he b).2 rfl
    | _ => cases htx

theorem State.work_trace (s : State) :
    ∃ evs, s.work.trace = s.trace ++ evs ∧ evs.countP isRx = 0 ∧ evs.countP isTx = 0 := by
  obtain ⟨_, _, _, evs, h, -, -, -, -, silent⟩ := s.work_frame
  exact ⟨evs, by rw [h], countP_of_silent silent⟩

/-- One entry of the schedule: as many byte times as bytes received and sent, and these are no longer due. -/
theorem State.Due.respondTo (h : s.Due p r) (hp : s.phase ≠ .awaitOpcode) (st : Stimulus) :
    ∃ p' r' evs, (s.respondTo st).Due p' r' ∧ (s.respondTo st).trace = s.trace ++ evs ∧
      byteTimes [st] = evs.countP isRx + evs.countP isTx ∧
      p = evs.countP isRx + p' ∧ r = evs.countP isTx + r' := by
  obtain ⟨evs, htrace, hrx, htx⟩ := s.work_trace
  cases st with
  | env e => exact ⟨p, r, [], h.environment e, by simp [State.respondTo], rfl, by simp, by simp⟩
  | turn => exact ⟨p, r, evs, h.work, htrace, by rw [hrx, htx]; rfl, by simp [hrx], by simp [htx]⟩
  | clock b =>
    have hwork : s.work.phase ≠ .awaitOpcode := by
      rcases s.work_phase with h' | ⟨-, h'⟩ <;> simp [h', hp]
    have ready := State.ready_work h.fits
    obtain ⟨c, hc, ⟨hp, -⟩ | ⟨hp, -⟩⟩ := State.cmdFits_underway h.work.fits hwork h.work.phase
    · obtain ⟨p', rfl, hdue, htrace'⟩ := h.work.receive ready hp hc b
      exact ⟨p', r, evs ++ [.rx b], hdue, by rw [State.respondTo, htrace', htrace, List.append_assoc],
        by simp [hrx, htx, byteTimes, isRx, isTx], by simp [hrx, isRx, Nat.add_comm], by simp [htx, isTx]⟩
    · obtain ⟨r', x, rfl, hdue, htrace'⟩ := h.work.send ready hp hc b
      exact ⟨p, r', evs ++ [.tx x], hdue, by rw [State.respondTo, htrace', htrace, List.append_assoc],
        by simp [hrx, htx, byteTimes, isRx, isTx], by simp [hrx, isRx], by simp [htx, isTx, Nat.add_comm]⟩

/-- A schedule with the byte times that are due ends the transaction. -/
theorem converse_completes (h : s.Due p r) (hl : p + r ≤ byteTimes l) : s.Completes (converse l s) l p r := by
  induction l generalizing s p r with
  | nil =>
    refine h.completes_of_awaitOpcode (by_contra fun hp => ?_) []
    exact absurd hl (Nat.not_le_of_lt (h.pos hp))
  | cons st l ih =>
    by_cases hp : s.phase = .awaitOpcode
    · exact h.completes_of_awaitOpcode hp _
    · obtain ⟨p', r', evs, hdue, htrace, hst, rfl, rfl⟩ := h.respondTo hp st
      have hsplit : byteTimes (st :: l) = byteTimes [st] + byteTimes l := List.countP_append (l₁ := [st])
      rw [converse, if_neg hp]
      exact (ih hdue (by omega)).cons htrace hst

/-! ### The Execute part -/

theorem Command.streamLeft_of_not_read (hop : (decodeOp c.op).isStreamRead = false) (cfg : Config)
    (crcEnabled : Bool) : c.streamLeft cfg crcEnabled = 0 := by
  simp [Command.streamLeft, hop]

theorem State.responseLeft_respond (s : State) (c : Command) (st : Byte) (d : List Byte) :
    (s.respond c st d).responseLeft = d.length + 2 + c.streamLeft s.cfg s.crcEnabled := rfl

theorem State.responseLeft_respondZero (s : State) (c : Command) (n : Nat) :
    (s.respondZero c n).responseLeft = n + c.streamLeft s.cfg s.crcEnabled := by
  change (zeros n).length + c.streamLeft s.cfg s.crcEnabled = _
  rw [List.length_replicate]

/-- A WORD response (R57). -/
theorem State.responseLeft_respondWord (hop : (decodeOp c.op).isStreamRead = false) (s : State) (st : Byte)
    {d : List Byte} (hd : d.length = 4) : (s.respondWord c st d).responseLeft = 7 + s.crcEnabled.toNat := by
  rw [respondWord_eq, State.responseLeft_respond, Command.streamLeft_of_not_read hop, List.length_cons,
    List.length_append, dataChecksum_length, hd]
  omega

theorem wordRead_responseLeft (hop : (decodeOp c.op).isStreamRead = false) (s : State) :
    (wordRead c s).responseLeft = 7 + s.crcEnabled.toNat := by
  rcases wordRead_cases c s with ⟨-, h⟩ | ⟨-, -, -, h⟩ | ⟨-, -, d, hd, h⟩ | ⟨-, -, -, h⟩ <;> rw [h]
  · rw [State.responseLeft_respondZero, Command.streamLeft_of_not_read hop, Nat.add_zero]
  · exact State.responseLeft_respondWord hop _ _ rfl
  · exact State.responseLeft_respondWord hop _ _ (Memory.read_length hd)
  · exact State.responseLeft_respondWord hop _ _ rfl

theorem wordWrite_responseLeft (hop : (decodeOp c.op).isStreamRead = false) (s : State) :
    (wordWrite c s).responseLeft = 2 := by
  rcases wordWrite_cases c s with ⟨-, h⟩ | ⟨-, -, h⟩ | ⟨-, -, m, -, q, evs, h, -⟩ | ⟨-, -, -, h⟩ <;>
    rw [h, State.responseLeft_respond, Command.streamLeft_of_not_read hop] <;> rfl

theorem streamRead_responseLeft (hmax : 1 ≤ s.cfg.maxChunk) (hop : (decodeOp c.op).isStreamRead = true) :
    (streamRead c s).responseLeft = 2 + chunkedLength s.cfg.maxChunk s.crcEnabled c.size.toNat := by
  have hall : Command.streamLeft s.cfg s.crcEnabled { c with offset := 0 } =
      chunkedLength s.cfg.maxChunk s.crcEnabled c.size.toNat := if_pos hop
  rcases streamRead_cases c s with ⟨-, h⟩ | ⟨-, -, h⟩ | ⟨-, -, h⟩ <;> rw [h]
  · have hnone : Command.streamLeft s.cfg s.crcEnabled { c with offset := c.size.toNat } = 0 :=
      Command.streamLeft_of_ended hmax le_rfl _
    rw [State.responseLeft_respondZero, State.raise_cfg, State.raise_crcEnabled, hnone, chunkedLength]
    omega
  all_goals exact congrArg (2 + ·) hall

/-- The payload of a DMA write is due, and the two bytes of its ACK. -/
theorem streamWrite_left (hmax : 1 ≤ s.cfg.maxChunk) (hp : s.phase = .execute)
    (hop : (decodeOp c.op).isStreamRead = false) :
    (streamWrite c s).payloadLeft = chunkedLength s.cfg.maxChunk s.crcEnabled c.size.toNat ∧
      (streamWrite c s).responseLeft = 2 := by
  obtain ⟨evs, -, ⟨hsize, h⟩ | ⟨-, h⟩⟩ := streamWrite_cases c s <;> rw [h]
  · rw [hsize, chunkedLength_zero hmax, State.responseLeft_respond, Command.streamLeft_of_not_read (by exact hop)]
    exact ⟨rfl, rfl⟩
  · simp [State.payloadLeft, State.responseLeft, hp, Command.chunksLeft, Command.remaining]

theorem executed_left_of_dmaRead (hd : DmaReadOf a n i) (hmax : 1 ≤ s.cfg.maxChunk) :
    (streamRead (s.load i) (s.begun i)).payloadLeft = 0 ∧
      (streamRead (s.load i) (s.begun i)).responseLeft = responseLength s.cfg s.crcEnabled i := by
  obtain ⟨-, hsize, hop⟩ := load_of_dmaRead (s := s) hd
  refine ⟨State.payloadLeft_writeResponse streamRead_phase, ?_⟩
  rw [streamRead_responseLeft (s := s.begun i) hmax hop, responseLength_of_dmaRead hd, hsize, chunkedLength,
    Nat.add_assoc]

theorem executed_left_of_dmaWrite (hd : DmaWriteOf a n i) (hmax : 1 ≤ s.cfg.maxChunk) :
    (streamWrite (s.load i) (s.begun i)).payloadLeft = payloadLength s.cfg s.crcEnabled i ∧
      (streamWrite (s.load i) (s.begun i)).responseLeft = 2 := by
  have hsize : (s.load i).size.toNat = n := operandSize_of_dmaWrite hd
  have hop : (decodeOp (s.load i).op).isStreamRead = false := by
    rcases hd with ⟨size, crc, rfl, -⟩ | ⟨size, crc, rfl, -⟩ <;> rfl
  obtain ⟨hpayload, hresponse⟩ := streamWrite_left (s := s.begun i) hmax rfl hop
  refine ⟨hpayload.trans ?_, hresponse⟩
  rw [hsize]
  rcases hd with ⟨size, crc, rfl, rfl⟩ | ⟨size, crc, rfl, rfl⟩ <;> rfl

/-- After its Execute part a command has its payload to receive and its response to send. -/
theorem executed_left (s : State) (hi : i ≠ .idleSkip) (hmax : 1 ≤ s.cfg.maxChunk) :
    (s.executed i).payloadLeft = payloadLength s.cfg s.crcEnabled i ∧
      (s.executed i).responseLeft = responseLength s.cfg s.crcEnabled i := by
  unfold State.executed
  cases i
  case idleSkip => exact absurd rfl hi
  case reset | terminate | repeatCmd | unknown =>
    exact ⟨rfl, congrArg (2 + ·) (Command.streamLeft_of_ended hmax le_rfl _)⟩
  case singleRead | internalRead =>
    exact ⟨State.payloadLeft_writeResponse wordRead_phase, wordRead_responseLeft rfl _⟩
  case singleWrite | internalWrite =>
    exact ⟨State.payloadLeft_writeResponse wordWrite_phase, wordWrite_responseLeft rfl _⟩
  case dmaRead a n crc => exact executed_left_of_dmaRead (.inl ⟨n, crc, rfl, rfl⟩) hmax
  case dmaExtRead a n crc => exact executed_left_of_dmaRead (.inr ⟨n, crc, rfl, rfl⟩) hmax
  case dmaWrite a n crc => exact executed_left_of_dmaWrite (.inl ⟨n, crc, rfl, rfl⟩) hmax
  case dmaExtWrite a n crc => exact executed_left_of_dmaWrite (.inr ⟨n, crc, rfl, rfl⟩) hmax

/-- The Execute part moves no byte on the bus. -/
theorem executed_trace (s : State) (hi : i ≠ .idleSkip) :
    ∃ evs, (s.executed i).trace = s.trace ++ evs ∧ evs.countP isRx = 0 ∧ evs.countP isTx = 0 := by
  obtain ⟨_, _, _, _, _, _, evs, h, -, -, -, -, silent⟩ :=
    executePart_frame (c := s.load i) (s := s.begun i) (executePart_eq_executionOf hi) rfl
  exact ⟨evs, by rw [State.executed, h], countP_of_silent silent⟩

theorem executed_due (hi : i ≠ .idleSkip) (hmax : 1 ≤ s.cfg.maxChunk) :
    (s.executed i).Due (payloadLength s.cfg s.crcEnabled i) (responseLength s.cfg s.crcEnabled i) := by
  have hpart := executePart_eq_executionOf hi
  have hcfg : (s.executed i).cfg = s.cfg := (executePart_frame (c := s.load i) (s := s.begun i) hpart rfl).keepsPast.1
  obtain ⟨hpayload, hresponse⟩ := executed_left s hi hmax
  refine ⟨by rwa [hcfg], executePart_cmdFits hpart rfl rfl, ?_, hpayload, hresponse⟩
  rcases executionOf_phase (s.load i) hi (s := s.begun i) rfl with h | ⟨-, h⟩ <;> rw [State.executed, h] <;> simp

/-- Every command completes, given the byte times of its payload and its response. -/
theorem exec_completes (s : State) (i : Instr) (hmax : 1 ≤ s.cfg.maxChunk)
    (hl : conversationLength s.cfg s.crcEnabled i ≤ byteTimes s.inbox) :
    ∃ t, exec i s = .next t ∧
      s.Completes t s.inbox (payloadLength s.cfg s.crcEnabled i) (responseLength s.cfg s.crcEnabled i) := by
  by_cases hi : i = .idleSkip
  · subst hi
    exact ⟨s.finish, rfl, [], [], rfl, rfl, rfl, rfl, (List.append_nil _).symm, rfl, rfl⟩
  · obtain ⟨evs, htrace, hrx, htx⟩ := executed_trace s hi
    have run := (converse_completes (executed_due hi hmax) hl).cons (first := []) htrace (by rw [hrx, htx]; rfl)
    rw [hrx, htx, Nat.zero_add, Nat.zero_add] at run
    exact ⟨_, exec_eq_converse s hi, run⟩

end Sys2Proof.Machine

namespace Sys2Proof

open Machine

/-- Settles O23: the bytes due after the Execute part are those of the payload and the response, and each byte time
takes one of them off. -/
theorem framingInvariance : Obligations.FramingInvariance := by
  rintro i s ⟨-, hmax, -⟩ hl
  obtain ⟨t, hexec, used, evs, hp, hc, hin, hused, htrace, hrx, htx⟩ := exec_completes s i hmax hl
  exact ⟨t, used, evs, hexec, hp, hc, hin, hused, htrace, hrx, htx⟩

end Sys2Proof
end

section
/-! Which commands are good (`41_crc_validator.md` R89, R91): the checksum byte of a frame against the checksum of all
bytes before it, the opcode first. -/

namespace Sys2Proof.Machine

open Claims

variable {s : State} {i : Instr}

theorem isReadWrite_of_control (h : Control i) : i.isReadWrite = false := by
  rcases h with rfl | rfl | rfl | rfl | ⟨op, rfl⟩ <;> rfl

/-- The registers a meaning begins with hold whether the command is good (R72). -/
theorem load_cmdCrcOk_iff (s : State) (i : Instr) : (s.load i).cmdCrcOk = true ↔ CommandGood s i := Iff.rfl

theorem commandGood_off (h : s.crcEnabled = false) (i : Instr) : CommandGood s i := by
  rw [CommandGood, h]
  exact commandCrcOk_off s.cfg i

/-- With checksums on, the checksum byte of a read/write command is compared with the checksum of the bytes of its
frame before it. -/
theorem commandGood_iff {rx : Byte} {bytes : List Byte} (h : s.crcEnabled = true) (hi : i.isReadWrite = true)
    (hrx : i.crc = some rx) (hbody : i.body = bytes) :
    CommandGood s i ↔ compute s.cfg.crcTable s.cfg.crcSeed bytes = rx := by
  rw [CommandGood, h, ← hbody]
  exact commandCrcOk_checked hi hrx

end Sys2Proof.Machine

namespace Sys2Proof

open Machine

/-- Settles O52: only read/write commands are checked, and the bytes their checksum covers are the operands put back
in wire order, behind the opcode. -/
theorem commandChecksumIsVerified : Obligations.CommandChecksumIsVerified := by
  refine ⟨load_cmdCrcOk_iff, fun s i h => commandGood_off h i,
    fun s i h => commandCrcOk_control (isReadWrite_of_control h), fun s a2 a1 a0 x2 x1 x0 d0 d1 d2 d3 rx h => ?_⟩
  refine ⟨?_, ?_, ?_, ?_, ?_, ?_, ?_, ?_⟩ <;> exact commandGood_iff h rfl rfl (by simp [Instr.body])

end Sys2Proof
end

section
/-! A whole command frame clocked in one go (`40_protocol_fsm.md` R70 to R72): the step is the meaning of the command
it decodes to, at the state in which its bytes have been received. -/

namespace Sys2Proof.Machine

open Claims

variable {s : State} {c : Command} {i : Instr} {ctx : FrameContext} {op : Byte} {params : List Byte}
  {rest : List Stimulus}

/-- A frame of format U is its opcode and dummy bytes. -/
theorem cmdBytes_of_formatU (h : (decodeOp i.opcode).format = .U) : i.cmdBytes = [i.opcode] := by
  cases i
  case terminate | repeatCmd | reset | unknown | idleSkip => rfl
  all_goals cases h

/-- A byte list that is one command frame and nothing more, its opcode byte set apart. -/
theorem decode_cons (h : decode ctx (op :: params) = .ok (i, [])) :
    WellFormed ctx i = true ∧ i.opcode = op ∧
      ∃ dummies, dummies.length = i.dummies ctx ∧ op :: params = i.cmdBytes ++ dummies := by
  obtain ⟨hwf, dummies, hdummies, hbytes⟩ := decode_eq_ok.mp h
  rw [List.append_nil] at hbytes
  have hop : i.opcode = op := by
    simpa [List.head?_append, i.cmdBytes_head] using (congrArg List.head? hbytes).symm
  exact ⟨hwf, hop, dummies, hdummies, hbytes⟩

theorem frameLength_of_decode (h : decode ctx (op :: params) = .ok (i, [])) :
    1 + params.length = frameLength ctx op := by
  obtain ⟨hwf, rfl, dummies, hdummies, hbytes⟩ := decode_cons h
  rw [← frame_length hwf hdummies, ← hbytes, List.length_cons, Nat.add_comm]

/-- The registers once the frame `op :: params` has been received (R72). -/
def receivedFrame (op : Byte) (params : List Byte) : Command :=
  if (decodeOp op).format = .U then { Command.start op with drained := params.length }
  else { Command.start op with cmdBytes := op :: params }

@[simp] theorem receivedFrame_op (op : Byte) (params : List Byte) : (receivedFrame op params).op = op := by
  unfold receivedFrame
  split_ifs <;> rfl

theorem receivedFrame_length (op : Byte) (params : List Byte) :
    (receivedFrame op params).cmdBytes.length + (receivedFrame op params).drained = 1 + params.length := by
  unfold receivedFrame
  split_ifs <;> simp [Command.start, Nat.add_comm]

/-- What the registers keep of a frame decodes as the frame did: the values of dummy bytes do not matter (R60). -/
theorem decode_receivedFrame (h : decode ctx (op :: params) = .ok (i, [])) :
    decode ctx (receivedFrame op params).frame = .ok (i, []) := by
  by_cases hu : (decodeOp op).format = .U
  · obtain ⟨hwf, rfl, dummies, hdummies, hbytes⟩ := decode_cons h
    have hkept := cmdBytes_of_formatU hu
    obtain rfl : params = dummies := by simpa [hkept] using hbytes
    have hframe : (receivedFrame i.opcode params).frame = i.cmdBytes ++ zeros params.length ++ [] := by
      simp [receivedFrame, Command.frame, Command.start, hu, hkept]
    rw [hframe]
    exact decode_frame hwf (List.length_replicate.trans hdummies)
  · have hframe : (receivedFrame op params).frame = op :: params := by
      simp [receivedFrame, Command.frame, Command.start, hu]
    rw [hframe, h]

/-- `s` once `bytes` have been clocked in: they are in the trace, and the line is released (R8). -/
abbrev State.receiving (s : State) (bytes : List Byte) : State :=
  { s with respOe := false, trace := s.trace ++ receives bytes }

theorem fetch_opcode (hc : s.cmd = none) (b : Byte) (l : List Stimulus) :
    fetch (.clock b :: l) s = fetch l (s.receiveOpcode b) := by
  have hn : s.frameComplete = false := by simp only [State.frameComplete, hc]
  simp only [fetch, hn, Bool.false_eq_true, if_false, State.receive, hc]

/-- Fetching a whole frame takes exactly its byte times off the schedule. -/
theorem fetch_frame (hc : s.cmd = none) (hlen : 1 + params.length = frameLength s.frameContext op)
    (rest : List Stimulus) :
    fetch (clocks (op :: params) ++ rest) s = { s.receiving (op :: params) with
      phase := (s.receiveOpcode op).phase, cmd := some (receivedFrame op params), inbox := rest } := by
  have opcode := fetch_opcode hc op (clocks params ++ rest)
  have others := fetch_params (s := s.receiveOpcode op) (c := Command.start op) (bytes := params) (rest := rest) rfl rfl
    hlen
  refine opcode.trans (others.trans ?_)
  simp [State.receiveOpcode, State.busRead, State.drive, State.emit, receivedFrame, Command.start, receives]

theorem State.frameComplete_iff (hc : s.cmd = some c) :
    s.frameComplete = true ↔ c.cmdBytes.length + c.drained = frameLength s.frameContext c.op := by
  simp [State.frameComplete, hc]

/-- Once the frame is complete, the environment steps before the Execute part are taken and its command is run. -/
theorem fetchAndRun_of_frame (hf : (fetch s.inbox s).frameComplete = true) (hc : (fetch s.inbox s).cmd = some c)
    {r : List Byte} (hd : decode s.frameContext c.frame = .ok (i, r)) :
    fetchAndRun s = exec i (settleEnvironment (fetch s.inbox s).inbox (fetch s.inbox s)) := by
  have hrun : runFrame (settleEnvironment (fetch s.inbox s).inbox (fetch s.inbox s)) =
      exec i (settleEnvironment (fetch s.inbox s).inbox (fetch s.inbox s)) :=
    runFrame_of_decode (c := c) (l := r) (by rw [settleEnvironment_cmd, hc])
      (by simpa [State.frameContext] using hd)
  simp only [fetchAndRun, hf, if_true, hrun]

theorem fetchAndRun_frame (hc : s.cmd = none) (hin : s.inbox = clocks (op :: params) ++ rest)
    (hd : decode s.frameContext (op :: params) = .ok (i, [])) :
    fetchAndRun s = exec i (settleEnvironment rest (s.receiving (op :: params))) := by
  have hlen := frameLength_of_decode hd
  have fetched := fetch_frame hc hlen rest
  rw [← hin] at fetched
  have complete : (fetch s.inbox s).frameComplete = true := by
    rw [fetched, State.frameComplete_iff (c := receivedFrame op params) rfl, receivedFrame_length, receivedFrame_op]
    exact hlen
  rw [fetchAndRun_of_frame complete (by rw [fetched]) (decode_receivedFrame hd), fetched,
    settleEnvironment_with, exec_with_phase_cmd]

end Sys2Proof.Machine

namespace Sys2Proof

open Machine

/-- Settles O15: the fetch takes the byte times of the frame and keeps what the decoder needs of it, and a meaning
sees neither the phase nor the registers that the fetch leaves. -/
theorem stepRunsTheDecodedFrame : Obligations.StepRunsTheDecodedFrame := by
  intro s bytes rest i ha hp hc hin hd
  rw [step_awaitOpcode ha hp hc]
  cases bytes with
  | nil => cases hd
  | cons op params => exact fetchAndRun_frame hc hin hd

end Sys2Proof
end

section
/-! The transport loop goes on from every coherent state (`40_protocol_fsm.md` R75, `60_exceptions.md` R158), and waits
in its bus primitive while the master clocks nothing (R76, R77). -/

namespace Sys2Proof.Machine

variable {s : State} {c : Command}

/-! ### Where a coherent machine stands -/

/-- The block is at its opcode byte or receives a frame. -/
abbrev State.AtFrame (s : State) : Prop :=
  s.phase = .awaitOpcode ∧ s.cmd = none ∨ s.phase = .readParams ∧ s.cmd ≠ none

/-- A transaction is under way. -/
abbrev State.InTransaction (s : State) : Prop := (s.phase = .execute ∨ s.phase = .writeResponse) ∧ s.cmd ≠ none

theorem State.atFrame_or_inTransaction (h : s.cmdFits = true) : s.AtFrame ∨ s.InTransaction := by
  unfold State.cmdFits at h
  split at h
  · next hp hc => exact .inl (.inl ⟨hp, hc⟩)
  · next c hp hc => exact .inl (.inr ⟨hp, by simp [hc]⟩)
  · next c hp hc => exact .inr ⟨.inl hp, by simp [hc]⟩
  · next c hp hc => exact .inr ⟨.inr hp, by simp [hc]⟩
  · cases h

theorem step_atFrame (ha : s.cfg.Admissible) (h : s.AtFrame) : step s = fetchAndRun s := by
  rcases h with ⟨hp, hc⟩ | ⟨hp, hc⟩
  · exact step_awaitOpcode ha hp hc
  · obtain ⟨c, hc⟩ := Option.ne_none_iff_exists'.mp hc
    unfold step
    rw [if_pos ha, hp, hc]

/-! ### Progress -/

theorem exec_goesOn (i : Instr) (s : State) : ∃ t, exec i s = .next t := by
  rw [exec_eq]
  cases executePart i with
  | none => exact ⟨_, rfl⟩
  | some f => exact ⟨_, rfl⟩

/-- The first byte kept of a frame is its opcode (R70). -/
def State.KeepsOpcode (s : State) : Prop := ∀ c, s.cmd = some c → c.cmdBytes.head? = some c.op

theorem Command.param_head (h : c.cmdBytes.head? = some c.op) (b : Byte) :
    (c.param b).cmdBytes.head? = some c.op := by
  unfold Command.param
  split_ifs
  · exact h
  · simp [List.head?_append, h]

theorem State.KeepsOpcode.receive (h : s.KeepsOpcode) (st : Stimulus) : (s.receive st).KeepsOpcode := by
  rcases s.receive_cases st with ⟨b, -, -, e⟩ | ⟨b, c, -, hc, e⟩ | ⟨x, -, e⟩ | ⟨-, e⟩ <;> rw [e]
  · rintro _ ⟨⟩
    rfl
  · rintro _ ⟨⟩
    exact (Command.param_head (h c hc) b).trans (congrArg some (c.param_op b).symm)
  · exact fun c hc => h c (by simpa using hc)
  · exact h

theorem fetch_keepsOpcode (h : s.KeepsOpcode) (l : List Stimulus) : (fetch l s).KeepsOpcode :=
  fetch_induction (P := State.KeepsOpcode) (fun _ _ h => h) (fun _ st _ h => h.receive st) l h

theorem State.AtFrame.keepsOpcode (h : s.AtFrame) (hfits : s.cmdFits = true) : s.KeepsOpcode := by
  intro c hc
  rcases h with ⟨-, hc'⟩ | ⟨hp, -⟩
  · rw [hc] at hc'
    cases hc'
  · exact ((State.cmdFits_readParams hp hc).mp hfits).1.head

/-- A complete frame is decoded, whatever its bytes (R60). -/
theorem State.KeepsOpcode.decodes (h : s.KeepsOpcode) (hf : s.frameComplete = true) :
    ∃ c i, s.cmd = some c ∧ decode s.frameContext c.frame = .ok (i, []) := by
  cases hc : s.cmd with
  | none => simp [State.frameComplete, hc] at hf
  | some c =>
    obtain ⟨params, hbytes⟩ : ∃ params, c.cmdBytes = c.op :: params := List.head?_eq_some_iff.mp (h c hc)
    have hlen : 1 + (params ++ zeros c.drained).length = frameLength s.frameContext c.op := by
      rw [State.frameComplete_iff hc, hbytes, List.length_cons] at hf
      rw [List.length_append, List.length_replicate]
      omega
    obtain ⟨i, hd, -⟩ := decode_of_length (rest := []) hlen
    exact ⟨c, i, rfl, by simpa [Command.frame, hbytes] using hd⟩

theorem fetchAndRun_goesOn (h : s.KeepsOpcode) : ∃ t, fetchAndRun s = .next t := by
  by_cases hf : (fetch s.inbox s).frameComplete = true
  · obtain ⟨c, i, hc, hd⟩ := (fetch_keepsOpcode h s.inbox).decodes hf
    rw [fetchAndRun_of_frame hf hc (by simpa [State.frameContext] using hd)]
    exact exec_goesOn i _
  · exact ⟨_, by rw [fetchAndRun, if_neg hf]⟩

theorem step_goesOn (ha : s.cfg.Admissible) (h : s.Inv) : s.goesOn := by
  obtain ⟨-, hfits⟩ := State.inv_iff.mp h
  rcases State.atFrame_or_inTransaction hfits with hframe | ⟨hp, hc⟩
  · rw [State.goesOn, step_atFrame ha hframe]
    exact fetchAndRun_goesOn (hframe.keepsOpcode hfits)
  · exact ⟨_, step_transaction ha hp hc⟩

/-! ### Waiting -/

/-- A frame that is still being received is not complete. -/
theorem State.AtFrame.not_frameComplete (h : s.AtFrame) (hfits : s.cmdFits = true) : s.frameComplete = false := by
  rcases h with ⟨-, hc⟩ | ⟨hp, hc⟩
  · simp only [State.frameComplete, hc]
  · obtain ⟨c, hc⟩ := Option.ne_none_iff_exists'.mp hc
    exact (State.frameComplete_eq_false hc).mpr ((State.cmdFits_readParams hp hc).mp hfits).2.ne

/-- While a frame is received no internal work is pending. -/
theorem State.AtFrame.work (h : s.AtFrame) : s.work = s := by
  rcases s.work_cases with e | ⟨c, -, hp, -⟩ | ⟨c, -, hp, -⟩
  · exact e
  all_goals simp [State.AtFrame, hp] at h

/-- With an empty schedule a step is the internal work that is pending, and nothing else (R76, R77). -/
theorem step_of_empty_inbox (ha : s.cfg.Admissible) (h : s.Inv) (hin : s.inbox = []) : step s = .next s.work := by
  obtain ⟨-, hfits⟩ := State.inv_iff.mp h
  rcases State.atFrame_or_inTransaction hfits with hframe | ⟨hp, hc⟩
  · have fetched : fetch s.inbox s = s := by rw [hin, fetch, ← hin]
    rw [step_atFrame ha hframe, fetchAndRun, fetched, hframe.work]
    simp only [hframe.not_frameComplete hfits, Bool.false_eq_true, if_false]
  · have unread : { s.work with inbox := [] } = s.work := by rw [← hin, ← s.work_inbox]
    rw [step_transaction ha hp hc, hin, converse, unread]

end Sys2Proof.Machine

namespace Sys2Proof

open Machine

/-- Settles O19: a frame that is complete has the length its opcode says, so it decodes; every meaning goes on, and so
does a transaction that is taken up again. -/
theorem transportLoopGoesOn : Obligations.TransportLoopGoesOn :=
  fun _ ha h => step_goesOn ha h

/-- Settles O16: the step does the pending work, after which none is pending, and the work moves no byte. -/
theorem stepWaitsForTheMaster : Obligations.StepWaitsForTheMaster := by
  intro s t h hin hs
  obtain ⟨ha, -⟩ := step_next hs
  obtain rfl : s.work = t := Host.Outcome.next.inj ((step_of_empty_inbox ha h hin).symm.trans hs)
  have idle : s.work.work = s.work := State.work_of_ready (State.ready_work (State.inv_iff.mp h).2)
  have again : step s.work = .next s.work := by
    rw [step_of_empty_inbox (s.work_cfg.symm ▸ ha) h.work (s.work_inbox.trans hin), idle]
  obtain ⟨evs, htrace, hrx, htx⟩ := s.work_trace
  refine ⟨again, evs, htrace, fun e he => ⟨?_, ?_⟩⟩
  · exact Bool.eq_false_of_not_eq_true (List.countP_eq_zero.mp hrx e he)
  · exact Bool.eq_false_of_not_eq_true (List.countP_eq_zero.mp htx e he)

end Sys2Proof
end

section
/-! The CRC Validator (`41_crc_validator.md`): the checksum is a fold over its bytes (R85), and the two entries of the
reference table that are equal give two bodies of one checksum (R88). -/

namespace Sys2Proof.Machine

variable (table : Vector Byte 256) (seed : Byte)

/-- The first byte of a list picks the table entry from which the rest goes on (R85). -/
theorem compute_cons (b : Byte) (bytes : List Byte) :
    compute table seed (b :: bytes) = compute table (table[(seed ^^^ b).toNat]'((seed ^^^ b).isLt)) bytes := rfl

theorem compute_append (xs ys : List Byte) :
    compute table seed (xs ++ ys) = compute table (compute table seed xs) ys :=
  List.foldl_append

/-- An entry of the reference table is the recipe of R86 run on its index. -/
theorem referenceTable_getElem (i : Nat) (hi : i < 256) :
    referenceTable[i] = crcTableEntry (BitVec.ofNat 8 i) := by
  simp [referenceTable]

/-- The reference table is not injective (R88). -/
theorem referenceTable_collision : referenceTable[0x00] = 0x00 ∧ referenceTable[0x89] = 0x00 := by
  rw [referenceTable_getElem, referenceTable_getElem]
  decide

end Sys2Proof.Machine

namespace Sys2Proof

open Machine

/-- Settles O9: `compute` is a left fold. -/
theorem checksumFoldsOverBytes : Obligations.ChecksumFoldsOverBytes :=
  fun table seed => ⟨rfl, compute_cons table seed, compute_append table seed⟩

/-- Settles O10: a frame has at most one good checksum byte. The two bodies of R88 look up the entries 0x00 and 0x89,
`0xFE xor 0xFE` and `0xFE xor 0x77`. -/
theorem verifyComparesTheChecksum : Obligations.VerifyComparesTheChecksum := by
  obtain ⟨first, second⟩ := referenceTable_collision
  refine ⟨verify_append, fun cfg bytes => (verify_append cfg bytes _).mpr rfl, fun cfg body rx rx' hrx hne => ?_,
    first, second, first, second⟩
  refine Bool.eq_false_of_not_eq_true fun hrx' => hne ?_
  exact ((verify_append cfg body rx').mp hrx').symm.trans ((verify_append cfg body rx).mp hrx)

end Sys2Proof
end

section
/-! What clears `crc_enabled` and that nothing sets it (`10_state.md` R12, R19, `41_crc_validator.md` R92, R93): the
Execute part of a word write is the only operation of the block that touches the flag. -/

namespace Sys2Proof.Machine

open Claims

variable {s t : State} {c : Command} {i : Instr} {a : Addr} {v : Word}

/-! ### The bits of the value, compared one by one -/

/-- `value[3:2] = 0` bit by bit (R19). -/
theorem clearsCrcEnable_iff (v : Word) : clearsCrcEnable v = true ↔ Bits32Clear v := by
  rw [clearsCrcEnable, beq_iff_eq, BitVec.eq_of_getLsbD_eq_iff]
  simp only [Nat.forall_lt_succ_right]
  simp [Bits32Clear, and_comm]

/-- In wire order bits 3:2 stand in the first byte (R54). -/
theorem bits32Clear_iff_firstByte (v : Word) : Bits32Clear v ↔ BitVec.ofNat 8 v.toNat &&& 0x0C = 0 := by
  rw [BitVec.eq_of_getLsbD_eq_iff]
  simp only [Nat.forall_lt_succ_right]
  simp [Bits32Clear, and_comm]

/-! ### The Execute parts -/

/-- A word write clears the flag exactly when it stores a value with the pattern in the protocol-config register
(R92). -/
theorem wordWrite_clears_crcEnabled_iff :
    (wordWrite c s).crcEnabled = false ↔ s.crcEnabled = false ∨
      (c.addr = protocolConfigAddr ∧ c.cmdCrcOk = true ∧ resolve s.cfg c.addr.toNat 4 ≠ .outOfRange ∧
        Bits32Clear c.wdata) := by
  rw [← clearsCrcEnable_iff]
  rcases wordWrite_cases c s with ⟨hc, h⟩ | ⟨-, ha, h⟩ | ⟨hc, -, m, hm, q, evs, h, -⟩ | ⟨-, -, hr, h⟩
  · simp [h, hc]
  · have hne : identityAddr ≠ protocolConfigAddr := by decide
    simp [h, ha, hne]
  · have hr : resolve s.cfg c.addr.toNat 4 ≠ .outOfRange := fun hout => by
      rw [Memory.write_eq_none.mpr hout] at hm
      cases hm
    simp [h, hc, hr, imp_iff_not_or]
  · simp [h, hr]

theorem exec_crcEnabled (h : exec i s = .next t) : t.crcEnabled = (s.executed i).crcEnabled := by
  by_cases hi : i = .idleSkip
  · subst hi
    cases h
    rfl
  · obtain rfl := exec_next_eq hi h
    exact converse_crcEnabled _ _

theorem operandData_of_wordWrite (hw : WordWriteOf a v i) : operandData i = v := by
  rcases hw with ⟨crc, rfl⟩ | ⟨b, crc, rfl, rfl⟩ <;> rfl

theorem executed_crcEnabled_of_not_wordWrite (hw : ∀ a v, ¬ WordWriteOf a v i) :
    (s.executed i).crcEnabled = s.crcEnabled := by
  obtain ⟨-, -, -, kept, -⟩ := streamWrite_keeps (c := s.load i) (s := s.begun i)
  cases i
  case singleWrite a v crc => exact absurd (.inl ⟨crc, rfl⟩) (hw a v)
  case internalWrite b v crc => exact absurd (.inr ⟨b, crc, rfl, rfl⟩) (hw (zext24 b) v)
  case dmaWrite | dmaExtWrite => exact kept
  case dmaRead | dmaExtRead => exact streamRead_onlyResponds.crcEnabled
  case singleRead | internalRead => exact wordRead_onlyResponds.crcEnabled
  case reset | terminate | repeatCmd | unknown | idleSkip => rfl

/-- Which commands clear the flag (R92). -/
theorem exec_clears_crcEnabled_iff (h : exec i s = .next t) :
    t.crcEnabled = false ↔ s.crcEnabled = false ∨
      ∃ v, WordWriteOf protocolConfigAddr v i ∧ CommandGood s i ∧
        resolve s.cfg protocolConfigAddr.toNat 4 ≠ .outOfRange ∧ Bits32Clear v := by
  rw [exec_crcEnabled h]
  by_cases hw : ∃ a v, WordWriteOf a v i
  · obtain ⟨a, v, hw⟩ := hw
    have haddr : (s.load i).addr = a := operandAddr_of_wordWrite hw
    have hdata : (s.load i).wdata = v := operandData_of_wordWrite hw
    rw [executed_of_wordWrite hw, wordWrite_clears_crcEnabled_iff, haddr, hdata]
    refine or_congr_right ⟨?_, ?_⟩
    · rintro ⟨rfl, hgood, hr, hv⟩
      exact ⟨v, hw, hgood, hr, hv⟩
    · rintro ⟨v', hw', hgood, hr, hv⟩
      obtain rfl := (operandAddr_of_wordWrite hw).symm.trans (operandAddr_of_wordWrite hw')
      obtain rfl := (operandData_of_wordWrite hw).symm.trans (operandData_of_wordWrite hw')
      exact ⟨rfl, hgood, hr, hv⟩
  · rw [executed_crcEnabled_of_not_wordWrite fun a v hav => hw ⟨a, v, hav⟩]
    exact (or_iff_left fun ⟨v, hv, _⟩ => hw ⟨_, v, hv⟩).symm

/-- No step sets the flag: fetching does not touch it, a meaning can only clear it, and neither the environment nor
the rest of a transaction reaches it (R93). -/
theorem step_crcEnabled_off (h : step s = .next t) (off : s.crcEnabled = false) : t.crcEnabled = false := by
  obtain ⟨-, ⟨-, hfetch⟩ | ⟨-, -, rfl⟩⟩ := step_next h
  · rcases fetchAndRun_next hfetch with ⟨-, rfl⟩ | ⟨c, i, r, -, -, -, hrun⟩
    · rwa [fetch_crcEnabled]
    · exact (exec_clears_crcEnabled_iff hrun).mpr (.inl (by simpa using off))
  · rwa [converse_crcEnabled]

end Sys2Proof.Machine

namespace Sys2Proof

open Machine Claims

/-- Settles O20: whatever the step does, the flag changes in the meaning of a command only, and only to 0. -/
theorem checksumFlagIsNeverSetAgain : Obligations.ChecksumFlagIsNeverSetAgain :=
  fun _ _ h off => step_crcEnabled_off h off

/-- Settles O34: the flag after a command is the flag after its Execute part; bits 3:2 of a value are bits 3:2 of the
byte that `bytesLe32` lists first. -/
theorem checksumSwitchOff : Obligations.ChecksumSwitchOff := by
  refine ⟨fun i s t h => exec_clears_crcEnabled_iff h, fun v => ?_⟩
  rw [bits32Clear_iff_firstByte]
  refine ⟨fun h => ⟨_, _, rfl, h⟩, ?_⟩
  rintro ⟨d0, ds, hd, h⟩
  cases hd
  exact h

end Sys2Proof
end

section
/-! Word access (`42_word_access.md`): what a good SingleRead, InternalRead, SingleWrite or InternalWrite answers when
its whole response is clocked. The Execute part composes the response at once, so each answer is what that part does to
the state, its events, and the response bytes. -/

namespace Sys2Proof.Machine

open Claims

variable {s s' : State} {c : Command} {i j : Instr} {a : Addr} {v : Word} {m : Memory} {st : Byte}
  {d bytes : List Byte} {evs : List Event} {rest : List Stimulus} {P : Instr → Prop}

/-! ### A response that is composed at once -/

/-- `transact_respond` for the Execute part that leaves `s'`, with events of its own before the response. -/
theorem transact_answer {f : Command → State → State}
    (he : f (s.load i) (s.begun i) = (s'.withEvents evs).respond (s.load i) st d)
    (hsize : (s.load i).size.toNat = 0) (hin : s.inbox = clocks bytes ++ rest) (hb : bytes.length = d.length + 2) :
    transact i f s = .next (after s' rest (evs ++ sends (i.opcode :: st :: d))) := by
  rw [transact_respond he (Command.moreChunks_of_size hsize) hin hb]
  exact congrArg Host.Outcome.next (after_withEvents s' evs _ rest)

/-! ### Word reads -/

theorem not_override (h : s.resetPending = false ∨ a ≠ stateAddr) :
    ¬ (s.resetPending = true ∧ a = stateAddr) := by
  rintro ⟨pending, rfl⟩
  simp [pending] at h

theorem wordReadEvents_of_read (h : s.mem.read s.cfg a.toNat 4 = some d) (op : Byte) :
    s.wordReadEvents a op = .memRd a.toNat d :: sends (wordResponse s op statusOk d) := by
  simp [State.wordReadEvents, State.rangeReads, State.rangeStatus, State.rangeData, h]

theorem wordReadEvents_of_outOfRange (h : resolve s.cfg a.toNat 4 = .outOfRange) (op : Byte) :
    s.wordReadEvents a op =
      .diag (.outOfRange a.toNat 4) :: sends (wordResponse s op s.cfg.statusErr (zeros 4)) := by
  simp [State.wordReadEvents, State.rangeReads, State.rangeStatus, State.rangeData, Memory.read_eq_none.mpr h]

theorem wordRead_of_override (hg : c.cmdCrcOk = true) (pending : s.resetPending = true) (ha : c.addr = stateAddr) :
    wordRead c s = { s with resetPending := false }.respondWord c statusOk (bytesLe32 resetSignature) := by
  simp [wordRead, hg, pending, ha]

/-- The override of R107: the signature is sent, no memory is read, and `reset_pending` is cleared. -/
theorem exec_wordRead_override (hr : WordReadOf stateAddr i) (hg : CommandGood s i) (pending : s.resetPending = true)
    (hin : s.inbox = clocks bytes ++ rest) (hb : bytes.length = 7 + s.crcEnabled.toNat) :
    exec i s = .next (after { s with resetPending := false } rest
      (sends (wordResponse s i.opcode statusOk (bytesLe32 resetSignature)))) := by
  obtain ⟨ha, hsize⟩ := load_of_wordRead (s := s) hr
  have hgood : (s.load i).cmdCrcOk = true := hg
  rw [exec_of_wordRead hr]
  refine transact_answer (s' := { s.begun i with resetPending := false }) (evs := [])
    (d := wordFraming :: (bytesLe32 resetSignature ++ checksumOf s (bytesLe32 resetSignature))) ?_ hsize hin ?_
  · rw [State.withEvents_nil]
    exact wordRead_of_override hgood pending ha
  · rw [hb, List.length_cons, List.length_append, bytesLe32_length, checksumOf_length]
    omega

/-! ### Word writes -/

theorem exec_of_wordWrite (hw : WordWriteOf a v i) : exec i s = transact i wordWrite s := by
  rcases hw with ⟨crc, rfl⟩ | ⟨b, crc, rfl, -⟩ <;> rfl

theorem load_of_wordWrite (hw : WordWriteOf a v i) :
    (s.load i).addr = a ∧ (s.load i).wdata = v ∧ (s.load i).size.toNat = 0 := by
  rcases hw with ⟨crc, rfl⟩ | ⟨b, crc, rfl, rfl⟩ <;> exact ⟨rfl, rfl, rfl⟩

/-- `crc_enabled` after the word `v` has been stored at `a` (R92). -/
def State.flagAfterStore (s : State) (a : Addr) (v : Word) : Bool :=
  s.crcEnabled && !(a == protocolConfigAddr && clearsCrcEnable v)

theorem flagAfterStore_cleared (h : a = protocolConfigAddr ∧ Bits32Clear v) : s.flagAfterStore a v = false := by
  simp [State.flagAfterStore, h.1, (clearsCrcEnable_iff v).mpr h.2]

theorem flagAfterStore_kept (h : ¬ (a = protocolConfigAddr ∧ Bits32Clear v)) :
    s.flagAfterStore a v = s.crcEnabled := by
  rw [← clearsCrcEnable_iff] at h
  have unchanged : (a == protocolConfigAddr && clearsCrcEnable v) = false := by simpa using h
  simp [State.flagAfterStore, unchanged]

/-- `s` after the store that makes its memory `m`, with what the store of `v` at `a` does to the flag and the queue. -/
abbrev State.stored (s : State) (a : Addr) (v : Word) (m : Memory) : State :=
  { s with mem := m, crcEnabled := s.flagAfterStore a v, queue := queueAfterNotify s a }

/-- A good word write that resolves: store, flag, notification and ACK, in R105's order. -/
theorem wordWrite_of_store (hg : c.cmdCrcOk = true) (ha : c.addr ≠ identityAddr)
    (hm : s.mem.write s.cfg c.addr.toNat (bytesLe32 c.wdata) = some m) :
    wordWrite c s = State.respond c statusOk [] ((s.stored c.addr c.wdata m).withEvents
      (.memWr c.addr.toNat (bytesLe32 c.wdata) :: notifyEvents s c.addr)) := by
  rcases wordWrite_cases c s with ⟨hbad, -⟩ | ⟨-, hid, -⟩ | ⟨-, -, m', hm', q, evs, h, hq⟩ | ⟨-, -, hr, -⟩
  · simp [hbad] at hg
  · exact absurd hid ha
  · obtain rfl : m = m' := Option.some.inj (hm.symm.trans hm')
    have hnotify : q = queueAfterNotify s c.addr ∧ evs = notifyEvents s c.addr := by
      rcases hq with ⟨hsub, hroom, rfl, rfl⟩ | ⟨hsub, hfull, rfl, rfl⟩ | ⟨hsub, rfl, rfl⟩
      · simp [queueAfterNotify, notifyEvents, hsub, hroom]
      · simp [queueAfterNotify, notifyEvents, hsub, hfull.not_gt]
      · simp [queueAfterNotify, notifyEvents, hsub]
    obtain ⟨rfl, rfl⟩ := hnotify
    exact h
  · rw [Memory.write_eq_none.mpr hr] at hm
    cases hm

theorem wordWrite_of_outOfRange (hg : c.cmdCrcOk = true) (ha : c.addr ≠ identityAddr)
    (hr : resolve s.cfg c.addr.toNat 4 = .outOfRange) :
    wordWrite c s = (s.raise (.outOfRange c.addr.toNat 4)).respond c s.cfg.statusErr [] := by
  have unstored : s.memWrite c.addr.toNat (bytesLe32 c.wdata) = none := State.memWrite_eq_none.mpr hr
  simp [wordWrite, hg, ha, unstored]

/-- A good word write to another address than 0x000000 that resolves (R105, R92, R160). -/
theorem exec_wordWrite_stores (hw : WordWriteOf a v i) (hg : CommandGood s i) (ha : a ≠ identityAddr)
    (hm : s.mem.write s.cfg a.toNat (bytesLe32 v) = some m) (hin : s.inbox = clocks bytes ++ rest)
    (hb : bytes.length = 2) :
    exec i s = .next (after (s.stored a v m) rest
      (.memWr a.toNat (bytesLe32 v) :: (notifyEvents s a ++ sends [i.opcode, statusOk]))) := by
  obtain ⟨rfl, rfl, hsize⟩ := load_of_wordWrite (s := s) hw
  rw [exec_of_wordWrite hw]
  exact transact_answer (wordWrite_of_store (s := s.begun i) hg ha hm) hsize hin hb

/-- A good word write that does not resolve (R105, R151). -/
theorem exec_wordWrite_outOfRange (hw : WordWriteOf a v i) (hg : CommandGood s i) (ha : a ≠ identityAddr)
    (hr : resolve s.cfg a.toNat 4 = .outOfRange) (hin : s.inbox = clocks bytes ++ rest) (hb : bytes.length = 2) :
    exec i s = .next (after s rest (.diag (.outOfRange a.toNat 4) :: sends [i.opcode, s.cfg.statusErr])) := by
  obtain ⟨rfl, -, hsize⟩ := load_of_wordWrite (s := s) hw
  rw [exec_of_wordWrite hw]
  exact transact_answer (s' := s.begun i) (evs := [.diag (.outOfRange (s.load i).addr.toNat 4)])
    (wordWrite_of_outOfRange (s := s.begun i) hg ha hr) hsize hin hb

/-- The intercept of R106: nothing is stored, `reset_pending` is set. -/
theorem exec_wordWrite_identity (hw : WordWriteOf identityAddr v i) (hg : CommandGood s i)
    (hin : s.inbox = clocks bytes ++ rest) (hb : bytes.length = 2) :
    exec i s = .next (after { s with resetPending := true } rest (sends [i.opcode, statusOk])) := by
  obtain ⟨ha, -, hsize⟩ := load_of_wordWrite (s := s) hw
  have hgood : (s.load i).cmdCrcOk = true := hg
  rw [exec_of_wordWrite hw]
  refine transact_answer (s' := { s.begun i with resetPending := true }) (evs := []) ?_ hsize hin hb
  rw [State.withEvents_nil]
  simp [wordWrite, hgood, ha]

/-! ### What the answer does not depend on -/

/-- All good commands with `P` answer alike: they do the same to the state, and their events are the same, those before
the first response byte and the bytes after the echoed opcode. -/
def State.AnswersAlike (s : State) (rest : List Stimulus) (P : Instr → Prop) : Prop :=
  ∃ s' evs answer, s'.trace = s.trace ∧ (∀ e ∈ evs, isTx e = false) ∧
    ∀ i, P i → CommandGood s i → exec i s = .next (after s' rest (evs ++ sends (i.opcode :: answer)))

theorem isTx_notifyEvents (s : State) (a : Addr) : ∀ e ∈ notifyEvents s a, isTx e = false := by
  unfold notifyEvents
  split_ifs <;> simp [isTx]

theorem wordRead_answersAlike (a : Addr) (hin : s.inbox = clocks bytes ++ rest)
    (hb : bytes.length = 7 + s.crcEnabled.toNat) : s.AnswersAlike rest (WordReadOf a) := by
  by_cases override : s.resetPending = true ∧ a = stateAddr
  · obtain ⟨pending, rfl⟩ := override
    exact ⟨{ s with resetPending := false }, [], _, rfl, by simp, fun i hr hg =>
      exec_wordRead_override hr hg pending hin hb⟩
  · refine ⟨s, [if s.rangeReads a.toNat 4 then .memRd a.toNat (s.rangeData a.toNat 4)
      else .diag (.outOfRange a.toNat 4)], _, rfl, ?_, fun i hr hg => exec_wordRead_of_good hr hg override hin hb⟩
    cases s.rangeReads a.toNat 4 <;> simp [isTx]

theorem wordWrite_answersAlike (a : Addr) (v : Word) (hin : s.inbox = clocks bytes ++ rest) (hb : bytes.length = 2) :
    s.AnswersAlike rest (WordWriteOf a v) := by
  by_cases ha : a = identityAddr
  · subst ha
    exact ⟨{ s with resetPending := true }, [], _, rfl, by simp, fun i hw hg =>
      exec_wordWrite_identity hw hg hin hb⟩
  · cases hm : s.mem.write s.cfg a.toNat (bytesLe32 v) with
    | none =>
      exact ⟨s, [.diag (.outOfRange a.toNat 4)], _, rfl, by simp [isTx], fun i hw hg =>
        exec_wordWrite_outOfRange hw hg ha (Memory.write_eq_none.mp hm) hin hb⟩
    | some m =>
      exact ⟨s.stored a v m, .memWr a.toNat (bytesLe32 v) :: notifyEvents s a, _, rfl,
        List.forall_mem_cons.mpr ⟨rfl, isTx_notifyEvents s a⟩, fun i hw hg =>
        exec_wordWrite_stores hw hg ha hm hin hb⟩

/-- Two good commands with `P` answer states that differ in the echoed opcode. -/
theorem State.AnswersAlike.differ_in_opcode (h : s.AnswersAlike rest P) (hi : P i) (hj : P j)
    (hgi : CommandGood s i) (hgj : CommandGood s j) :
    ∃ (t : State) (pre post : List Event),
      exec i s = .next { t with trace := s.trace ++ pre ++ .tx i.opcode :: post } ∧
      exec j s = .next { t with trace := s.trace ++ pre ++ .tx j.opcode :: post } ∧ ∀ e ∈ pre, isTx e = false := by
  obtain ⟨s', evs, answer, htrace, silent, hexec⟩ := h
  refine ⟨after s' rest [], evs, sends answer, ?_, ?_, silent⟩
  · rw [hexec i hi hgi, List.append_assoc, ← htrace]
    rfl
  · rw [hexec j hj hgj, List.append_assoc, ← htrace]
    rfl

end Sys2Proof.Machine

namespace Sys2Proof

open Machine Claims

/-- Settles O26: a good word read answers its range, and the range resolves. -/
theorem wordReadAnswersStoredBytes : Obligations.WordReadAnswersStoredBytes := by
  intro s i a d bytes rest hr hg hno hd hin hb
  rw [exec_wordRead_of_good hr hg (not_override hno) hin hb, wordReadEvents_of_read hd]
  rfl

/-- Settles O27: the override composes the signature word without a look at memory. -/
theorem stateRegisterOverride : Obligations.StateRegisterOverride :=
  fun _ _ _ _ hr hg pending hin hb => exec_wordRead_override hr hg pending hin hb

/-- Settles O28: a good word read answers its range, and the range does not resolve. -/
theorem wordReadOutOfRange : Obligations.WordReadOutOfRange := by
  intro s i a bytes rest hr hg hno hres hin hb
  rw [exec_wordRead_of_good hr hg (not_override hno) hin hb, wordReadEvents_of_outOfRange hres]
  rfl

/-- Settles O30: the flag of the statement is the flag the store leaves. -/
theorem wordWriteStores : Obligations.WordWriteStores := by
  intro s i a v m bytes rest flag hw hg ha hm hcleared hkept hin hb
  have hflag : flag = s.flagAfterStore a v := by
    by_cases h : a = protocolConfigAddr ∧ Bits32Clear v
    · rw [hcleared h, flagAfterStore_cleared h]
    · rw [hkept h, flagAfterStore_kept h]
  rw [hflag]
  exact exec_wordWrite_stores hw hg ha hm hin hb

/-- Settles O31: the intercept compares the whole address, so the neighbours of 0x000000 are ordinary, and none of
them is the protocol-config register. -/
theorem identityWriteArmsTheSoftReset : Obligations.IdentityWriteArmsTheSoftReset := by
  refine ⟨fun s i v bytes rest hw hg hin hb => exec_wordWrite_identity hw hg hin hb, ?_⟩
  intro s i a v m bytes rest ha hw hg hm hin hb
  obtain ⟨hid, hconfig⟩ : a ≠ identityAddr ∧ a ≠ protocolConfigAddr := by
    rcases ha with rfl | rfl | rfl <;> decide
  exact wordWriteStores s i a v m bytes rest s.crcEnabled hw hg hid hm (fun h => absurd h.1 hconfig) (fun _ => rfl)
    hin hb

/-- Settles O32: the store answers OutOfRange, and the recovery branch composes the ACK. -/
theorem wordWriteOutOfRange : Obligations.WordWriteOutOfRange :=
  fun _ _ _ _ _ _ hw hg ha hres hin hb => exec_wordWrite_outOfRange hw hg ha hres hin hb

/-- Settles O47: the answer to a word command depends on its decoded address and its value only. -/
theorem addressWidthsAgree : Obligations.AddressWidthsAgree := by
  intro s b i j bytes rest hij hgi hgj hin hb
  rcases hij with ⟨crc, crc', rfl, rfl⟩ | ⟨v, crc, crc', rfl, rfl⟩
  · exact (wordRead_answersAlike (zext24 b) hin hb).differ_in_opcode (.inr ⟨b, crc, rfl, rfl⟩) (.inl ⟨crc', rfl⟩)
      hgi hgj
  · exact (wordWrite_answersAlike (zext24 b) v hin hb).differ_in_opcode (.inr ⟨b, crc, rfl, rfl⟩)
      (.inl ⟨crc', rfl⟩) hgi hgj

/-- Settles O50: the three commands one after another, each as its own statement says. -/
theorem softResetHandshake : Obligations.SoftResetHandshake := by
  intro s w r v d b1 b2 b3 rest hw hr hgw hgr hd hin h1 h2 h3
  have hin' : s.inbox = clocks b1 ++ (clocks b2 ++ (clocks b3 ++ rest)) := by
    rw [hin]
    simp only [clocks, List.map_append, List.append_assoc]
  exact ⟨_, _, _, exec_wordWrite_identity hw hgw hin' h1,
    stateRegisterOverride _ r b2 _ hr hgr rfl rfl h2,
    wordReadAnswersStoredBytes _ r stateAddr d b3 rest hr hgr (.inl rfl) hd rfl h3, rfl, rfl, rfl, rfl⟩

end Sys2Proof
end

section
/-! DMA reads (`43_dma.md` R120, R121, R124): what a good DmaRead or DmaExtRead answers, with the transfer that has no
chunk (R126) and the word read of the same bytes (R128). -/

namespace Sys2Proof.Machine

open Claims

variable {s : State} {i j : Instr} {a : Addr} {n : Nat} {d bytes : List Byte} {rest : List Stimulus}

/-! ### The bytes a list of events sends -/

@[simp] theorem sentBytes_append (evs evs' : List Event) :
    sentBytes (evs ++ evs') = sentBytes evs ++ sentBytes evs' := List.filterMap_append

@[simp] theorem sentBytes_sends (bs : List Byte) : sentBytes (sends bs) = bs := by
  simp [sentBytes, sends, List.filterMap_map]

theorem sentBytes_of_silent {evs : List Event} (h : ∀ e ∈ evs, isTx e = false) : sentBytes evs = [] := by
  rw [sentBytes, List.filterMap_eq_nil_iff]
  intro e he
  cases e with
  | tx b => cases h _ he
  | _ => rfl

/-! ### The range of a read -/

theorem dmaReadEvents_of_read (h : s.mem.read s.cfg a.toNat n = some d) (op : Byte) :
    s.dmaReadEvents a n op = sends [op, statusOk] ++ streamEvents s a.toNat d true := by
  simp [State.dmaReadEvents, State.rangeFault, State.rangeStatus, State.rangeReads, State.rangeData, h]

theorem dmaReadEvents_of_outOfRange (h : resolve s.cfg a.toNat n = .outOfRange) (op : Byte) :
    s.dmaReadEvents a n op = .diag (.outOfRange a.toNat n) ::
      (sends [op, s.cfg.statusErr] ++ streamEvents s a.toNat (zeros n) false) := by
  simp [State.dmaReadEvents, State.rangeFault, State.rangeStatus, State.rangeReads, State.rangeData,
    Memory.read_eq_none.mpr h]

theorem isTx_rangeFault (s : State) (a n : Nat) : ∀ e ∈ s.rangeFault a n, isTx e = false := by
  unfold State.rangeFault
  split_ifs <;> simp [isTx]

/-- An empty range resolves exactly where some region contains its address (R32, R126). -/
theorem resolveAmong_zero_eq_outOfRange {cfg : Config} {a : Nat} {rs : List Region} :
    resolveAmong cfg a 0 rs = .outOfRange ↔ ∀ r ∈ rs, ¬ Contains cfg r a := by
  induction rs with
  | nil => simp [resolveAmong]
  | cons r rs ih =>
    by_cases h : Contains cfg r a
    · have fits : a + 0 ≤ (cfg.span r).base + (cfg.span r).length := h.2.le
      rw [resolveAmong_cons_of_contains rs h, if_pos fits]
      simp [h]
    · rw [resolveAmong_cons_of_not_contains rs h, ih]
      simp [h]

theorem rangeReads_zero_iff {a : Nat} : s.rangeReads a 0 = true ↔ ∃ r, Contains s.cfg r a := by
  rw [State.rangeReads, Option.isSome_iff_ne_none, Ne, Memory.read_eq_none, resolve, resolveAmong_zero_eq_outOfRange]
  push Not
  exact ⟨fun ⟨r, _, h⟩ => ⟨r, h⟩, fun ⟨r, h⟩ => ⟨r, by cases r <;> decide, h⟩⟩

/-! ### Transfers of one size -/

/-- A good DMA read of no byte sends its two bytes and has no chunk (R126). -/
theorem exec_dmaRead_zero (hd : DmaReadOf a 0 i) (hg : CommandGood s i) (hin : s.inbox = clocks bytes ++ rest)
    (hb : bytes.length = 2) :
    exec i s = .next (after s rest (s.rangeFault a.toNat 0 ++ sends [i.opcode, s.rangeStatus a.toNat 0])) := by
  obtain ⟨rfl, hsize, -⟩ := load_of_dmaRead (s := s) hd
  have he := streamRead_of_good (s := s.begun i) (c := s.load i) hg
  rw [hsize] at he
  rw [exec_of_dmaRead hd]
  exact transact_answer he hsize hin hb

/-- The chunk frames of a transfer that fits into one chunk send its one frame (R59). -/
theorem sentBytes_streamEvents_single {b : Bool} (hpos : 0 < d.length) (hle : d.length ≤ s.cfg.maxChunk) (a : Nat) :
    sentBytes (streamEvents s a d b) = 0xF3 :: (d ++ checksumOf s d) := by
  have single : chunkCount s.cfg.maxChunk d.length = 1 := by
    rw [chunkCount_step (by omega) hpos, min_eq_right hle, Nat.sub_self, chunkCount_zero (by omega)]
  have whole : chunkOf s.cfg.maxChunk d 0 = d := by
    rw [chunkOf, Nat.zero_mul, List.drop_zero, List.take_of_length_le hle]
  have silent : sentBytes (if b then [Event.memRd a d] else []) = [] := by cases b <;> rfl
  simp [streamEvents, single, whole, silent, chunkMarker]

theorem sentBytes_wordReadEvents (s : State) (a : Addr) (op : Byte) : sentBytes (s.wordReadEvents a op) =
    wordResponse s op (s.rangeStatus a.toNat 4) (s.rangeData a.toNat 4) := by
  rw [State.wordReadEvents, ← List.singleton_append, sentBytes_append, sentBytes_sends]
  cases s.rangeReads a.toNat 4 <;> rfl

/-- A DMA read of four bytes in one chunk sends the response of a word read (R128). -/
theorem sentBytes_dmaReadEvents_four (hmax : 4 ≤ s.cfg.maxChunk) (a : Addr) (op : Byte) :
    sentBytes (s.dmaReadEvents a 4 op) =
      wordResponse s op (s.rangeStatus a.toNat 4) (s.rangeData a.toNat 4) := by
  have hlen := s.rangeData_length a.toNat 4
  rw [State.dmaReadEvents, sentBytes_append, sentBytes_append, sentBytes_sends,
    sentBytes_of_silent (isTx_rangeFault s _ 4), sentBytes_streamEvents_single (by omega) (by omega)]
  rfl

theorem responseLength_of_dmaRead_four (hd : DmaReadOf a 4 i) {cfg : Config} (hmax : 4 ≤ cfg.maxChunk)
    (crcEnabled : Bool) : responseLength cfg crcEnabled i = 7 + crcEnabled.toNat := by
  rw [responseLength_of_dmaRead hd, chunkCount_step (by omega) (by omega), min_eq_right hmax, Nat.sub_self,
    chunkCount_zero (by omega)]
  omega

/-- Two good DMA reads of one range answer states that differ in the echoed opcode (R127). -/
theorem dmaRead_differ_in_opcode (hi : DmaReadOf a n i) (hj : DmaReadOf a n j) (hgi : CommandGood s i)
    (hgj : CommandGood s j) (hmax : 1 ≤ s.cfg.maxChunk) (hin : s.inbox = clocks bytes ++ rest)
    (hb : bytes.length = 2 + n + chunkCount s.cfg.maxChunk n * (1 + s.crcEnabled.toNat)) :
    ∃ (t : State) (pre post : List Event),
      exec i s = .next { t with trace := s.trace ++ pre ++ .tx i.opcode :: post } ∧
      exec j s = .next { t with trace := s.trace ++ pre ++ .tx j.opcode :: post } ∧ ∀ e ∈ pre, isTx e = false := by
  have answer {k : Instr} (hk : DmaReadOf a n k) (hg : CommandGood s k) :
      exec k s = .next { after s rest [] with
        trace := s.trace ++ s.rangeFault a.toNat n ++ .tx k.opcode :: .tx (s.rangeStatus a.toNat n) ::
          streamEvents s a.toNat (s.rangeData a.toNat n) (s.rangeReads a.toNat n) } := by
    rw [exec_dmaRead_of_good hk hg hmax hin (hb.trans (responseLength_of_dmaRead hk ..).symm), after,
      State.dmaReadEvents, List.append_assoc, ← List.append_assoc s.trace]
    rfl
  exact ⟨_, _, _, answer hi hgi, answer hj hgj, isTx_rangeFault s _ n⟩

end Sys2Proof.Machine

namespace Sys2Proof

open Machine Claims

/-- Settles O36: a good DMA read streams its range, and the range resolves. -/
theorem dmaReadStreamsTheRange : Obligations.DmaReadStreamsTheRange := by
  intro s i a n d bytes rest hd hg hmax hread hin hb
  rw [exec_dmaRead_of_good hd hg hmax hin hb, dmaReadEvents_of_read hread]
  rfl

/-- Settles O37: a good DMA read streams its range, and the range does not resolve. -/
theorem dmaReadOutOfRange : Obligations.DmaReadOutOfRange := by
  intro s i a n bytes rest hd hg hmax hres hin hb
  rw [exec_dmaRead_of_good hd hg hmax hin hb, dmaReadEvents_of_outOfRange hres]

/-- Settles O49: both answer the status and the data of the same range, the DMA read in one chunk with the marker that
is the framing byte of a word read. -/
theorem wordAndDmaReadsAgree : Obligations.WordAndDmaReadsAgree := by
  intro s a i j bytes rest hr hd hgi hgj hmax hno hin hb
  have hword := exec_wordRead_of_good hr hgi (not_override hno) hin hb
  have hdma := exec_dmaRead_of_good hd hgj (by omega) hin
    (hb.trans (responseLength_of_dmaRead_four hd hmax s.crcEnabled).symm)
  exact ⟨_, _, _, _, _, hword, hdma, rfl, rfl, sentBytes_wordReadEvents s a i.opcode,
    sentBytes_dmaReadEvents_four hmax a j.opcode, rfl⟩

end Sys2Proof
end

section
/-! DMA writes (`43_dma.md` R122, R123, R125): the payload intake is the loop of R125 over the chunk frames. With it the
statements about both directions: transfers of size 0 (R126) and the two widths of a size (R127). -/

namespace Sys2Proof.Machine

open Claims

variable {s : State} {c : Command} {i : Instr} {a : Addr} {n j : Nat} {payload bytes : List Byte}
  {rest : List Stimulus} {acc : Memory × Bool × List Event}

/-! ### The chunk frames of a payload -/

/-- The length of a full chunk frame: marker, `MAX_CHUNK` bytes, and checksum where checksums are on (R65). -/
abbrev State.fullFrame (s : State) : Nat := 1 + s.cfg.maxChunk + s.crcEnabled.toNat

/-- `payload` is as long as the chunk frames of `n` data bytes (R65). -/
abbrev State.PayloadOf (s : State) (n : Nat) (payload : List Byte) : Prop :=
  payload.length = n + chunkCount s.cfg.maxChunk n * (1 + s.crcEnabled.toNat)

/-- At chunk `j` its whole frame is still to come. -/
theorem frame_le_payload (hmax : 1 ≤ s.cfg.maxChunk) (hpay : s.PayloadOf n payload)
    (hj : j < chunkCount s.cfg.maxChunk n) :
    j * s.fullFrame + (1 + chunkLength s.cfg.maxChunk n j + s.crcEnabled.toNat) ≤ payload.length := by
  have started := (lt_chunkCount_iff hmax).mp hj
  have frames : (j + 1) * (1 + s.crcEnabled.toNat) ≤ chunkCount s.cfg.maxChunk n * (1 + s.crcEnabled.toNat) :=
    Nat.mul_le_mul_right _ hj
  have expand : j * s.fullFrame = j * (1 + s.crcEnabled.toNat) + j * s.cfg.maxChunk := by ring
  rw [Nat.succ_mul] at frames
  rw [hpay, expand, chunkLength]
  omega

/-- At the last chunk nothing but its frame is still to come. -/
theorem payload_length_of_last_frame (hmax : 1 ≤ s.cfg.maxChunk) (hpay : s.PayloadOf n payload)
    (hj : j + 1 = chunkCount s.cfg.maxChunk n) :
    payload.length = j * s.fullFrame + (1 + chunkLength s.cfg.maxChunk n j + s.crcEnabled.toNat) := by
  have started := (lt_chunkCount_iff (size := n) hmax).mp (by omega : j < _)
  rw [hpay, chunkLength_last hmax hj, ← hj]
  have expand : (j + 1) * (1 + s.crcEnabled.toNat) + j * s.cfg.maxChunk =
    j * s.fullFrame + (1 + s.crcEnabled.toNat) := by ring
  omega

theorem frameOf_length (hmax : 1 ≤ s.cfg.maxChunk) (hpay : s.PayloadOf n payload)
    (hj : j < chunkCount s.cfg.maxChunk n) :
    (frameOf s n payload j).length = 1 + chunkLength s.cfg.maxChunk n j + s.crcEnabled.toNat := by
  have := frame_le_payload hmax hpay hj
  rw [frameOf, List.length_take, List.length_drop, min_eq_left]
  exact Nat.le_sub_of_add_le' this

/-- A payload is no longer than so many full frames. -/
theorem payload_le_frames (hmax : 1 ≤ s.cfg.maxChunk) (hpay : s.PayloadOf n payload) :
    payload.length ≤ chunkCount s.cfg.maxChunk n * s.fullFrame := by
  have covered := (chunkCount_bounds (size := n) hmax).1
  have expand : chunkCount s.cfg.maxChunk n * s.fullFrame =
    chunkCount s.cfg.maxChunk n * s.cfg.maxChunk + chunkCount s.cfg.maxChunk n * (1 + s.crcEnabled.toNat) := by ring
  omega

/-- The payload from chunk `j` on is the frame of chunk `j` and the payload from the next chunk on. -/
theorem drop_eq_frameOf_append (hmax : 1 ≤ s.cfg.maxChunk) (hpay : s.PayloadOf n payload)
    (hj : j < chunkCount s.cfg.maxChunk n) :
    payload.drop (j * s.fullFrame) = frameOf s n payload j ++ payload.drop ((j + 1) * s.fullFrame) := by
  have next : payload.drop ((j + 1) * s.fullFrame) =
      (payload.drop (j * s.fullFrame)).drop (1 + chunkLength s.cfg.maxChunk n j + s.crcEnabled.toNat) := by
    rw [List.drop_drop]
    by_cases last : j + 1 = chunkCount s.cfg.maxChunk n
    · rw [List.drop_eq_nil_of_le (payload_length_of_last_frame hmax hpay last).le,
        last, List.drop_eq_nil_of_le (payload_le_frames hmax hpay)]
    · rw [chunkLength_of_succ_lt hmax (by omega), Nat.succ_mul]
  rw [next, frameOf, List.take_append_drop]

/-! ### One chunk -/

/-- `s` when the loop of R125 has come to `acc`: its memory, and its events added to the trace. -/
abbrev State.looped (s : State) (acc : Memory × Bool × List Event) : State :=
  { s with mem := acc.1, trace := s.trace ++ acc.2.2 }

/-- The data of the frame of chunk `j`. -/
def frameData (s : State) (n : Nat) (payload : List Byte) (j : Nat) : List Byte :=
  ((frameOf s n payload j).drop 1).take (chunkLength s.cfg.maxChunk n j)

/-- The frame of chunk `j` carries the right checksum, or checksums are off (R90). -/
def frameGood (s : State) (n : Nat) (payload : List Byte) (j : Nat) : Bool :=
  chunkGood s.cfg s.crcEnabled ((frameOf s n payload j).drop 1)

theorem frameGood_eq (s : State) (n : Nat) (payload : List Byte) (j : Nat) :
    (s.crcEnabled && !verify s.cfg ((frameOf s n payload j).drop 1)) = !frameGood s n payload j := by
  unfold frameGood chunkGood
  cases s.crcEnabled <;> rfl

theorem receiveChunk_of_crcMismatch (h : frameGood s n payload j = false) (a : Nat) :
    receiveChunk s true a n payload acc j =
      (acc.1, acc.2.1, acc.2.2 ++ receives (frameOf s n payload j) ++ [.diag .crcMismatch]) := by
  simp only [receiveChunk, frameGood_eq, h, Bool.not_false, if_true]

theorem receiveChunk_of_write {a : Nat} {m : Memory} (h : frameGood s n payload j = true)
    (hm : acc.1.write s.cfg (a + j * s.cfg.maxChunk) (frameData s n payload j) = some m) :
    receiveChunk s true a n payload acc j = (m, acc.2.1, acc.2.2 ++ receives (frameOf s n payload j) ++
      [.memWr (a + j * s.cfg.maxChunk) (frameData s n payload j)]) := by
  rw [frameData] at hm ⊢
  simp only [receiveChunk, frameGood_eq, h, Bool.not_true, Bool.false_eq_true, if_true, if_false, hm]

theorem receiveChunk_of_outOfRange {a : Nat} (h : frameGood s n payload j = true)
    (hm : acc.1.write s.cfg (a + j * s.cfg.maxChunk) (frameData s n payload j) = none) :
    receiveChunk s true a n payload acc j = (acc.1, true, acc.2.2 ++ receives (frameOf s n payload j) ++
      [.diag (.outOfRange (a + j * s.cfg.maxChunk) (frameData s n payload j).length)]) := by
  rw [frameData] at hm ⊢
  simp only [receiveChunk, frameGood_eq, h, Bool.not_true, Bool.false_eq_true, if_true, if_false, hm]

/-- A chunk that has been received is ignored, stored or discarded as in the loop of R125. -/
theorem storeChunk_eq_receiveChunk (hoff : c.offset = j * s.cfg.maxChunk) (herr : c.errSeen = acc.2.1) :
    State.storeChunk c (frameData s n payload j) (frameGood s n payload j)
        (s.looped (acc.1, acc.2.1, acc.2.2 ++ receives (frameOf s n payload j))) =
      ((receiveChunk s c.cmdCrcOk c.addr.toNat n payload acc j).2.1,
        s.looped (receiveChunk s c.cmdCrcOk c.addr.toNat n payload acc j)) := by
  rcases State.storeChunk_cases c (frameData s n payload j) (frameGood s n payload j)
    (s.looped (acc.1, acc.2.1, acc.2.2 ++ receives (frameOf s n payload j))) with
    ⟨hbad, h⟩ | ⟨hgood, hsum, h⟩ | ⟨hgood, hsum, m, hm, h⟩ | ⟨hgood, hsum, hm, h⟩ <;> rw [h]
  · rw [hbad, herr]
    rfl
  · rw [hgood, herr, receiveChunk_of_crcMismatch hsum]
    simp only [State.looped, ← List.append_assoc]
    rfl
  · rw [hoff] at hm ⊢
    rw [hgood, herr, receiveChunk_of_write hsum hm]
    simp only [State.looped, ← List.append_assoc]
  · rw [hoff] at hm ⊢
    rw [hgood, receiveChunk_of_outOfRange hsum hm]
    simp only [State.looped, ← List.append_assoc]
    rfl

/-- The registers of the payload intake when chunk `j` is to come. -/
abbrev Command.atChunk (c : Command) (cfg : Config) (j : Nat) (err : Bool) : Command :=
  { c with offset := j * cfg.maxChunk, errSeen := err, intake := [] }

/-- The registers of the payload intake when the frame of chunk `j` has been received. -/
abbrev Command.chunkReceived (c : Command) (s : State) (payload : List Byte) (j : Nat) (err : Bool) : Command :=
  { c.atChunk s.cfg j err with intake := frameOf s c.size.toNat payload j }

/-- `s` after a payload byte, with the registers `c`. -/
abbrev State.takingIn (s : State) (c : Command) : State := { s with cmd := some c, respOe := false }

/-- `s` in the payload intake when the loop of R125 has come to `acc` and chunk `j` is to come. -/
abbrev State.atChunk (s : State) (c : Command) (j : Nat) (acc : Memory × Bool × List Event) : State :=
  { s with cmd := some (c.atChunk s.cfg j acc.2.1), mem := acc.1, trace := s.trace ++ acc.2.2 }

/-- The registers when the last chunk has been taken. -/
abbrev Command.pastChunks (c : Command) (err : Bool) : Command :=
  { c with offset := c.size.toNat, errSeen := err, intake := [] }

/-- The status byte of the ACK of a DMA write (R125). -/
def State.ackStatus (s : State) (err : Bool) : Byte := if err then s.cfg.statusErr else statusOk

/-- `s` when the loop of R125 has come to `acc` before chunk `j`: that chunk is to come, or, if there is none, the ACK
is composed. -/
def State.beforeChunk (s : State) (c : Command) (j : Nat) (acc : Memory × Bool × List Event) : State :=
  if j < chunkCount s.cfg.maxChunk c.size.toNat then s.atChunk c j acc
  else (s.looped acc).respond (c.pastChunks acc.2.1) (s.ackStatus acc.2.1) []

/-- A payload chunk that is complete when a byte time comes is taken before it. -/
theorem converse_takeChunk (hp : s.phase = .execute) (hc : s.cmd = some c)
    (hop : (decodeOp c.op).isStreamWrite = true) (hlt : c.offset < c.size.toNat)
    (hfull : c.intake.length = c.chunkFrameLength s.cfg s.crcEnabled) (hne : bytes ≠ []) :
    converse (clocks bytes ++ rest) s = converse (clocks bytes ++ rest) (s.takeChunk c) := by
  obtain ⟨b, bytes, rfl⟩ := List.exists_cons_of_ne_nil hne
  have hwork : s.work = s.takeChunk c := by simp [State.work, hc, hp, hfull]
  have fits : s.cmdFits = true := by simp [State.cmdFits, hp, hc, hop, hlt, hfull]
  have inside : s.work.phase ≠ .awaitOpcode := by
    obtain ⟨p, k, m, evs, h, hphase, -⟩ := s.work_frame
    rw [h]
    rcases hphase with rfl | ⟨-, rfl⟩ <;> simp [hp]
  rw [← hwork]
  exact converse_clock_work (by simp [hp]) inside (State.work_of_ready (State.ready_work fits))

/-- The end of the frame of chunk `j`: what the loop of R125 does with it, and then the next chunk is to come or the
ACK is composed. -/
theorem takeChunk_eq_receiveChunk (hmax : 1 ≤ s.cfg.maxChunk) (hj : j < chunkCount s.cfg.maxChunk c.size.toNat)
    (hoff : c.offset = j * s.cfg.maxChunk) (herr : c.errSeen = acc.2.1)
    (hintake : c.intake = frameOf s c.size.toNat payload j) :
    (s.looped (acc.1, acc.2.1, acc.2.2 ++ receives (frameOf s c.size.toNat payload j))).takeChunk c =
      s.beforeChunk c (j + 1) (receiveChunk s c.cmdCrcOk c.addr.toNat c.size.toNat payload acc j) := by
  have hlen : c.chunkLength s.cfg = chunkLength s.cfg.maxChunk c.size.toNat j := Command.chunkLength_of_offset hoff
  have hstore := storeChunk_eq_receiveChunk (n := c.size.toNat) (payload := payload) hoff herr
  rw [frameData, frameGood, ← hintake, ← hlen] at hstore
  rw [← hintake]
  by_cases hnext : j + 1 < chunkCount s.cfg.maxChunk c.size.toNat
  · have hoff' : c.offset + c.chunkLength s.cfg = (j + 1) * s.cfg.maxChunk := by
      rw [hlen, chunkLength_of_succ_lt hmax hnext, hoff, Nat.succ_mul]
    have hmore : (j + 1) * s.cfg.maxChunk < c.size.toNat := (lt_chunkCount_iff hmax).mp hnext
    simp only [State.takeChunk, State.beforeChunk, hstore, hoff', hmore, hnext, if_true]
  · have hstart : j * s.cfg.maxChunk < c.size.toNat := (lt_chunkCount_iff hmax).mp hj
    have hoff' : c.offset + c.chunkLength s.cfg = c.size.toNat := by
      rw [hlen, chunkLength_last hmax (by omega), hoff]
      omega
    simp only [State.takeChunk, State.beforeChunk, hstore, hoff', lt_irrefl, hnext, if_false]
    rfl

/-- The frame of chunk `j` is received, and what the loop of R125 does with it is done before the next byte time. -/
theorem converse_chunk (hmax : 1 ≤ s.cfg.maxChunk) (hop : (decodeOp c.op).isStreamWrite = true)
    (hp : s.phase = .execute) (hpay : s.PayloadOf c.size.toNat payload)
    (hj : j < chunkCount s.cfg.maxChunk c.size.toNat) (hne : bytes ≠ []) :
    converse (clocks (frameOf s c.size.toNat payload j ++ bytes) ++ rest) (s.atChunk c j acc) =
      converse (clocks bytes ++ rest) ({ s with respOe := false }.beforeChunk c (j + 1)
        (receiveChunk s c.cmdCrcOk c.addr.toNat c.size.toNat payload acc j)) := by
  have hlen := frameOf_length hmax hpay hj
  have hchunk : (c.atChunk s.cfg j acc.2.1).chunkLength s.cfg = chunkLength s.cfg.maxChunk c.size.toNat j :=
    Command.chunkLength_of_offset rfl
  have hfull : (frameOf s c.size.toNat payload j).length =
      (c.atChunk s.cfg j acc.2.1).chunkFrameLength s.cfg s.crcEnabled := by
    rw [hlen, Command.chunkFrameLength, hchunk]
  have received : converse (clocks (frameOf s c.size.toNat payload j ++ bytes) ++ rest) (s.atChunk c j acc) =
      converse (clocks bytes ++ rest)
        ((s.takingIn (c.chunkReceived s payload j acc.2.1)).looped
          (acc.1, acc.2.1, acc.2.2 ++ receives (frameOf s c.size.toNat payload j))) := by
    rw [clocks, List.map_append, List.append_assoc]
    refine (converse_intake (s := s.atChunk c j acc) (bytes := frameOf s c.size.toNat payload j) hp rfl
      (List.ne_nil_of_length_pos (by omega)) ((Nat.zero_add _).trans_le hfull.le)).trans ?_
    rw [List.append_assoc]
    rfl
  have taken := takeChunk_eq_receiveChunk (s := s.takingIn (c.chunkReceived s payload j acc.2.1))
    (c := c.chunkReceived s payload j acc.2.1) (acc := acc) hmax hj rfl rfl rfl
  have complete := converse_takeChunk (s := (s.takingIn (c.chunkReceived s payload j acc.2.1)).looped
    (acc.1, acc.2.1, acc.2.2 ++ receives (frameOf s c.size.toNat payload j))) (rest := rest) hp rfl hop
    ((lt_chunkCount_iff hmax).mp hj) hfull hne
  exact received.trans (complete.trans (congrArg _ taken))

/-! ### The whole payload -/

/-- The state after a DMA write whose loop ends with `acc`: its memory, its events and the ACK (R125). -/
abbrev State.afterLoop (s : State) (op : Byte) (rest : List Stimulus) (acc : Memory × Bool × List Event) : State :=
  after { s with mem := acc.1 } rest (acc.2.2 ++ sends [op, s.ackStatus acc.2.1])

/-- With `m` chunks still to come, the payload from chunk `j` on and two byte times end the transaction. -/
theorem converse_payload {m : Nat} (hmax : 1 ≤ s.cfg.maxChunk) (hop : (decodeOp c.op).isStreamWrite = true)
    (hp : s.phase = .execute) (hpay : s.PayloadOf c.size.toNat payload)
    (hcount : j + m = chunkCount s.cfg.maxChunk c.size.toNat) (hb : bytes.length = 2) :
    converse (clocks (payload.drop (j * s.fullFrame) ++ bytes) ++ rest) (s.beforeChunk c j acc) =
      s.afterLoop c.op rest
        ((List.range' j m).foldl (receiveChunk s c.cmdCrcOk c.addr.toNat c.size.toNat payload) acc) := by
  induction m generalizing j s acc with
  | zero =>
    have past : j = chunkCount s.cfg.maxChunk c.size.toNat := hcount
    rw [past, List.drop_eq_nil_of_le (payload_le_frames hmax hpay), State.beforeChunk, if_neg (lt_irrefl _)]
    refine (converse_respond (k := c.pastChunks acc.2.1) (d := []) (by simp [Command.moreChunks]) hb).trans ?_
    simp only [after, List.append_assoc, List.range'_zero, List.foldl_nil]
    rfl
  | succ m ih =>
    have hj : j < chunkCount s.cfg.maxChunk c.size.toNat := by omega
    have later : payload.drop ((j + 1) * s.fullFrame) ++ bytes ≠ [] :=
      List.ne_nil_of_length_pos (by rw [List.length_append]; omega)
    rw [drop_eq_frameOf_append hmax hpay hj, List.append_assoc, State.beforeChunk, if_pos hj,
      converse_chunk hmax hop hp hpay hj later]
    exact ih (s := { s with respOe := false }) (j := j + 1) hmax hp hpay
      (show j + 1 + m = chunkCount s.cfg.maxChunk c.size.toNat by omega)

theorem exec_of_dmaWrite (hw : DmaWriteOf a n i) : exec i s = transact i streamWrite s := by
  rcases hw with ⟨size, crc, rfl, -⟩ | ⟨size, crc, rfl, -⟩ <;> rfl

theorem load_of_dmaWrite (hw : DmaWriteOf a n i) :
    (s.load i).addr = a ∧ (s.load i).size.toNat = n ∧ (decodeOp (s.load i).op).isStreamWrite = true := by
  refine ⟨operandAddr_of_dmaWrite hw, operandSize_of_dmaWrite hw, ?_⟩
  rcases hw with ⟨size, crc, rfl, -⟩ | ⟨size, crc, rfl, -⟩ <;> rfl

theorem payloadLength_of_dmaWrite (hw : DmaWriteOf a n i) (cfg : Config) (crcEnabled : Bool) :
    payloadLength cfg crcEnabled i = n + chunkCount cfg.maxChunk n * (1 + crcEnabled.toNat) := by
  rcases hw with ⟨size, crc, rfl, rfl⟩ | ⟨size, crc, rfl, rfl⟩ <;> rfl

/-- The diagnostic of a bad command checksum (R152). -/
def commandFault (good : Bool) : List Event := if good then [] else [.diag .crcMismatch]

/-- The Execute part of a DMA write stands before chunk 0 (R125), also where there is none (R126). -/
theorem streamWrite_eq_beforeChunk (hmax : 1 ≤ s.cfg.maxChunk) :
    streamWrite c s = (s.withEvents (commandFault c.cmdCrcOk)).beforeChunk c 0 (s.mem, false, []) := by
  obtain ⟨evs, hevs, h⟩ := streamWrite_cases c s
  have hbad : evs = commandFault c.cmdCrcOk := by
    rcases hevs with ⟨hc, rfl⟩ | ⟨hc, rfl⟩ <;> rw [hc] <;> rfl
  subst hbad
  rcases h with ⟨hz, h⟩ | ⟨hz, h⟩ <;> rw [h]
  · simp [State.beforeChunk, hz, chunkCount_zero hmax, State.ackStatus, Command.pastChunks, State.looped]
  · have some_chunk := Nat.pos_of_ne_zero ((chunkCount_eq_zero_iff (size := c.size.toNat) hmax).not.mpr hz)
    simp [State.beforeChunk, some_chunk]

/-- A DMA write does what the loop of R125 does, for every payload of the right length. -/
theorem exec_dmaWrite (hw : DmaWriteOf a n i) (hmax : 1 ≤ s.cfg.maxChunk)
    (hin : s.inbox = clocks (payload ++ bytes) ++ rest)
    (hpay : payload.length = payloadLength s.cfg s.crcEnabled i) (hb : bytes.length = 2) :
    let acc := receiveChunks s (s.load i).cmdCrcOk a.toNat n payload
    exec i s = .next (after { s with mem := acc.1 } rest
      (commandFault (s.load i).cmdCrcOk ++ (acc.2.2 ++ sends [i.opcode, s.ackStatus acc.2.1]))) := by
  rw [payloadLength_of_dmaWrite hw] at hpay
  obtain ⟨rfl, rfl, hop⟩ := load_of_dmaWrite (s := s) hw
  have whole := converse_payload (s := (s.begun i).withEvents (commandFault (s.load i).cmdCrcOk)) (c := s.load i)
    (j := 0) (acc := (s.mem, false, [])) (rest := rest) hmax hop rfl hpay (Nat.zero_add _) hb
  rw [Nat.zero_mul, List.drop_zero, ← List.range_eq_range'] at whole
  have executed := streamWrite_eq_beforeChunk (s := s.begun i) (c := s.load i) hmax
  rw [exec_of_dmaWrite hw]
  show Host.Outcome.next (converse s.inbox (streamWrite (s.load i) (s.begun i))) = _
  rw [executed, hin]
  exact congrArg Host.Outcome.next (whole.trans (after_withEvents { s with mem := _ } _ _ rest))

theorem exec_dmaWrite_of_good (hw : DmaWriteOf a n i) (hg : CommandGood s i) (hmax : 1 ≤ s.cfg.maxChunk)
    (hin : s.inbox = clocks (payload ++ bytes) ++ rest) (hpay : s.PayloadOf n payload) (hb : bytes.length = 2) :
    exec i s = .next (s.afterLoop i.opcode rest (receiveChunks s true a.toNat n payload)) := by
  have hgood : (s.load i).cmdCrcOk = true := hg
  have answer := exec_dmaWrite hw hmax hin (hpay.trans (payloadLength_of_dmaWrite hw ..).symm) hb
  rw [hgood] at answer
  exact answer

/-- A good DMA write of no byte reads no payload and is acknowledged (R126). -/
theorem exec_dmaWrite_zero (hw : DmaWriteOf a 0 i) (hg : CommandGood s i) (hin : s.inbox = clocks bytes ++ rest)
    (hb : bytes.length = 2) : exec i s = .next (after s rest (sends [i.opcode, statusOk])) := by
  obtain ⟨-, hsize, -⟩ := load_of_dmaWrite (s := s) hw
  have hgood : (s.load i).cmdCrcOk = true := hg
  rw [exec_of_dmaWrite hw]
  refine transact_answer (s' := s.begun i) (evs := []) ?_ hsize hin hb
  rw [State.withEvents_nil, streamWrite, if_pos hgood, if_pos hsize]
  rfl

/-! ### The loop sends nothing -/

theorem isTx_receiveChunk {good : Bool} (h : ∀ e ∈ acc.2.2, isTx e = false) (a : Nat) :
    ∀ e ∈ (receiveChunk s good a n payload acc j).2.2, isTx e = false := by
  have received : ∀ e ∈ acc.2.2 ++ receives (frameOf s n payload j), isTx e = false := by
    simp only [receives, List.forall_mem_append, List.forall_mem_map]
    exact ⟨h, fun _ _ => rfl⟩
  unfold receiveChunk
  dsimp only
  split_ifs
  · exact List.forall_mem_append.mpr ⟨received, by simp [isTx]⟩
  · split <;> exact List.forall_mem_append.mpr ⟨received, by simp [isTx]⟩
  · exact received

theorem isTx_receiveChunks (s : State) (good : Bool) (a n : Nat) (payload : List Byte) :
    ∀ e ∈ (receiveChunks s good a n payload).2.2, isTx e = false :=
  List.foldlRecOn (motive := fun acc : Memory × Bool × List Event => ∀ e ∈ acc.2.2, isTx e = false) _ _ (by simp)
    fun _ h _ _ => isTx_receiveChunk h a

/-- The bytes of a whole DMA write are its payload and two more. -/
theorem exists_payload_ack
    (hb : bytes.length = n + chunkCount s.cfg.maxChunk n * (1 + s.crcEnabled.toNat) + 2) :
    ∃ payload ack, bytes = payload ++ ack ∧ s.PayloadOf n payload ∧ ack.length = 2 :=
  ⟨_, _, (List.take_append_drop (bytes.length - 2) bytes).symm,
    by rw [State.PayloadOf, List.length_take]; omega, by rw [List.length_drop]; omega⟩

/-- All good DMA writes of one range answer alike (R127). -/
theorem dmaWrite_answersAlike (hmax : 1 ≤ s.cfg.maxChunk) (hin : s.inbox = clocks (payload ++ bytes) ++ rest)
    (hpay : s.PayloadOf n payload) (hb : bytes.length = 2) : s.AnswersAlike rest (DmaWriteOf a n) :=
  ⟨{ s with mem := (receiveChunks s true a.toNat n payload).1 }, _, _, rfl,
    isTx_receiveChunks s true a.toNat n payload, fun _ hw hg => exec_dmaWrite_of_good hw hg hmax hin hpay hb⟩

end Sys2Proof.Machine

namespace Sys2Proof

open Machine Claims

/-- Settles O38: a read of no byte composes its two bytes and no chunk, with the status its address gives; a write of
no byte composes the ACK at once. -/
theorem zeroSizeTransfers : Obligations.ZeroSizeTransfers := by
  intro s i a bytes rest hg hin hb
  refine ⟨fun hd hin_region => ?_, fun hd hno_region => ?_, fun hw => exec_dmaWrite_zero hw hg hin hb⟩
  · have reads : s.rangeReads a.toNat 0 = true := rangeReads_zero_iff.mpr hin_region
    rw [exec_dmaRead_zero hd hg hin hb, State.rangeFault, State.rangeStatus, if_pos reads, if_pos reads]
    rfl
  · have reads : ¬ s.rangeReads a.toNat 0 = true := rangeReads_zero_iff.not.mpr hno_region
    rw [exec_dmaRead_zero hd hg hin hb, State.rangeFault, State.rangeStatus, if_neg reads, if_neg reads]
    rfl

/-- Settles O39: the byte times of each chunk frame and the work after it are one pass of the loop. -/
theorem dmaWriteIsTheChunkLoop : Obligations.DmaWriteIsTheChunkLoop := by
  intro s i a n payload bytes rest good hw hgood hmax hin hpay hb
  obtain rfl : good = (s.load i).cmdCrcOk := Bool.eq_iff_iff.mpr hgood
  exact exec_dmaWrite hw hmax hin hpay hb

/-- Settles O48: the answer to a DMA command depends on its address and the number its size stands for only. -/
theorem sizeWidthsAgree : Obligations.SizeWidthsAgree := by
  intro s a n i j bytes rest hij hgi hgj hmax hin hb
  rcases hij with ⟨crc, crc', rfl, rfl⟩ | ⟨crc, crc', rfl, rfl⟩
  · exact dmaRead_differ_in_opcode (.inl ⟨n, crc, rfl, rfl⟩) (.inr ⟨_, crc', rfl, sizeOf16_toNat n⟩) hgi hgj hmax hin
      (hb.trans (Nat.zero_add _))
  · obtain ⟨payload, ack, rfl, hpay, hack⟩ := exists_payload_ack hb
    exact (dmaWrite_answersAlike hmax hin hpay hack).differ_in_opcode (.inl ⟨n, crc, rfl, rfl⟩)
      (.inr ⟨_, crc', rfl, sizeOf16_toNat n⟩) hgi hgj

end Sys2Proof
end

section
/-! DMA writes that deliver (`43_dma.md` R122, R123): a payload whose chunks carry right checksums and land in one region
is stored end to end. -/

namespace Sys2Proof.Machine

open Claims

variable {s : State} {a o j : Nat} {r : Region} {marker : Nat → Byte} {data : List Byte}

/-! ### The payload that carries given data -/

/-- The frame of chunk `j` of `data`, with the right checksum (R65). -/
def State.dataFrame (s : State) (marker : Nat → Byte) (data : List Byte) (j : Nat) : List Byte :=
  marker j :: (chunkOf s.cfg.maxChunk data j ++ checksumOf s (chunkOf s.cfg.maxChunk data j))

theorem payloadOf_eq (s : State) (marker : Nat → Byte) (data : List Byte) : payloadOf s marker data =
    (List.range (chunkCount s.cfg.maxChunk data.length)).flatMap (s.dataFrame marker data) := rfl

theorem chunkOf_length (maxChunk : Nat) (data : List Byte) (j : Nat) :
    (chunkOf maxChunk data j).length = chunkLength maxChunk data.length j := by
  rw [chunkOf, List.length_take, List.length_drop, chunkLength]

theorem dataFrame_length : (s.dataFrame marker data j).length =
    1 + chunkLength s.cfg.maxChunk data.length j + s.crcEnabled.toNat := by
  rw [State.dataFrame, List.length_cons, List.length_append, chunkOf_length, checksumOf_length]
  omega

/-- The first `j` frames carry `j` full chunks, or all data. -/
theorem dataFrames_length (s : State) (marker : Nat → Byte) (data : List Byte) (j : Nat) :
    ((List.range j).flatMap (s.dataFrame marker data)).length =
      min (j * s.cfg.maxChunk) data.length + j * (1 + s.crcEnabled.toNat) := by
  induction j with
  | zero => simp
  | succ j ih =>
    rw [List.range_succ, List.flatMap_append, List.length_append, ih, List.flatMap_singleton, dataFrame_length,
      chunkLength, Nat.succ_mul, Nat.succ_mul]
    omega

theorem payloadOf_length (hmax : 1 ≤ s.cfg.maxChunk) (marker : Nat → Byte) (data : List Byte) :
    s.PayloadOf data.length (payloadOf s marker data) := by
  rw [State.PayloadOf, payloadOf_eq, dataFrames_length, min_eq_right (chunkCount_bounds hmax).1]

/-- The block cuts the payload where it was put together. -/
theorem frameOf_payloadOf (hmax : 1 ≤ s.cfg.maxChunk) (hj : j < chunkCount s.cfg.maxChunk data.length) :
    frameOf s data.length (payloadOf s marker data) j = s.dataFrame marker data j := by
  obtain ⟨m, hm⟩ : ∃ m, chunkCount s.cfg.maxChunk data.length = j + 1 + m := Nat.exists_eq_add_of_le hj
  have before : ((List.range j).flatMap (s.dataFrame marker data)).length = j * s.fullFrame := by
    rw [dataFrames_length, min_eq_left (mul_lt_of_lt_chunkCount hmax hj).le]
    ring
  rw [frameOf, payloadOf_eq, hm, List.range_add, List.range_succ, List.flatMap_append, List.flatMap_append,
    List.flatMap_singleton, List.append_assoc, List.drop_left' before, List.take_left' dataFrame_length]

theorem frameData_payloadOf (hmax : 1 ≤ s.cfg.maxChunk) (hj : j < chunkCount s.cfg.maxChunk data.length) :
    frameData s data.length (payloadOf s marker data) j = chunkOf s.cfg.maxChunk data j := by
  rw [frameData, frameOf_payloadOf hmax hj]
  exact List.take_left' (chunkOf_length ..)

theorem frameGood_payloadOf (hmax : 1 ≤ s.cfg.maxChunk) (hj : j < chunkCount s.cfg.maxChunk data.length) :
    frameGood s data.length (payloadOf s marker data) j = true := by
  rw [frameGood, frameOf_payloadOf hmax hj, State.dataFrame, List.drop_one, List.tail_cons]
  cases hc : s.crcEnabled with
  | false => rfl
  | true =>
    rw [checksumOf, hc]
    exact (verify_append ..).mpr rfl

/-! ### Chunks that land in one region -/

theorem Buffer.store_append (b : Buffer) (o : Nat) (xs ys : List Byte) :
    b.store o (xs ++ ys) = (b.store o xs).store (o + xs.length) ys := by
  induction xs generalizing b o with
  | nil => rfl
  | cons x xs ih =>
    rw [List.cons_append, Buffer.store, ih, Buffer.store, List.length_cons, Nat.add_right_comm, Nat.add_assoc]

theorem Memory.setBuffer_setBuffer (m : Memory) (b b' : Buffer) (r : Region) :
    (m.setBuffer b r).setBuffer b' r = m.setBuffer b' r := by cases r <;> rfl

/-- Chunk `j` of `data` continues the bytes before it. -/
theorem take_append_chunkOf (maxChunk : Nat) (data : List Byte) (j : Nat) :
    data.take (j * maxChunk) ++ chunkOf maxChunk data j = data.take ((j + 1) * maxChunk) := by
  rw [chunkOf, Nat.succ_mul, List.take_add]

/-- The chunks of `n` bytes at `a` resolve in region `r`, one after another from offset `o` on. -/
def State.ChunksResolve (s : State) (a n : Nat) (r : Region) (o : Nat) : Prop :=
  ∀ j, j < chunkCount s.cfg.maxChunk n →
    resolve s.cfg (a + j * s.cfg.maxChunk) (chunkLength s.cfg.maxChunk n j) =
      .range r (o + j * s.cfg.maxChunk) (chunkLength s.cfg.maxChunk n j)

/-- Where every chunk resolves in one region, `j` passes of the loop have stored the data of `j` chunks end to end. -/
theorem receiveChunks_stores (hmax : 1 ≤ s.cfg.maxChunk)
    (hres : s.ChunksResolve a data.length r o)
    (hj : j ≤ chunkCount s.cfg.maxChunk data.length) :
    let acc := (List.range j).foldl (receiveChunk s true a data.length (payloadOf s marker data)) (s.mem, false, [])
    acc.1 = s.mem.setBuffer ((s.mem.buffer r).store o (data.take (j * s.cfg.maxChunk))) r ∧ acc.2.1 = false := by
  induction j with
  | zero =>
    rw [Nat.zero_mul, List.take_zero]
    exact ⟨by cases r <;> rfl, rfl⟩
  | succ j ih =>
    obtain ⟨hmem, herr⟩ := ih (by omega)
    rw [List.range_succ, List.foldl_append, List.foldl_cons, List.foldl_nil]
    generalize (List.range j).foldl _ _ = acc at hmem herr ⊢
    have hchunk := hres j hj
    rw [← chunkOf_length] at hchunk
    have hwrite := Memory.write_of_resolve (m := acc.1) hchunk
    have full : (data.take (j * s.cfg.maxChunk)).length = j * s.cfg.maxChunk := by
      rw [List.length_take, min_eq_left (mul_lt_of_lt_chunkCount hmax hj).le]
    rw [← frameData_payloadOf (marker := marker) hmax hj] at hwrite
    rw [receiveChunk_of_write (frameGood_payloadOf hmax hj) hwrite]
    refine ⟨?_, herr⟩
    rw [hmem, Memory.buffer_setBuffer_same, Memory.setBuffer_setBuffer, frameData_payloadOf hmax hj,
      ← take_append_chunkOf, Buffer.store_append, full]

/-- The loop over a payload that arrives whole, in one region, is one store of its data (R122, R125). -/
theorem receiveChunks_eq_write (hmax : 1 ≤ s.cfg.maxChunk)
    (hwhole : resolve s.cfg a data.length = .range r o data.length)
    (hres : s.ChunksResolve a data.length r o) :
    let acc := receiveChunks s true a data.length (payloadOf s marker data)
    s.mem.write s.cfg a data = some acc.1 ∧ acc.2.1 = false := by
  obtain ⟨hmem, herr⟩ := receiveChunks_stores (marker := marker) hmax hres le_rfl
  rw [List.take_of_length_le (chunkCount_bounds hmax).1, ← Option.some_inj, ← Memory.write_of_resolve hwhole] at hmem
  exact ⟨hmem.symm, herr⟩

end Sys2Proof.Machine

namespace Sys2Proof

open Machine Claims

/-- Settles O40: the loop is one store of the whole data. -/
theorem dmaWriteDeliversThePayload : Obligations.DmaWriteDeliversThePayload := by
  intro s i a data bytes marker rest r o hw hg hmax hmem hwhole hres hin hb
  obtain ⟨hstore, herr⟩ := receiveChunks_eq_write (marker := marker) hmax hwhole hres
  refine ⟨_, _, exec_dmaWrite_of_good hw hg hmax hin (payloadOf_length hmax marker data) hb, rfl, ?_,
    Memory.read_write hmem hstore, fun r' o' hout => Memory.write_get_other hstore hwhole hout⟩
  rw [sentBytes_append, sentBytes_of_silent (isTx_receiveChunks s true _ _ _), sentBytes_sends, herr]
  rfl

end Sys2Proof
end

section
/-! The Reset command (`44_control.md` R140): it is answered and changes no state. -/

namespace Sys2Proof.Machine

open Claims

variable {s : State} {bytes : List Byte} {rest : List Stimulus}

/-- The frame of Reset is its opcode, in every context (R51, R56). -/
theorem frameLength_reset (ctx : FrameContext) : frameLength ctx 0xCF = 1 := by
  have opcodeOnly : (encode ctx .reset).length = 1 := rfl
  exact (encode_length rfl).symm.trans opcodeOnly

theorem exec_of_reset : exec .reset s = transact .reset resetAck s := rfl

/-- Reset composes its two response bytes at once, with no event before them and no change to memory, flags or queue (R140). -/
theorem exec_reset (hin : s.inbox = clocks bytes ++ rest) (hb : bytes.length = 2) :
    exec .reset s = .next (after s rest (sends [0xCF, statusOk])) := by
  rw [exec_of_reset]
  refine transact_answer (s' := s.begun .reset) (evs := []) (d := []) ?_ rfl hin hb
  rw [State.withEvents_nil]
  rfl

end Sys2Proof.Machine

namespace Sys2Proof

open Machine Claims

/-- Settles O41: the frame is the opcode alone, and the Execute part composes the response from the state as it is. -/
theorem resetAcknowledgesOnly : Obligations.ResetAcknowledgesOnly :=
  ⟨frameLength_reset, fun _ _ _ hin hb => exec_reset hin hb⟩

end Sys2Proof
end

section
/-! The error kinds and their recovery (`60_exceptions.md` R152 to R154, R160): a bad command checksum, an opcode that
no command has, and a full notifier queue. -/

namespace Sys2Proof.Machine

open Claims

variable {s : State} {i : Instr} {a : Addr} {v : Word} {n j m : Nat} {payload bytes : List Byte} {rest : List Stimulus}

/-! ### The loop of R125 under a bad command checksum -/

/-- A chunk of a DMA write with a bad command checksum is received and ignored (R125). -/
theorem receiveChunk_of_bad (a : Nat) (acc : Memory × Bool × List Event) :
    receiveChunk s false a n payload acc j =
      (acc.1, acc.2.1, acc.2.2 ++ receives (frameOf s n payload j)) := rfl

/-- With `m` chunks still to come, the passes from chunk `j` on receive the rest of the payload and do nothing else. -/
theorem foldl_receiveChunk_of_bad (hmax : 1 ≤ s.cfg.maxChunk) (hpay : s.PayloadOf n payload)
    (hcount : j + m = chunkCount s.cfg.maxChunk n) (a : Nat) (acc : Memory × Bool × List Event) :
    (List.range' j m).foldl (receiveChunk s false a n payload) acc =
      (acc.1, acc.2.1, acc.2.2 ++ receives (payload.drop (j * s.fullFrame))) := by
  induction m generalizing j acc with
  | zero =>
    have past : j = chunkCount s.cfg.maxChunk n := hcount
    have nothingLeft : payload.drop (j * s.fullFrame) = [] :=
      List.drop_eq_nil_of_le (past ▸ payload_le_frames hmax hpay)
    simp [nothingLeft, receives]
  | succ m ih =>
    have next := drop_eq_frameOf_append (j := j) hmax hpay (by omega)
    rw [List.range'_succ, List.foldl_cons, receiveChunk_of_bad, ih (by omega), next]
    simp [receives]

/-- The loop of a DMA write with a bad command checksum receives the whole payload and stores nothing (R152). -/
theorem receiveChunks_of_bad (hmax : 1 ≤ s.cfg.maxChunk) (hpay : s.PayloadOf n payload) (a : Nat) :
    receiveChunks s false a n payload = (s.mem, false, receives payload) := by
  rw [receiveChunks, List.range_eq_range', foldl_receiveChunk_of_bad hmax hpay (Nat.zero_add _), Nat.zero_mul]
  rfl

/-! ### Writes with a bad command checksum -/

theorem payloadLength_of_wordWrite (hw : WordWriteOf a v i) (cfg : Config) (crcEnabled : Bool) :
    payloadLength cfg crcEnabled i = 0 := by
  rcases hw with ⟨crc, rfl⟩ | ⟨b, crc, rfl, -⟩ <;> rfl

/-- A word write with a bad checksum is acknowledged and nothing else (R152). -/
theorem exec_wordWrite_of_bad (hw : WordWriteOf a v i) (hbad : ¬ CommandGood s i)
    (hin : s.inbox = clocks bytes ++ rest) (hb : bytes.length = 2) :
    exec i s = .next (after s rest (.diag .crcMismatch :: sends [i.opcode, statusOk])) := by
  have hc : (s.load i).cmdCrcOk = false := Bool.eq_false_of_not_eq_true hbad
  obtain ⟨-, -, hsize⟩ := load_of_wordWrite (s := s) hw
  have ignored : wordWrite (s.load i) (s.begun i) =
      ((s.begun i).withEvents [.diag .crcMismatch]).respond (s.load i) statusOk [] := by
    simp [wordWrite, hc, State.raise, State.emit]
  rw [exec_of_wordWrite hw]
  exact transact_answer (s' := s.begun i) ignored hsize hin hb

/-- A DMA write with a bad checksum receives its payload, is acknowledged, and nothing else (R152). -/
theorem exec_dmaWrite_of_bad (hw : DmaWriteOf a n i) (hbad : ¬ CommandGood s i) (hmax : 1 ≤ s.cfg.maxChunk)
    (hin : s.inbox = clocks (payload ++ bytes) ++ rest)
    (hpay : payload.length = payloadLength s.cfg s.crcEnabled i) (hb : bytes.length = 2) :
    exec i s = .next (after s rest (.diag .crcMismatch :: (receives payload ++ sends [i.opcode, statusOk]))) := by
  have hc : (s.load i).cmdCrcOk = false := Bool.eq_false_of_not_eq_true hbad
  have answer := exec_dmaWrite hw hmax hin hpay hb
  rw [hc, receiveChunks_of_bad hmax (hpay.trans (payloadLength_of_dmaWrite hw ..))] at answer
  exact answer

/-! ### Opcodes of format U -/

/-- A frame of format U is its opcode and the bytes to be drained (R51, R143). -/
theorem frameLength_of_formatU {ctx : FrameContext} {op : Byte} (hop : (decodeOp op).format = .U)
    (hidle : isIdleFiller ctx op = false) : frameLength ctx op = 1 + ctx.drain := by
  rw [frameLength, hidle, hop]
  rfl

/-- The Execute part of the Unknown rule composes its two response bytes at once, after its diagnostic (R143). -/
theorem transact_unknownAck (hsize : (s.load i).size.toNat = 0) (hin : s.inbox = clocks bytes ++ rest)
    (hb : bytes.length = 2) :
    transact i unknownAck s =
      .next (after s rest (.diag (.unknownOpcode i.opcode) :: sends [i.opcode, s.cfg.statusErr])) :=
  transact_answer (s' := s.begun i) (evs := [.diag (.unknownOpcode i.opcode)]) (d := []) rfl hsize hin hb

end Sys2Proof.Machine

namespace Sys2Proof

open Machine Claims

/-- Settles O29: in all four reads the Execute part composes zeros, and leaves no chunk to be read from memory. -/
theorem readWithBadChecksumAnswersZeros : Obligations.ReadWithBadChecksumAnswersZeros :=
  fun _ _ _ _ hk hbad hin hb => exec_read_of_bad hk hbad hin hb

/-- Settles O33: a word write has no payload and composes its ACK at once; each chunk of a DMA write is received and
ignored. -/
theorem writeWithBadChecksumIsIgnored : Obligations.WriteWithBadChecksumIsIgnored := by
  intro s i payload bytes rest hk hbad hmax hin hpay hb
  rcases hk with ⟨a, v, hw⟩ | ⟨a, n, hw⟩
  · obtain rfl : payload = [] := List.length_eq_zero_iff.mp (hpay.trans (payloadLength_of_wordWrite hw ..))
    exact exec_wordWrite_of_bad hw hbad hin hb
  · exact exec_dmaWrite_of_bad hw hbad hmax hin hpay hb

/-- Settles O42: these opcodes have frames of format U, and one Execute part, that of the Unknown rule. -/
theorem unknownOpcodesAnswerAnError : Obligations.UnknownOpcodesAnswerAnError := by
  refine ⟨fun ctx op hop hidle => frameLength_of_formatU ?_ hidle, fun s i bytes rest hi hin hb => ?_⟩
  · rcases hop with hop | rfl | rfl
    · rw [hop]; rfl
    · rfl
    · rfl
  · rcases hi with rfl | rfl | ⟨op, rfl⟩ <;> exact transact_unknownAck rfl hin hb

/-- Settles O35: the two cases of `Notify` exclude each other by the length of the queue. -/
theorem notifyQueuesOrDropsTheNewest : Obligations.NotifyQueuesOrDropsTheNewest := by
  intro s a
  rcases s.notify_cases a with ⟨room, queued⟩ | ⟨full, dropped⟩
  · exact ⟨fun _ => queued, fun full => absurd room full.not_gt⟩
  · exact ⟨fun room => absurd room full.not_gt, fun _ => dropped⟩

end Sys2Proof
end
